-- ==== Sys2Proof/Word.lean ====
section
/-! DEFINITION. The 32-bit word that every port and every storage cell of the hardware moves (00_scope R23, 20_memory R86). -/

namespace Sys2Proof

/-- One 32-bit word: a binary32 sample, a control payload or a status word (00_scope R23). -/
abbrev Word := BitVec 32

namespace Word

/-- The word of +0.0, the "silence" sample (00_scope R23). -/
def silence : Word := 0x00000000#32

/-- The word of 1.0. -/
def one : Word := 0x3F800000#32

/-- The word of 0.5, the value of NORM_GAIN (00_scope R10). -/
def half : Word := 0x3F000000#32

end Word

end Sys2Proof
end

