-- ==== Sys2Proof/Config.lean ====
section
/-! DEFINITION. What an implementation fixes: the parameters of 00_scope R12 to R21 and 92_eei_decisions as plain data, the
capacity limits the spec names, and the free values (constants with no body) of the parameters the spec leaves open. -/

namespace Sys2Proof

/-- How a function-valued parameter (NUMERICS, HANN_ROM, PITCH_EXP2) is set: to the default the spec gives results for, or to
another function, of which only the spec's constraint is known (93_implementation_defined section 1). -/
inductive Choice where
  /-- The default value of the parameter. -/
  | standard
  /-- Any other value of the parameter: a free function of Config. -/
  | custom
  deriving DecidableEq, Repr

/-- The parameters the environment fixes before power-on reset (00_scope R12 to R15, R20, R21, 70_reset R342). -/
structure Params where
  /-- BLOCK_SIZE, N (00_scope R12). -/
  blockSize : Nat
  /-- CHANNELS, C (00_scope R13). -/
  channels : Nat
  /-- SAMPLE_RATE, which no rule reads (00_scope R14). The spec says only "any positive value" (92 OPEN parameters); that it is a
  natural number, so that no fractional rate can be given, is the model's choice (DESIGN CHOICE: log 17). -/
  sampleRate : Nat
  /-- INIT_GRAIN_SIZE (00_scope R15). -/
  initGrainSize : BitVec 13
  /-- NUMERICS (00_scope R20). -/
  numerics : Choice
  /-- HANN_ROM (00_scope R21). -/
  hannRom : Choice
  /-- PITCH_EXP2 (00_scope R21). -/
  pitchExp2 : Choice
  deriving DecidableEq, Repr

/-- The parameters `State.reset` uses: the defaults of 92_eei_decisions, and N = 128, for which the spec gives no default
(DESIGN CHOICE, unsafe: log 3; statements hold for every legal parameter set, never for this one alone). -/
def Params.default : Params :=
  { blockSize := 128, channels := 1, sampleRate := 44100, initGrainSize := 1024#13,
    numerics := .standard, hannRom := .standard, pitchExp2 := .standard }

/-- The three binary32 operations of 00_scope R24. -/
inductive FpOp where
  | add
  | sub
  | mul
  deriving DecidableEq, Repr

namespace Config

/-- DEPTH_MAX, the physical depth of each buffer (00_scope R11). -/
def depthMax : Nat := 32768

/-- LMAX, the longest window or resampled grain (00_scope R18). -/
def lmax : Nat := 16384

/-- NAN_PAYLOAD (92 D30, 44 R282): sign bit and 22 payload bits of the quiet NaN an operation on two words produces.
A free value (safe: log 8): any quiet NaN, which may depend on the operation and its operands. -/
opaque nanPayload : FpOp → Word → Word → BitVec 23

/-- Under a NUMERICS other than the default (93 section 1): a sample times a window coefficient, as PEEK_WIN stores it.
A free value (safe: log 9). -/
opaque customWindowed : Word → Word → Word

/-- Under a NUMERICS other than the default: the resampled sample number i of a grain at a ratio. A free value (safe: log 9). -/
opaque customResampled : List Word → Word → Nat → Word

/-- Under a NUMERICS other than the default: a resampled sample, a coefficient and the gain multiplied for overlap-add.
A free value (safe: log 9). -/
opaque customSynthesis : Word → Word → Word → Word

/-- Under a NUMERICS other than the default: a cell's old value plus an accumulated sample. A free value (safe: log 9). -/
opaque customAccumulated : Word → Word → Word

/-- A HANN_ROM other than the default, before its constraint is imposed (93 section 1). A free value (safe: log 10). -/
opaque customHann : Nat → Nat → Word

/-- A PITCH_EXP2 other than the default, before its constraint is imposed (93 section 1). A free value (safe: log 10). -/
opaque customExp2 : Word → Word

end Config

end Sys2Proof
end

