-- ==== Sys2Proof/Syntax.lean ====
section
/-! DEFINITION. The transactions of the hardware: the frames that arrive on its ports (30_encoding R110), the instruction each
frame stands for (one constructor per row of opcode_table.json), the responses, and the events of the environment. The internal ports
can be driven directly, as 95_test_vectors drives them (log 11). -/

namespace Sys2Proof

/-- The two instances of `circular_sample_buffer` (00_scope R2, 40 R148). -/
inductive BufId where
  | ibuf
  | obuf
  deriving DecidableEq, Repr

/-- One transaction as it arrives on its port: the selecting word at the width of the port's format (30_encoding R110), and the
samples of its side bus where the format has one (R115, R120, R122). -/
inductive Frame where
  /-- CTL: a 36-bit control word (R111). -/
  | ctl (w : BitVec 36)
  /-- AUD: the block of input samples, one list for each channel (R122). -/
  | aud (block : List (List Word))
  /-- STS: a 4-bit status address (R123). -/
  | sts (addr : BitVec 4)
  /-- BUF of one buffer instance: a 36-bit command word (R115) and its input side bus. -/
  | buf (b : BufId) (w : BitVec 36) (din : List Word)
  /-- ROM: a 30-bit coefficient address (R119). -/
  | rom (w : BitVec 30)
  /-- RSMP: a 45-bit request (R120) and the grain on its side bus. -/
  | rsmp (w : BitVec 45) (x : List Word)
  /-- GRAIN: a request without fields (R121). -/
  | grain
  deriving DecidableEq, Repr

/-- The instructions (port transactions) of the hardware, one constructor per row of opcode_table.json. A bit field an operation
does not use (R112, R116) is kept, so that an encoding loses no bit; no meaning reads it (log 15). The count A of WRITE, PEEK_WIN and
ACCUM and the INLEN of RESAMPLE are the lengths of their side buses (R116, R120). -/
inductive Instr where
  /-- CTL OP 0x0 (44 R268). -/
  | nop (payload : Word)
  /-- CTL OP 0x1: semitones as a binary32 word (44 R269). -/
  | setPitch (payload : Word)
  /-- CTL OP 0x2: the size as an unsigned word (44 R270). -/
  | setGrainSize (payload : Word)
  /-- CTL OP 0x3 (44 R271). -/
  | reset (payload : Word)
  /-- CTL OP 0x4 to 0x7, the low two bits of OP being `op` (44 R268). -/
  | ctlReserved47 (op : BitVec 2) (payload : Word)
  /-- CTL OP 0x8 to 0xF, the low three bits of OP being `op` (44 R268). -/
  | ctlReserved8F (op : BitVec 3) (payload : Word)
  /-- BUF OP 000: set the capacity and clear; `z` and `off` are ignored (40 R140). -/
  | clear (b : BufId) (z : Bool) (cap off : BitVec 16)
  /-- BUF OP 001: append the samples `din`; `z` and `off` are ignored (40 R141). -/
  | write (b : BufId) (z : Bool) (off : BitVec 16) (din : List Word)
  /-- BUF OP 010: remove `n` samples, zeroing them when `z`; `off` is ignored (40 R142). -/
  | read (b : BufId) (z : Bool) (n off : BitVec 16)
  /-- BUF OP 011: read a span windowed by the coefficients `win`; `z` is ignored (40 R143). -/
  | peekWin (b : BufId) (z : Bool) (off : BitVec 16) (win : List Word)
  /-- BUF OP 100: add the samples `din` ahead of the write cursor; `z` is ignored (40 R144). -/
  | accum (b : BufId) (z : Bool) (off : BitVec 16) (din : List Word)
  /-- BUF OP 101: consume `n` samples; `z` and `off` are ignored (40 R145). -/
  | advRd (b : BufId) (z : Bool) (n off : BitVec 16)
  /-- BUF OP 110: publish `n` samples; `z` and `off` are ignored (40 R146). -/
  | advWr (b : BufId) (z : Bool) (n off : BitVec 16)
  /-- BUF OP 111, reserved; every field is ignored (40 R147). -/
  | bufReserved (b : BufId) (z : Bool) (a off : BitVec 16)
  /-- ROM LOOKUP of coefficient `i` of the window of length `l` (41 R180). -/
  | lookup (l i : BitVec 15)
  /-- RSMP RESAMPLE of the grain `x` at the ratio (42 R200). -/
  | resample (ratio : Word) (x : List Word)
  /-- GRAIN GRAIN_CYCLE (43 R238). -/
  | grainCycle
  /-- AUD PROCESS_BLOCK of the input block, one list of samples for each channel (44 R261). -/
  | processBlock (inp : List (List Word))
  /-- STS STATUS_READ (44 R276). -/
  | statusRead (addr : BitVec 4)
  deriving DecidableEq, Repr

/-- Why the decoder rejects a frame. -/
inductive DecodeError where
  /-- The side bus does not carry exactly the number of samples that 30_encoding R116 or R120 gives the word. -/
  | sideBusLength
  deriving DecidableEq, Repr

/-- What a transaction returns to whoever issued it. -/
inductive Response where
  /-- No response: a CTL word (44 R267), a BUF operation with no dout (30_encoding R116), a transaction that faulted (60 R311). -/
  | none
  /-- The dout bus of READ and PEEK_WIN (30_encoding R115). -/
  | samples (v : List Word)
  /-- The coefficient of LOOKUP (R119). -/
  | coefficient (w : Word)
  /-- OUTLEN and the samples of RESAMPLE (R120). -/
  | resampled (outLen : BitVec 15) (y : List Word)
  /-- The completion signal of GRAIN_CYCLE (R121). -/
  | done
  /-- The output block of PROCESS_BLOCK, one list for each channel (R122). -/
  | block (out : List (List Word))
  /-- The word of STATUS_READ (R123). -/
  | status (w : Word)
  deriving DecidableEq, Repr

/-- What the environment can do to the machine, between transactions (20_memory R89, 70_reset R340). -/
inductive Event where
  /-- Power-on reset under the parameters the environment has fixed (70_reset R340, R342). -/
  | powerOn (p : Params)
  /-- A transaction on a port. -/
  | transaction (f : Frame)
  deriving DecidableEq, Repr

end Sys2Proof
end

