-- ==== Sys2Proof/WellFormed.lean ====
section
/-! DEFINITION. When a parameter set is legal (92_eei_decisions, OPEN parameters) and when an instruction is one that a frame can
carry: its side bus is no longer than its count field can say, and a block has the shape the parameters fix. -/

namespace Sys2Proof

/-- The legal grain sizes, exactly {512, 1024, 2048, 4096} (00_scope R8). -/
def legalGrainSize (g : Nat) : Bool :=
  g == 512 || g == 1024 || g == 2048 || g == 4096

/-- The legal block sizes, exactly {64, 128, 256, 512} (00_scope R12). -/
def legalBlockSize (n : Nat) : Bool :=
  n == 64 || n == 128 || n == 256 || n == 512

/-- A parameter set the hardware can be built with (00_scope R12 to R15; 93 section 1: any other is refused). That a
positive SAMPLE_RATE is one of at least 1 is the model's choice of a natural number for it (log 17). -/
def Params.legal (p : Params) : Bool :=
  legalBlockSize p.blockSize && decide (1 ≤ p.channels) && decide (1 ≤ p.sampleRate) &&
    legalGrainSize p.initGrainSize.toNat

/-- An AUD block of C channels of N samples each, the only shape the port carries (30_encoding R122, 70_reset R346). -/
def Params.blockShape (p : Params) (block : List (List Word)) : Bool :=
  block.length == p.channels && block.all fun ch => ch.length == p.blockSize

/-- The instruction fits its format: a 16-bit count A (30_encoding R115), a 13-bit INLEN (R120). -/
def Instr.encodable : Instr → Bool
  | .nop _ => true
  | .setPitch _ => true
  | .setGrainSize _ => true
  | .reset _ => true
  | .ctlReserved47 _ _ => true
  | .ctlReserved8F _ _ => true
  | .clear _ _ _ _ => true
  | .write _ _ _ din => decide (din.length < 2 ^ 16)
  | .read _ _ _ _ => true
  | .peekWin _ _ _ win => decide (win.length < 2 ^ 16)
  | .accum _ _ _ din => decide (din.length < 2 ^ 16)
  | .advRd _ _ _ _ => true
  | .advWr _ _ _ _ => true
  | .bufReserved _ _ _ _ => true
  | .lookup _ _ => true
  | .resample _ x => decide (x.length < 2 ^ 13)
  | .grainCycle => true
  | .processBlock _ => true
  | .statusRead _ => true

/-- The instruction fits its format and, for PROCESS_BLOCK, the shape of block the parameters fix. -/
def Instr.wellFormed (p : Params) (i : Instr) : Bool :=
  i.encodable &&
    match i with
    | .processBlock inp => p.blockShape inp
    | _ => true

end Sys2Proof
end

