-- ==== Sys2Proof/Decode.lean ====
section
/-! DEFINITION. The decoder of port frames (30_encoding R110 to R124), total, rejecting by name, and the encoder beside it; then
the reading of an opcode_table.json word as a frame. -/

namespace Sys2Proof

/-- The CTL opcode map (30_encoding R111, R113): OP is bits 35:32, PAYLOAD bits 31:0. Every 36-bit word decodes to exactly one row. -/
def decodeCtl (w : BitVec 36) : Instr :=
  let payload : Word := w.extractLsb' 0 32
  match (w.extractLsb' 32 4).toNat with
  | 0 => .nop payload
  | 1 => .setPitch payload
  | 2 => .setGrainSize payload
  | 3 => .reset payload
  | _ =>
    if w.getLsbD 35 then .ctlReserved8F (w.extractLsb' 32 3) payload
    else .ctlReserved47 (w.extractLsb' 32 2) payload

/-- The BUF opcode map (30_encoding R115 to R117): OP is bits 35:33, Z bit 32, A bits 31:16, B bits 15:0. The side bus carries A
samples for WRITE, PEEK_WIN and ACCUM and none for the others. -/
def decodeBuf (b : BufId) (w : BitVec 36) (din : List Word) : Except DecodeError Instr :=
  let z := w.getLsbD 32
  let a : BitVec 16 := w.extractLsb' 16 16
  let off : BitVec 16 := w.extractLsb' 0 16
  let withBus (i : Instr) : Except DecodeError Instr :=
    if din.length = a.toNat then .ok i else .error .sideBusLength
  let noBus (i : Instr) : Except DecodeError Instr :=
    if din.length = 0 then .ok i else .error .sideBusLength
  match (w.extractLsb' 33 3).toNat with
  | 0 => noBus (.clear b z a off)
  | 1 => withBus (.write b z off din)
  | 2 => noBus (.read b z a off)
  | 3 => withBus (.peekWin b z off din)
  | 4 => withBus (.accum b z off din)
  | 5 => noBus (.advRd b z a off)
  | 6 => noBus (.advWr b z a off)
  | _ => noBus (.bufReserved b z a off)

/-- The RSMP request (30_encoding R120): INLEN is bits 44:32, RATIO bits 31:0, and the side bus carries INLEN samples. -/
def decodeRsmp (w : BitVec 45) (x : List Word) : Except DecodeError Instr :=
  let inlen : BitVec 13 := w.extractLsb' 32 13
  if x.length = inlen.toNat then .ok (.resample (w.extractLsb' 0 32) x) else .error .sideBusLength

/-- The instruction a frame stands for. The port fixes the format and the length (30_encoding R124); no decoding step depends on
another transaction. -/
def decode : Frame → Except DecodeError Instr
  | .ctl w => .ok (decodeCtl w)
  | .aud block => .ok (.processBlock block)
  | .sts addr => .ok (.statusRead addr)
  | .buf b w din => decodeBuf b w din
  | .rom w => .ok (.lookup (w.extractLsb' 15 15) (w.extractLsb' 0 15))
  | .rsmp w x => decodeRsmp w x
  | .grain => .ok .grainCycle

/-- A CTL word from its fields (30_encoding R111). -/
def ctlWord (op : BitVec 4) (payload : Word) : BitVec 36 := op ++ payload

/-- A BUF word from its fields (30_encoding R115). -/
def bufWord (op : BitVec 3) (z : Bool) (a off : BitVec 16) : BitVec 36 :=
  op ++ BitVec.ofBool z ++ a ++ off

/-- The count A of a side bus of samples. -/
def busCount (din : List Word) : BitVec 16 := BitVec.ofNat 16 din.length

/-- The frame of an instruction, by the formats of 30_encoding R110 to R123. -/
def encode : Instr → Frame
  | .nop payload => .ctl (ctlWord 0x0#4 payload)
  | .setPitch payload => .ctl (ctlWord 0x1#4 payload)
  | .setGrainSize payload => .ctl (ctlWord 0x2#4 payload)
  | .reset payload => .ctl (ctlWord 0x3#4 payload)
  | .ctlReserved47 op payload => .ctl (ctlWord (0b01#2 ++ op) payload)
  | .ctlReserved8F op payload => .ctl (ctlWord (0b1#1 ++ op) payload)
  | .clear b z cap off => .buf b (bufWord 0b000#3 z cap off) []
  | .write b z off din => .buf b (bufWord 0b001#3 z (busCount din) off) din
  | .read b z n off => .buf b (bufWord 0b010#3 z n off) []
  | .peekWin b z off win => .buf b (bufWord 0b011#3 z (busCount win) off) win
  | .accum b z off din => .buf b (bufWord 0b100#3 z (busCount din) off) din
  | .advRd b z n off => .buf b (bufWord 0b101#3 z n off) []
  | .advWr b z n off => .buf b (bufWord 0b110#3 z n off) []
  | .bufReserved b z a off => .buf b (bufWord 0b111#3 z a off) []
  | .lookup l i => .rom (l ++ i)
  | .resample ratio x => .rsmp (BitVec.ofNat 13 x.length ++ ratio) x
  | .grainCycle => .grain
  | .processBlock inp => .aud inp
  | .statusRead addr => .sts addr

/-- The BUF word's side bus, all zeros, at the length its operation asks for (30_encoding R116). -/
def zeroBus (w : BitVec 36) : List Word :=
  match (w.extractLsb' 33 3).toNat with
  | 1 | 3 | 4 => List.replicate (w.extractLsb' 16 16).toNat Word.silence
  | _ => []

/-- The frame that opcode_table.json's word stands for. The table's word does not name its port, so the port is taken from the
width (30_encoding R110): no bits is AUD, up to 8 STS, up to 32 ROM, up to 40 a 36-bit CTL or BUF word, up to 48 RSMP. A 36-bit
word is read as CTL where its OP is one of the four messages, and else, where CTL only reserves it, as a BUF word for IBUF
(DESIGN CHOICE: log 2). Side buses and blocks are zeros. -/
def tableFrame (p : Params) (nbits w : Nat) : Option Frame :=
  if nbits = 0 then
    some (.aud (List.replicate p.channels (List.replicate p.blockSize Word.silence)))
  else if nbits ≤ 8 then some (.sts (BitVec.ofNat 4 w))
  else if nbits ≤ 32 then some (.rom (BitVec.ofNat 30 w))
  else if nbits ≤ 40 then
    let word : BitVec 36 := BitVec.ofNat 36 w
    if (word.extractLsb' 32 4).toNat ≤ 3 then some (.ctl word)
    else some (.buf .ibuf word (zeroBus word))
  else if nbits ≤ 48 then
    let word : BitVec 45 := BitVec.ofNat 45 w
    some (.rsmp word (List.replicate (word.extractLsb' 32 13).toNat Word.silence))
  else none

/-- The instruction the decoder reads from an opcode-table word (see `tableFrame` for the port). -/
def decodeTableWord (nbits w : Nat) : Option Instr :=
  match tableFrame Params.default nbits w with
  | none => none
  | some f =>
    match decode f with
    | .ok i => some i
    | .error _ => none

end Sys2Proof
end

