-- ==== Sys2Proof/Machine/State.lean ====
section
/-! DEFINITION. The state of the machine: every register, cell and mailbox bit of 10_state, the parameters fixed at power-on, and
the model's own two fields (the pending transactions of the environment and the last response); then the state after power-on. -/

namespace Sys2Proof.Machine

/-- The sequencing state between transactions (10_state R31). -/
inductive Seq where
  /-- Transactions run; the state after power-on reset. -/
  | run
  /-- A fault was raised; only power-on reset leaves it (60_exceptions R313). -/
  | faulted
  deriving DecidableEq, Repr

/-- The cells of one buffer, keyed by sample index (20_memory R80): a list with rising indices in which no entry holds +0.0. An
unlisted cell reads +0.0, the power-on contents of 10_state R43 (log 4). -/
abbrev Memory := List (Nat × Word)

/-- One ring buffer (10_state R40, R41, R43). -/
structure Buf where
  /-- BUF.CAP, the logical capacity. -/
  cap : BitVec 16
  /-- BUF.RD, the read cursor. -/
  rd : BitVec 15
  /-- BUF.WR, the write cursor. -/
  wr : BitVec 15
  /-- BUF.CNT, the unread or unconsumed samples. -/
  cnt : BitVec 16
  /-- BUF.DATA, the storage. -/
  data : Memory
  deriving DecidableEq, Repr

/-- A buffer right after `CLEAR cap` (40 R140). -/
def Buf.cleared (cap : BitVec 16) : Buf :=
  { cap := cap, rd := 0#15, wr := 0#15, cnt := 0#16, data := [] }

/-- The whole state of one instance of the hardware (10_state R30 to R45, R51; 60_exceptions R318). -/
structure State where
  /-- The parameters fixed at power-on (00_scope R12 to R15, R20, R21). -/
  params : Params
  /-- SEQ (10_state R31). -/
  seq : Seq
  /-- FAULT, the code of the first fault since power-on (R45). -/
  fault : BitVec 4
  /-- GRAIN_SIZE (R32). -/
  grainSize : BitVec 13
  /-- HOP_SIZE (R33). -/
  hopSize : BitVec 11
  /-- PITCH_RATIO (R36). -/
  pitchRatio : Word
  /-- PRIMED (R37). -/
  primed : Bool
  /-- SYNTH_LEN (R39). -/
  synthLen : BitVec 15
  /-- IBUF (R40, R43). -/
  ibuf : Buf
  /-- OBUF (R41, R43). -/
  obuf : Buf
  /-- PEND_PITCH_V (R44). -/
  pendPitchV : Bool
  /-- PEND_RATIO (R44). -/
  pendRatio : Word
  /-- PEND_GS_V (R44). -/
  pendGsV : Bool
  /-- PEND_GS (R44). -/
  pendGs : BitVec 13
  /-- PEND_RST (R44). -/
  pendRst : Bool
  /-- The model's own: the response of the last transaction (log 5). -/
  resp : Response
  /-- The model's own: the events the environment has placed, in its order (20_memory R89, 44 R275; log 1). -/
  inbox : List Event
  deriving DecidableEq, Repr

/-- The reasons a step stops. The codes of 60_exceptions R310 are NOT here: raising one is a next state. -/
inductive Fault where
  /-- PROCESS_BLOCK while SEQ is FAULTED: the spec's `stuck`, no response and no next state (44 R261, 60 R313, 93 section 3).
  Raised by `execProcessBlock`. Safe: nothing can be proved of what hardware returns there (log 6). -/
  | blockWhileFaulted
  deriving DecidableEq, Repr

/-- The inputs the model refuses. -/
inductive Refusal where
  /-- An instruction without a meaning. No arm of `exec` gives it: every instruction is modelled. Safe. -/
  | notModelled (mnemonic : String)
  /-- A frame whose side bus does not carry the number of samples its word asks for (30_encoding R116, R120). Raised by `step`.
  Safe: no format carries such a request (log 12). -/
  | malformedFrame (e : DecodeError)
  /-- An AUD block of another shape than C channels of N samples (70_reset R346, 93 section 2 "refuse"). Raised by
  `execProcessBlock`. Safe. -/
  | blockShape
  /-- A power-on under parameters outside their sets (93 section 1: "refused at model construction"). Raised by `step`. Safe. -/
  | illegalParameters
  deriving DecidableEq, Repr

/-- The state after power-on reset under the parameters `p` (10_state R51, 70_reset R340), with no event pending. -/
def State.powerOn (p : Params) : State :=
  let cap : BitVec 16 := BitVec.ofNat 16 (8 * p.initGrainSize.toNat)
  { params := p
    seq := .run
    fault := 0#4
    grainSize := p.initGrainSize
    hopSize := BitVec.ofNat 11 (p.initGrainSize.toNat / 4)
    pitchRatio := Word.one
    primed := false
    synthLen := p.initGrainSize.setWidth 15
    ibuf := Buf.cleared cap
    obuf := Buf.cleared cap
    pendPitchV := false
    pendRatio := 0#32
    pendGsV := false
    pendGs := 0#13
    pendRst := false
    resp := .none
    inbox := [] }

/-- The machine right after reset, under the default parameters. -/
def State.reset : State := State.powerOn Params.default

end Sys2Proof.Machine
end

