-- ==== Sys2Proof/Machine/Float.lean ====
section
/-! DEFINITION. Binary32 arithmetic (00_scope R20, R23, R24). A finite value is the exact integer multiple of 2^-149 it encodes;
an operation computes exactly on integers and is rounded once, to nearest, ties to even. Subnormals are kept. -/

namespace Sys2Proof.Machine

/-- The sign bit, bit 31 (00_scope R23). -/
def F32.sign (w : Word) : Bool := decide (2 ^ 31 ≤ w.toNat)

/-- The biased exponent, bits 30:23. -/
def F32.expField (w : Word) : Nat := w.toNat / 2 ^ 23 % 2 ^ 8

/-- The fraction, bits 22:0. -/
def F32.fracField (w : Word) : Nat := w.toNat % 2 ^ 23

/-- The word encodes a NaN. -/
def F32.isNaN (w : Word) : Bool := F32.expField w == 255 && F32.fracField w != 0

/-- The word encodes plus or minus infinity. -/
def F32.isInf (w : Word) : Bool := F32.expField w == 255 && F32.fracField w == 0

/-- The word encodes a finite value. -/
def F32.isFinite (w : Word) : Bool := F32.expField w != 255

/-- |f32(w)| * 2^149 for a finite w: every finite binary32 value is a multiple of 2^-149. -/
def F32.mag (w : Word) : Nat :=
  if F32.expField w = 0 then F32.fracField w
  else (F32.fracField w + 2 ^ 23) * 2 ^ (F32.expField w - 1)

/-- f32(w) * 2^149 for a finite w, as an exact integer. -/
def F32.scaled (w : Word) : Int :=
  if F32.sign w then -(F32.mag w : Int) else (F32.mag w : Int)

/-- The word encodes plus or minus zero. -/
def F32.isZero (w : Word) : Bool := F32.isFinite w && F32.mag w == 0

/-- The word with the sign given and the other 31 bits `m`. -/
def F32.pack (neg : Bool) (m : Nat) : Word := BitVec.ofNat 32 (if neg then m + 2 ^ 31 else m)

/-- The word with its sign flipped. -/
def F32.neg (w : Word) : Word := w ^^^ 0x80000000#32

/-- n / 2^sh rounded to the nearest integer, ties to even. -/
def F32.roundShift (n sh : Nat) : Nat :=
  let q := n / 2 ^ sh
  let r := n % 2 ^ sh
  if 2 ^ sh < 2 * r ∨ (2 * r = 2 ^ sh ∧ q % 2 = 1) then q + 1 else q

/-- RNE32 of n / 2^k (00_scope R24), as the 31 bits below the sign; past the largest finite value it is infinity. The unit in the
last place is 2^(u - 149), where u = max(0, log2 n - k + 126). -/
def F32.roundMag (n k : Nat) : Nat :=
  if n = 0 then 0
  else
    let u := Nat.log2 n + 126 - k
    let m := u * 2 ^ 23 + F32.roundShift (n * 2 ^ 149) (k + u)
    if m < 0x7F800000 then m else 0x7F800000

/-- The quiet NaN an operation gives on two words: its sign and payload are NAN_PAYLOAD (92 D30). -/
def F32.nan (op : FpOp) (a b : Word) : Word :=
  let free := Config.nanPayload op a b
  BitVec.ofNat 32 (free.toNat / 2 ^ 22 * 2 ^ 31 + 0x7FC00000 + free.toNat % 2 ^ 22)

/-- The binary32 sum of two words, `nan` being the NaN it gives where it is invalid or an operand is a NaN. Infinities and the
sign of a zero sum are IEEE 754's (PRESUMED from the standard, as 93 section 4 says: log 13). -/
def F32.sum (nan a b : Word) : Word :=
  if F32.isNaN a || F32.isNaN b then nan
  else if F32.isInf a then (if F32.isInf b && (F32.sign a != F32.sign b) then nan else a)
  else if F32.isInf b then b
  else
    let v := F32.scaled a + F32.scaled b
    if v = 0 then F32.pack (F32.sign a && F32.sign b) 0
    else F32.pack (decide (v < 0)) (F32.roundMag v.natAbs 149)

/-- `fadd` (00_scope R24). -/
def fadd (a b : Word) : Word := F32.sum (F32.nan .add a b) a b

/-- `fsub` (00_scope R24): a - b is a + (-b). -/
def fsub (a b : Word) : Word := F32.sum (F32.nan .sub a b) a (F32.neg b)

/-- `fmul` (00_scope R24). -/
def fmul (a b : Word) : Word :=
  if F32.isNaN a || F32.isNaN b then F32.nan .mul a b
  else
    let neg := F32.sign a != F32.sign b
    if F32.isInf a || F32.isInf b then
      (if F32.isZero a || F32.isZero b then F32.nan .mul a b else F32.pack neg 0x7F800000)
    else F32.pack neg (F32.roundMag (F32.mag a * F32.mag b) 298)

/-- bits(RNE32(n)) of a natural number. -/
def F32.ofNat (n : Nat) : Word := F32.pack false (F32.roundMag n 0)

/-- floor(f32(w)) of a finite non-negative w. -/
def F32.floorNat (w : Word) : Nat := F32.mag w / 2 ^ 149

/-- lo ≤ f32(w) ≤ hi for integers lo and hi; false for a NaN or an infinity. -/
def F32.within (w : Word) (lo hi : Int) : Bool :=
  F32.isFinite w && decide (lo * 2 ^ 149 ≤ F32.scaled w) && decide (F32.scaled w ≤ hi * 2 ^ 149)

end Sys2Proof.Machine
end

