-- ==== Sys2Proof/Machine/Ops.lean ====
section
/-! DEFINITION. The named operations over state: cells, the two buffers, raising a fault (60_exceptions R311) and returning from
one by power-on (70_reset R340), and the seven ring-buffer operations of 40_circular_sample_buffer as functions of one buffer. -/

namespace Sys2Proof.Machine

/-! ### Cells (20_memory R80, R88) -/

/-- What a cell no entry lists holds: +0.0 (10_state R43). -/
def Memory.unlisted : Word := Word.silence

/-- The sample in cell k. -/
def Memory.read : Memory → Nat → Word
  | [], _ => Memory.unlisted
  | (i, v) :: rest, k => if i = k then v else Memory.read rest k

/-- The entry of a cell in canonical form: none where the value is what an unlisted cell reads. -/
def Memory.entry (k : Nat) (v : Word) : Memory :=
  if v = Memory.unlisted then [] else [(k, v)]

/-- The cells with sample v in cell k. -/
def Memory.write : Memory → Nat → Word → Memory
  | [], k, v => Memory.entry k v
  | (i, u) :: rest, k, v =>
    if i < k then (i, u) :: Memory.write rest k v
    else if i = k then Memory.entry k v ++ rest
    else Memory.entry k v ++ (i, u) :: rest

/-- The canonical form from index `lo` on: indices rising from lo and below DEPTH_MAX, no entry holding +0.0. -/
def Memory.wfFrom : Nat → Memory → Bool
  | _, [] => true
  | lo, (i, v) :: rest =>
    decide (lo ≤ i) && decide (i < Config.depthMax) && (v != Memory.unlisted) && Memory.wfFrom (i + 1) rest

/-- The canonical form of the cells of a buffer: equal contents are equal lists. -/
def Memory.wf (m : Memory) : Bool := Memory.wfFrom 0 m

/-! ### Faults (60_exceptions R310, R311) -/

/-- The fault codes (60_exceptions R310). -/
inductive FaultCode where
  | bufOverflow
  | bufUnderrun
  | bufIllegal
  | romRange
  | resampleDomain
  deriving DecidableEq, Repr

/-- The number FAULT holds for a code (60_exceptions R310). -/
def FaultCode.bits : FaultCode → BitVec 4
  | .bufOverflow => 1#4
  | .bufUnderrun => 2#4
  | .bufIllegal => 3#4
  | .romRange => 4#4
  | .resampleDomain => 5#4

/-- `raise Fault(code)`: FAULT keeps its first code, SEQ becomes FAULTED, and the transaction returns no response
(60_exceptions R311). Everything else keeps what the completed steps left. -/
def State.raise (s : State) (c : FaultCode) : State :=
  { s with fault := if s.fault = 0#4 then c.bits else s.fault, seq := .faulted, resp := .none }

/-- The only return from FAULTED, and the start of every run: power-on reset under the parameters p (70_reset R340). It resets every
piece of state; the events the environment has placed after it remain pending (log 1). -/
def State.powerOnReset (s : State) (p : Params) : State :=
  { State.powerOn p with inbox := s.inbox }

/-- A step of a composite transaction: what an elementary operation returns, or the faulted state it leaves s in. -/
def State.orRaise {α : Type} (s : State) : Except FaultCode α → Except State α
  | .ok a => .ok a
  | .error c => .error (s.raise c)

/-! ### The two buffers -/

/-- The buffer instance named. -/
def State.buf (s : State) : BufId → Buf
  | .ibuf => s.ibuf
  | .obuf => s.obuf

/-- The state with the buffer instance named replaced. -/
def State.setBuf (s : State) : BufId → Buf → State
  | .ibuf, b => { s with ibuf := b }
  | .obuf, b => { s with obuf := b }

/-- `MemRead(BUF, k)` (00_scope R25). -/
def Buf.memRead (b : Buf) (k : Nat) : Word := Memory.read b.data (k % b.cap.toNat)

/-- `MemWrite(BUF, k, v)` (00_scope R25). -/
def Buf.memWrite (b : Buf) (k : Nat) (v : Word) : Buf :=
  { b with data := Memory.write b.data (k % b.cap.toNat) v }

/-- A cursor moved on by n cells (20_memory R81). -/
def Buf.advance (b : Buf) (cursor : BitVec 15) (n : Nat) : BitVec 15 :=
  BitVec.ofNat 15 ((cursor.toNat + n) % b.cap.toNat)

/-- The samples at cell numbers k, k+1, ..., k+n-1 (00_scope R25, R27). -/
def Buf.readCells (b : Buf) : Nat → Nat → List Word
  | _, 0 => []
  | k, n + 1 => b.memRead k :: Buf.readCells b (k + 1) n

/-- The loop of READ (40 R142): the samples at cell numbers k, ..., k+n-1, each cell zeroed after it is read when z is set. -/
def Buf.takeCells (z : Bool) (b : Buf) (k : Nat) : Nat → Buf × List Word
  | 0 => (b, [])
  | n + 1 =>
    let v := b.memRead k
    let rest := Buf.takeCells z (if z then b.memWrite k Word.silence else b) (k + 1) n
    (rest.1, v :: rest.2)

/-- The samples stored one after another from cell number k on. -/
def Buf.writeCells (b : Buf) (k : Nat) : List Word → Buf
  | [] => b
  | v :: rest => Buf.writeCells (b.memWrite k v) (k + 1) rest

/-- The samples added one after another into the cells from number k on, old value first, by the adder `add`. -/
def Buf.accumCells (add : Word → Word → Word) (b : Buf) (k : Nat) : List Word → Buf
  | [] => b
  | v :: rest => Buf.accumCells add (b.memWrite k (add (b.memRead k) v)) (k + 1) rest

/-! ### NUMERICS (00_scope R20, 93 section 1) -/

/-- A sample times a window coefficient, as PEEK_WIN returns it (40 R143). -/
def windowProduct (p : Params) (x w : Word) : Word :=
  match p.numerics with
  | .standard => fmul x w
  | .custom => Config.customWindowed x w

/-- A cell's old value plus a sample, as ACCUM stores it (40 R144). -/
def accumulate (p : Params) (old v : Word) : Word :=
  match p.numerics with
  | .standard => fadd old v
  | .custom => Config.customAccumulated old v

/-- s = fmul(y, fmul(coefficient, NORM_GAIN)) (43 R234). -/
def synthesize (p : Params) (y coeff gain : Word) : Word :=
  match p.numerics with
  | .standard => fmul y (fmul coeff gain)
  | .custom => Config.customSynthesis y coeff gain

/-! ### The ring-buffer operations (40 R140 to R146). Each makes its check before it changes anything (00_scope R26). -/

/-- CLEAR (40 R140). -/
def Buf.clear (cap : BitVec 16) : Except FaultCode Buf :=
  if cap.toNat = 0 ∨ Config.depthMax < cap.toNat then .error .bufIllegal else .ok (Buf.cleared cap)

/-- ADV_WR (40 R146), and the cursor part of WRITE. -/
def Buf.advWr (b : Buf) (n : Nat) : Except FaultCode Buf :=
  if b.cap.toNat < b.cnt.toNat + n then .error .bufOverflow
  else .ok { b with wr := b.advance b.wr n, cnt := BitVec.ofNat 16 (b.cnt.toNat + n) }

/-- ADV_RD (40 R145), and the cursor part of READ. -/
def Buf.advRd (b : Buf) (n : Nat) : Except FaultCode Buf :=
  if b.cnt.toNat < n then .error .bufUnderrun
  else .ok { b with rd := b.advance b.rd n, cnt := BitVec.ofNat 16 (b.cnt.toNat - n) }

/-- WRITE (40 R141). -/
def Buf.write (b : Buf) (v : List Word) : Except FaultCode Buf :=
  if b.cap.toNat < b.cnt.toNat + v.length then .error .bufOverflow
  else (b.writeCells b.wr.toNat v).advWr v.length

/-- READ (40 R142): the buffer after and the samples; with the zero flag each cell becomes +0.0 once it is read. -/
def Buf.read (b : Buf) (n : Nat) (z : Bool) : Except FaultCode (Buf × List Word) :=
  if b.cnt.toNat < n then .error .bufUnderrun
  else
    let (b', r) := b.takeCells z b.rd.toNat n
    match b'.advRd n with
    | .ok b'' => .ok (b'', r)
    | .error c => .error c

/-- PEEK_WIN (40 R143): a span from `off` past the read cursor times the window, changing nothing. -/
def Buf.peekWin (p : Params) (b : Buf) (off : Nat) (win : List Word) : Except FaultCode (List Word) :=
  if b.cnt.toNat < off + win.length then .error .bufUnderrun
  else .ok (List.zipWith (windowProduct p) (b.readCells (b.rd.toNat + off) win.length) win)

/-- ACCUM (40 R144): samples added from `off` past the write cursor on, no cursor moving. -/
def Buf.accum (p : Params) (b : Buf) (off : Nat) (v : List Word) : Except FaultCode Buf :=
  if b.cap.toNat < b.cnt.toNat + off + v.length then .error .bufOverflow
  else .ok (Buf.accumCells (accumulate p) b (b.wr.toNat + off) v)

end Sys2Proof.Machine
end

