-- ==== Sys2Proof/Machine/Operands.lean ====
section
/-! DEFINITION. Operand forms and results: how a CTL payload is read (30_encoding R112), the hardwired registers a transaction reads
(10_state R34, R35), the operands of a grain cycle (43 R230), and how a BUF operation's result reaches the state. -/

namespace Sys2Proof.Machine

/-- OVERLAP, hardwired to 4 (10_state R34). -/
def State.overlap (_s : State) : Nat := 4

/-- NORM_GAIN, hardwired to 0.5 (10_state R35, 00_scope R10). -/
def State.normGain (_s : State) : Word := Word.half

/-- SEMI_MIN (00_scope R17). -/
def semiMin : Int := -24

/-- SEMI_MAX (00_scope R17). -/
def semiMax : Int := 24

/-- The payload of SET_PITCH is legal: a finite binary32 from SEMI_MIN to SEMI_MAX (00_scope R17, 44 R269). -/
def legalSemitones (payload : Word) : Bool := F32.within payload semiMin semiMax

/-- The payload of SET_GRAIN_SIZE is legal, read as an unsigned 32-bit integer (30_encoding R112, 44 R270). -/
def legalSizePayload (payload : Word) : Bool := legalGrainSize payload.toNat

/-- MAX_GRAINS = floor(N / H) + 1 (00_scope R19). -/
def State.maxGrains (s : State) : Nat := s.params.blockSize / s.hopSize.toNat + 1

/-- The cell number that element j of a write-side access at offset `off` touches (20_memory R81). -/
def Buf.writeIndex (b : Buf) (off j : Nat) : Nat := (b.wr.toNat + off + j) % b.cap.toNat

/-- The cell number that element j of a read-side access at offset `off` touches (20_memory R81). -/
def Buf.readIndex (b : Buf) (off j : Nat) : Nat := (b.rd.toNat + off + j) % b.cap.toNat

/-- The outcome of a BUF operation without dout: the buffer it leaves, or the fault it raises. -/
def State.finishBuf (s : State) (b : BufId) : Except FaultCode Buf → Host.Outcome State Fault Refusal
  | .ok b' => .next (s.setBuf b b')
  | .error c => .next (s.raise c)

end Sys2Proof.Machine
end

