-- ==== Sys2Proof/Machine/Buffer.lean ====
section
/-! DEFINITION. The BUF family (40_circular_sample_buffer): one meaning for each operation of the port, over the shared ring-buffer
operations of Ops. An ignored field is a parameter no body reads (30_encoding R116). -/

namespace Sys2Proof.Machine

/-- CLEAR (40 R140). -/
def execClear (b : BufId) (_z : Bool) (cap _off : BitVec 16) (s : State) : Host.Outcome State Fault Refusal :=
  s.finishBuf b (Buf.clear cap)

/-- WRITE (40 R141). -/
def execWrite (b : BufId) (_z : Bool) (_off : BitVec 16) (din : List Word) (s : State) :
    Host.Outcome State Fault Refusal :=
  s.finishBuf b ((s.buf b).write din)

/-- READ (40 R142): its samples are the response. -/
def execRead (b : BufId) (z : Bool) (n _off : BitVec 16) (s : State) : Host.Outcome State Fault Refusal :=
  match (s.buf b).read n.toNat z with
  | .ok (b', r) => .next { s.setBuf b b' with resp := .samples r }
  | .error c => .next (s.raise c)

/-- PEEK_WIN (40 R143): its products are the response. -/
def execPeekWin (b : BufId) (_z : Bool) (off : BitVec 16) (win : List Word) (s : State) :
    Host.Outcome State Fault Refusal :=
  match (s.buf b).peekWin s.params off.toNat win with
  | .ok r => .next { s with resp := .samples r }
  | .error c => .next (s.raise c)

/-- ACCUM (40 R144). -/
def execAccum (b : BufId) (_z : Bool) (off : BitVec 16) (din : List Word) (s : State) :
    Host.Outcome State Fault Refusal :=
  s.finishBuf b ((s.buf b).accum s.params off.toNat din)

/-- ADV_RD (40 R145). -/
def execAdvRd (b : BufId) (_z : Bool) (n _off : BitVec 16) (s : State) : Host.Outcome State Fault Refusal :=
  s.finishBuf b ((s.buf b).advRd n.toNat)

/-- ADV_WR (40 R146). -/
def execAdvWr (b : BufId) (_z : Bool) (n _off : BitVec 16) (s : State) : Host.Outcome State Fault Refusal :=
  s.finishBuf b ((s.buf b).advWr n.toNat)

/-- The reserved BUF operation, OP 111: it raises BUF_ILLEGAL (40 R147; the spec also allows a refusal: log 7). -/
def execBufReserved (_b : BufId) (_z : Bool) (_a _off : BitVec 16) (s : State) :
    Host.Outcome State Fault Refusal :=
  .next (s.raise .bufIllegal)

end Sys2Proof.Machine
end

