-- ==== Sys2Proof/Machine/Flags.lean ====
section
/-! DEFINITION. The flags (10_state R48): PRIMED's check, the derived BYPASS, PENDING, and the STATUS word that shows them (R47). -/

namespace Sys2Proof.Machine

/-- BYPASS of a ratio word: |f32(w) - 1| < 0.001, compared exactly (10_state R38, 00_scope R16). A word that is no finite value, which
PITCH_RATIO never holds, is not within the tolerance (DESIGN CHOICE: log 4). -/
def bypassRatio (w : Word) : Bool :=
  F32.isFinite w && decide ((F32.scaled w - 2 ^ 149).natAbs * 1000 < 2 ^ 149)

/-- BYPASS (10_state R38). -/
def State.bypass (s : State) : Bool := bypassRatio s.pitchRatio

/-- The priming check of a grain cycle (43 R237): PRIMED can only be set, once OBUF.CNT reaches G. -/
def State.primeCheck (s : State) : State :=
  { s with primed := s.primed || decide (s.grainSize.toNat ≤ s.obuf.cnt.toNat) }

/-- PENDING, bit 8 of STATUS (10_state R47). -/
def State.pending (s : State) : Bool := s.pendPitchV || s.pendGsV || s.pendRst

/-- GS_CODE = log2(G) - 9 (10_state R47); of a size no rule allows, cut to two bits (DESIGN CHOICE: log 4). -/
def gsCode (g : BitVec 13) : BitVec 2 := BitVec.ofNat 2 (Nat.log2 g.toNat - 9)

/-- The STATUS word (10_state R47): bits 31:9 zero, PENDING, FAULT, GS_CODE, BYPASS, PRIMED. -/
def State.statusWord (s : State) : Word :=
  0#23 ++ BitVec.ofBool s.pending ++ s.fault ++ gsCode s.grainSize ++ BitVec.ofBool s.bypass ++
    BitVec.ofBool s.primed

end Sys2Proof.Machine
end

