-- ==== Sys2Proof/Machine/Control.lean ====
section
/-! DEFINITION. The CTL family (44_pitch_shift_top section 2): the pitch function PITCH_EXP2, and the acceptance of each message,
which changes the mailbox alone (R267). -/

namespace Sys2Proof.Machine

/-- floor(ln 2 * 2^128). -/
def fixLn2 : Nat := 235865763225513294137944142764154484399

/-- The Taylor series of e^x from term n on, in fixed point with 128 fraction bits: 1 + x/n * (1 + x/(n+1) * ...). -/
def expSeries (x : Nat) : Nat → Nat → Nat
  | 0, _ => 2 ^ 128
  | terms + 1, n => 2 ^ 128 + x * expSeries x terms (n + 1) / (2 ^ 128 * n)

/-- The default PITCH_EXP2 (00_scope R21): 2^(s/12), computed with 128 fraction bits and rounded once. s/12 is split into its floor and
a fraction f/unit, and 2^(f/unit) = e^(ln2 * f/unit) lies in [1, 2]. DEDUCED: the fixed-point error (below 2^-118) leaves the rounding
the correct one (log 10). -/
def pitchExp2Standard (s : Word) : Word :=
  let unit : Int := 12 * 2 ^ 149
  let whole : Int := F32.scaled s / unit
  let f : Nat := (F32.scaled s % unit).toNat
  let e := min (expSeries (f * fixLn2 / unit.toNat) 48 1) (2 ^ 129)
  F32.pack false (F32.roundMag e (128 - whole).toNat)

/-- A ratio of another PITCH_EXP2, held to its constraint: a value in [0.25, 4] (92 OPEN parameters). -/
def pitchExp2Custom (s : Word) : Word :=
  let w := Config.customExp2 s
  if w.toNat < 0x3E800000 then 0x3E800000#32 else if 0x40800000 < w.toNat then 0x40800000#32 else w

/-- PITCH_EXP2(s) for a legal s (00_scope R21). -/
def pitchExp2 (p : Params) (s : Word) : Word :=
  match p.pitchExp2 with
  | .standard => pitchExp2Standard s
  | .custom => pitchExp2Custom s

/-- NOP (44 R268). -/
def execNop (_payload : Word) (s : State) : Host.Outcome State Fault Refusal :=
  .next s

/-- CTL OP 0x4 to 0x7, accepted and ignored (44 R268, 30_encoding R114). -/
def execCtlReserved47 (_op : BitVec 2) (_payload : Word) (s : State) : Host.Outcome State Fault Refusal :=
  .next s

/-- CTL OP 0x8 to 0xF, accepted and ignored (44 R268, 30_encoding R114). -/
def execCtlReserved8F (_op : BitVec 3) (_payload : Word) (s : State) : Host.Outcome State Fault Refusal :=
  .next s

/-- SET_PITCH at acceptance (44 R269): a legal value is posted, any other changes nothing. -/
def execSetPitch (payload : Word) (s : State) : Host.Outcome State Fault Refusal :=
  if legalSemitones payload then
    .next { s with pendPitchV := true, pendRatio := pitchExp2 s.params payload }
  else .next s

/-- SET_GRAIN_SIZE at acceptance (44 R270): a legal size is posted, any other changes nothing. -/
def execSetGrainSize (payload : Word) (s : State) : Host.Outcome State Fault Refusal :=
  if legalSizePayload payload then
    .next { s with pendGsV := true, pendGs := payload.setWidth 13 }
  else .next s

/-- RESET at acceptance (44 R271). -/
def execReset (_payload : Word) (s : State) : Host.Outcome State Fault Refusal :=
  .next { s with pendRst := true }

end Sys2Proof.Machine
end

