-- ==== Sys2Proof/Machine/Hann.lean ====
section
/-! DEFINITION. The ROM family (41_hann_window_rom): the coefficient function HANN_ROM(L, i) and LOOKUP. -/

namespace Sys2Proof.Machine

/-- 1.0 in fixed point with 128 fraction bits. -/
def fixOne : Nat := 2 ^ 128

/-- floor(pi * 2^128). -/
def fixPi : Nat := 1069028584064966747859680373161870783300

/-- The Taylor series of sin(x)/x in y = x^2, `terms` terms from factor n on, in fixed point:
1 - y/((2n)(2n+1)) * (1 - y/((2n+2)(2n+3)) * ...). -/
def sincSeries (y : Nat) : Nat → Nat → Nat
  | 0, _ => fixOne
  | terms + 1, n => fixOne - y * sincSeries y terms (n + 1) / (fixOne * ((2 * n) * (2 * n + 1)))

/-- sin(x) in fixed point, for 0 <= x <= pi/2; never above 1. -/
def fixSin (x : Nat) : Nat :=
  min (x * sincSeries (x * x / fixOne) 24 1 / fixOne) fixOne

/-- The default HANN_ROM (00_scope R21, 41 R180): 0.5(1 - cos(2 pi i/(L-1))) = sin^2(pi j/(L-1)) at j = min(i, L-1-i), which is exact
by symmetry, computed with 128 fraction bits and rounded once. DEDUCED: the fixed-point error (below 2^-120) leaves the rounding
the correct one, since no coefficient of a legal length lies that near a rounding boundary (log 10). -/
def hannStandard (l i : Nat) : Word :=
  let j := min i (l - 1 - i)
  let s := fixSin (fixPi * j / (l - 1))
  F32.pack false (F32.roundMag (s * s) 256)

/-- A coefficient of another ROM, held to its constraint: a value in [0, 1] (93 section 1). -/
def hannCustom (l i : Nat) : Word :=
  let w := Config.customHann l i
  if w.toNat ≤ Word.one.toNat ∨ w = 0x80000000#32 then w else Word.one

/-- HANN_ROM(L, i) for a legal address (00_scope R21): 1.0 at length 1 (41 R181), without a division. -/
def hannRom (p : Params) (l i : Nat) : Word :=
  if l = 1 then Word.one
  else
    match p.hannRom with
    | .standard => hannStandard l i
    | .custom => hannCustom l i

/-- LOOKUP(L, I) (41 R180, R182). -/
def romLookup (p : Params) (l i : Nat) : Except FaultCode Word :=
  if l < 1 ∨ Config.lmax < l ∨ l ≤ i then .error .romRange else .ok (hannRom p l i)

/-- The LOOKUPs ROM(l, i), ROM(l, i+1), ... of n coefficients, in index order, stopping at the first that faults (60 R312). -/
def romSpan (p : Params) (l : Nat) : Nat → Nat → Except FaultCode (List Word)
  | _, 0 => .ok []
  | i, n + 1 =>
    match romLookup p l i with
    | .error c => .error c
    | .ok w =>
      match romSpan p l (i + 1) n with
      | .error c => .error c
      | .ok ws => .ok (w :: ws)

/-- The window vector of length l: ROM(l, 0), ..., ROM(l, l-1) (41 R184). -/
def romWindow (p : Params) (l : Nat) : Except FaultCode (List Word) := romSpan p l 0 l

/-- LOOKUP (41 R180): its coefficient is the response. -/
def execLookup (l i : BitVec 15) (s : State) : Host.Outcome State Fault Refusal :=
  match romLookup s.params l.toNat i.toNat with
  | .ok w => .next { s with resp := .coefficient w }
  | .error c => .next (s.raise c)

end Sys2Proof.Machine
end

