-- ==== Sys2Proof/Machine/Resampler.lean ====
section
/-! DEFINITION. The RSMP family (42_cubic_resampler): clamped Catmull-Rom resampling of one grain. -/

namespace Sys2Proof.Machine

/-- OUTLEN = floor(n / f32(r)), the exact quotient, for a finite positive r (42 R201). -/
def outLen (n : Nat) (r : Word) : Nat := n * 2 ^ 149 / F32.mag r

/-- `check_domain(n, r)` passes (42 R205). -/
def resampleDomain (n : Nat) (r : Word) : Bool :=
  decide (n ≠ 0) && decide (n ≤ 4096) && F32.isFinite r && !F32.sign r && decide (F32.mag r ≠ 0) &&
    decide (outLen n r ≤ Config.lmax)

/-- x[clamp(srcIndex + d - 1, 0, n-1)]: the neighbour at distance d - 1, for d = 0, 1, 2, 3 (42 R203). -/
def neighbour (x : List Word) (srcIndex d : Nat) : Word :=
  x.getD (min (srcIndex + d - 1) (x.length - 1)) Word.silence

/-- The Catmull-Rom value at t between y1 and y2, each operation rounded, in written order (42 R200, R204). -/
def catmullRom (y0 y1 y2 y3 t : Word) : Word :=
  let a := fadd (fsub (fadd (fmul 0xBF000000#32 y0) (fmul 0x3FC00000#32 y1)) (fmul 0x3FC00000#32 y2))
    (fmul 0x3F000000#32 y3)
  let b := fsub (fadd (fsub y0 (fmul 0x40200000#32 y1)) (fmul 0x40000000#32 y2)) (fmul 0x3F000000#32 y3)
  let c := fadd (fmul 0xBF000000#32 y0) (fmul 0x3F000000#32 y2)
  let t2 := fmul t t
  let t3 := fmul t2 t
  fadd (fadd (fadd (fmul a t3) (fmul b t2)) (fmul c t)) y1

/-- Output sample i of the grain x at ratio r under the default NUMERICS (42 R200, R202). -/
def resampledStandard (x : List Word) (r : Word) (i : Nat) : Word :=
  let srcPos := fmul (F32.ofNat i) r
  let srcIndex := F32.floorNat srcPos
  let t := fsub srcPos (F32.ofNat srcIndex)
  catmullRom (neighbour x srcIndex 0) (neighbour x srcIndex 1) (neighbour x srcIndex 2) (neighbour x srcIndex 3) t

/-- Output sample i under the NUMERICS of the parameters (00_scope R20, 93 section 1). -/
def resampledSample (p : Params) (x : List Word) (r : Word) (i : Nat) : Word :=
  match p.numerics with
  | .standard => resampledStandard x r i
  | .custom => Config.customResampled x r i

/-- RESAMPLE of the grain x at the ratio r: the OUTLEN output samples, or RESAMPLE_DOMAIN (42 R200, R205). -/
def resampleGrain (p : Params) (x : List Word) (r : Word) : Except FaultCode (List Word) :=
  if resampleDomain x.length r then .ok ((List.range (outLen x.length r)).map (resampledSample p x r))
  else .error .resampleDomain

/-- RESAMPLE (42 R200): OUTLEN and the samples are the response. -/
def execResample (ratio : Word) (x : List Word) (s : State) : Host.Outcome State Fault Refusal :=
  match resampleGrain s.params x ratio with
  | .ok y => .next { s with resp := .resampled (BitVec.ofNat 15 y.length) y }
  | .error c => .next (s.raise c)

end Sys2Proof.Machine
end

