-- ==== Sys2Proof/Machine/Grain.lean ====
section
/-! DEFINITION. The GRAIN family (43_grain_processor_pipeline): one analysis and synthesis cycle. A composite that faults keeps the
effects of the steps it completed (60_exceptions R311): its result is then the faulted state. Its working vectors are local (log 14). -/

namespace Sys2Proof.Machine

/-- Step 1, Extract (43 R231): PEEK_WIN(0, G) of IBUF with the analysis window, whose LOOKUPs come first (60 R312). -/
def State.grainExtract (s : State) : Except State (List Word) :=
  match s.orRaise (romWindow s.params s.grainSize.toNat) with
  | .error t => .error t
  | .ok winA => s.orRaise (s.ibuf.peekWin s.params 0 winA)

/-- Step 2, Advance read (43 R232). -/
def State.grainAdvanceRead (s : State) : Except State State :=
  match s.orRaise (s.ibuf.advRd s.hopSize.toNat) with
  | .error t => .error t
  | .ok b => .ok { s with ibuf := b }

/-- Step 3, Resample, and the synthesis-window cache SYNTH_LEN (43 R233). -/
def State.grainResample (s : State) (g : List Word) : Except State (State × List Word) :=
  match s.orRaise (resampleGrain s.params g s.pitchRatio) with
  | .error t => .error t
  | .ok y => .ok ({ s with synthLen := BitVec.ofNat 15 y.length }, y)

/-- Step 4, Synthesis window and gain (43 R234). -/
def State.grainSynthesis (s : State) (y : List Word) : Except State (List Word) :=
  match s.orRaise (romWindow s.params y.length) with
  | .error t => .error t
  | .ok winS => .ok (List.zipWith (fun yi c => synthesize s.params yi c s.normGain) y winS)

/-- Step 5, Overlap-add into OBUF at the write cursor (43 R235). -/
def State.grainOverlapAdd (s : State) (sv : List Word) : Except State State :=
  match s.orRaise (s.obuf.accum s.params 0 sv) with
  | .error t => .error t
  | .ok b => .ok { s with obuf := b }

/-- Step 6, Advance write (43 R236): the hop, whatever the ratio. -/
def State.grainAdvanceWrite (s : State) : Except State State :=
  match s.orRaise (s.obuf.advWr s.hopSize.toNat) with
  | .error t => .error t
  | .ok b => .ok { s with obuf := b }

/-- GRAIN_CYCLE, the steps in order, ended by the priming check (43 R237, R238). -/
def State.grainCycle (s : State) : Except State State := do
  let g ← s.grainExtract
  let s ← s.grainAdvanceRead
  let (s, y) ← s.grainResample g
  let sv ← s.grainSynthesis y
  let s ← s.grainOverlapAdd sv
  let s ← s.grainAdvanceWrite
  return s.primeCheck

/-- GRAIN_CYCLE driven on its own port (43 R238, 30_encoding R121): the response signals completion. -/
def execGrainCycle (s : State) : Host.Outcome State Fault Refusal :=
  match s.grainCycle with
  | .ok t => .next { t with resp := .done }
  | .error t => .next t

end Sys2Proof.Machine
end

