-- ==== Sys2Proof/Machine/Top.lean ====
section
/-! DEFINITION. The AUD and STS families (44_pitch_shift_top): the mailbox's application, PROCESS_BLOCK and STATUS_READ. -/

namespace Sys2Proof.Machine

/-- CLEAR of both buffers, IBUF first, as the RESET and reconfigure actions issue it (44 R271, R272). -/
def State.clearBoth (s : State) (icap ocap : BitVec 16) : Except State State :=
  match s.orRaise (Buf.clear icap) with
  | .error t => .error t
  | .ok ib =>
    let s1 := { s with ibuf := ib }
    match s1.orRaise (Buf.clear ocap) with
    | .error t => .error t
    | .ok ob => .ok { s1 with obuf := ob }

/-- The RESET action (44 R271). -/
def State.resetAction (s : State) : Except State State :=
  match s.clearBoth s.ibuf.cap s.obuf.cap with
  | .error t => .error t
  | .ok t => .ok { t with primed := false }

/-- The reconfigure action (44 R272). -/
def State.reconfigure (s : State) (size : BitVec 13) : Except State State :=
  let cap : BitVec 16 := BitVec.ofNat 16 (8 * size.toNat)
  match { s with grainSize := size, hopSize := BitVec.ofNat 11 (size.toNat / 4) }.clearBoth cap cap with
  | .error t => .error t
  | .ok t => .ok { t with synthLen := size.setWidth 15, primed := false }

/-- The buffer part of the mailbox: a pending size reconfigures, else a pending RESET resets (44 R273). -/
def State.applySizing (s : State) : Except State State :=
  if s.pendGsV then s.reconfigure s.pendGs
  else if s.pendRst then s.resetAction
  else .ok s

/-- The rest of the mailbox: a pending ratio is taken, and the mailbox is emptied (44 R273). -/
def State.applyPitch (s : State) : State :=
  { s with
    pitchRatio := if s.pendPitchV then s.pendRatio else s.pitchRatio
    pendPitchV := false, pendGsV := false, pendRst := false }

/-- `apply_mailbox()` (44 R273). -/
def State.applyMailbox (s : State) : Except State State :=
  match s.applySizing with
  | .error t => .error t
  | .ok t => .ok t.applyPitch

/-- The grain loop with `fuel` cycles left before its cap (44 R261, R263, R266). -/
def State.grainLoop : Nat → State → Except State State
  | 0, s => .ok s
  | fuel + 1, s =>
    if s.grainSize.toNat ≤ s.ibuf.cnt.toNat then
      match s.grainCycle with
      | .error t => .error t
      | .ok t => State.grainLoop fuel t
    else .ok s

/-- The Active path's input side: WRITE of channel 0 to IBUF, then the grain loop (44 R263). -/
def State.activeInput (s : State) (ch0 : List Word) : Except State State :=
  match s.orRaise (s.ibuf.write ch0) with
  | .error t => .error t
  | .ok b => State.grainLoop s.maxGrains { s with ibuf := b }

/-- The Active path's output side: READ of OBUF with zeroing when PRIMED, else silence (44 R264). -/
def State.activeOutput (s : State) : Except State (State × List Word) :=
  if s.primed then
    match s.orRaise (s.obuf.read s.params.blockSize true) with
    | .error t => .error t
    | .ok (b, o) => .ok ({ s with obuf := b }, o)
  else .ok (s, List.replicate s.params.blockSize Word.silence)

/-- The body of PROCESS_BLOCK on channel 0, after its SEQ test (44 R261): the state and the channel-0 output. -/
def State.processBlock (s : State) (ch0 : List Word) : Except State (State × List Word) :=
  match s.applyMailbox with
  | .error t => .error t
  | .ok t =>
    if t.bypass then .ok (t, ch0)
    else
      match t.activeInput ch0 with
      | .error u => .error u
      | .ok u => u.activeOutput

/-- PROCESS_BLOCK (44 R261): every output channel is the channel-0 result (R265). While FAULTED the transaction is stuck (60 R313, log 6);
a block of another shape is refused (93 section 2). -/
def execProcessBlock (inp : List (List Word)) (s : State) : Host.Outcome State Fault Refusal :=
  if s.params.blockShape inp then
    if s.seq = .faulted then .fault .blockWhileFaulted
    else
      match s.processBlock (inp.headD []) with
      | .ok (t, o) => .next { t with resp := .block (List.replicate s.params.channels o) }
      | .error t => .next t
  else .refused .blockShape

/-- The status register map (10_state R46). -/
def State.statusMap (s : State) (addr : BitVec 4) : Word :=
  match addr.toNat with
  | 0x0 => s.statusWord
  | 0x1 => s.pitchRatio
  | 0x2 => s.grainSize.setWidth 32
  | 0x3 => s.hopSize.setWidth 32
  | 0x4 => s.ibuf.cnt.setWidth 32
  | 0x5 => s.obuf.cnt.setWidth 32
  | 0x6 => s.synthLen.setWidth 32
  | 0x7 => s.normGain
  | 0x8 => s.ibuf.rd.setWidth 32
  | 0x9 => s.ibuf.wr.setWidth 32
  | 0xA => s.obuf.rd.setWidth 32
  | 0xB => s.obuf.wr.setWidth 32
  | 0xC => s.ibuf.cap.setWidth 32
  | 0xD => s.obuf.cap.setWidth 32
  | _ => 0#32

/-- STATUS_READ (44 R276): no side effect but the response. -/
def execStatusRead (addr : BitVec 4) (s : State) : Host.Outcome State Fault Refusal :=
  .next { s with resp := .status (s.statusMap addr) }

end Sys2Proof.Machine
end

