-- ==== Sys2Proof/Machine/Dispatch.lean ====
section
/-! DEFINITION. The meaning of each instruction: one arm per constructor of Instr, one direct call each. -/

namespace Sys2Proof.Machine

def exec (i : Instr) (s : State) : Host.Outcome State Fault Refusal :=
  match i with
  | .nop payload => Sys2Proof.Machine.execNop payload s
  | .setPitch payload => Sys2Proof.Machine.execSetPitch payload s
  | .setGrainSize payload => Sys2Proof.Machine.execSetGrainSize payload s
  | .reset payload => Sys2Proof.Machine.execReset payload s
  | .ctlReserved47 op payload => Sys2Proof.Machine.execCtlReserved47 op payload s
  | .ctlReserved8F op payload => Sys2Proof.Machine.execCtlReserved8F op payload s
  | .clear b z cap off => Sys2Proof.Machine.execClear b z cap off s
  | .write b z off din => Sys2Proof.Machine.execWrite b z off din s
  | .read b z n off => Sys2Proof.Machine.execRead b z n off s
  | .peekWin b z off win => Sys2Proof.Machine.execPeekWin b z off win s
  | .accum b z off din => Sys2Proof.Machine.execAccum b z off din s
  | .advRd b z n off => Sys2Proof.Machine.execAdvRd b z n off s
  | .advWr b z n off => Sys2Proof.Machine.execAdvWr b z n off s
  | .bufReserved b z a off => Sys2Proof.Machine.execBufReserved b z a off s
  | .lookup l k => Sys2Proof.Machine.execLookup l k s
  | .resample ratio x => Sys2Proof.Machine.execResample ratio x s
  | .grainCycle => Sys2Proof.Machine.execGrainCycle s
  | .processBlock inp => Sys2Proof.Machine.execProcessBlock inp s
  | .statusRead addr => Sys2Proof.Machine.execStatusRead addr s

end Sys2Proof.Machine
end

