-- ==== Sys2Proof/Machine/Step.lean ====
section
/-! DEFINITION. One step: the next event of the environment, taken whole (00_scope R28). -/

namespace Sys2Proof.Machine

/-- The state in which the transaction at the head of the inbox runs: it is taken off, and no response stands yet. -/
def State.accept (s : State) (rest : List Event) : State :=
  { s with inbox := rest, resp := .none }

/-- One step of the machine. With no event pending the hardware is idle and keeps its state (60_exceptions R321). A power-on reset acts
in any state (70_reset R340). A transaction is decoded on its port and runs to completion (00_scope R28). -/
def step (s : State) : Host.Outcome State Fault Refusal :=
  match s.inbox with
  | [] => .next s
  | .powerOn p :: rest =>
    if p.legal then .next ((s.accept rest).powerOnReset p) else .refused .illegalParameters
  | .transaction f :: rest =>
    match decode f with
    | .ok i => exec i (s.accept rest)
    | .error e => .refused (.malformedFrame e)

/-- The state with an opcode-table word's frame (`tableFrame`) as the next transaction. -/
def State.withFetchWord (s : State) (nbits w : Nat) : State :=
  match tableFrame s.params nbits w with
  | some f => { s with inbox := .transaction f :: s.inbox }
  | none => s

end Sys2Proof.Machine
end

