-- ==== Sys2Proof/Safety.lean ====
section
/-! DEFINITION. What a sound state and a safe run are: the buffer invariants of 10_state R42, the legal register values of R32 to R45,
and the counter bounds under which no fault is reachable from the external ports (70_reset R347). -/

namespace Sys2Proof.Machine

/-- The buffer invariants (10_state R42) with the capacity CLEAR allows (40 R140), the canonical form of the cells, and no listed cell
at or above CAP (20_memory R82). -/
abbrev Buf.Sound (b : Buf) : Prop :=
  1 ≤ b.cap.toNat ∧ b.cap.toNat ≤ Config.depthMax ∧ b.cnt.toNat ≤ b.cap.toNat ∧
  b.rd.toNat < b.cap.toNat ∧ b.wr.toNat < b.cap.toNat ∧
  b.wr.toNat = (b.rd.toNat + b.cnt.toNat) % b.cap.toNat ∧
  Memory.wf b.data = true ∧ b.data.all (fun e => decide (e.1 < b.cap.toNat)) = true

/-- A word of a positive binary32 value in [0.25, 4.0], the range PITCH_RATIO keeps (10_state R36). -/
abbrev legalRatio (w : Word) : Prop := 0x3E800000 ≤ w.toNat ∧ w.toNat ≤ 0x40800000

/-- Every register holds a legal value (10_state R31 to R45), both buffers are sound, and the parameters are legal. -/
abbrev State.Sound (s : State) : Prop :=
  s.params.legal = true ∧ s.ibuf.Sound ∧ s.obuf.Sound ∧
  legalGrainSize s.grainSize.toNat = true ∧ s.hopSize.toNat * 4 = s.grainSize.toNat ∧
  legalRatio s.pitchRatio ∧ 1 ≤ s.synthLen.toNat ∧ s.synthLen.toNat ≤ Config.lmax ∧
  (s.seq = .faulted ↔ s.fault ≠ 0#4) ∧ s.fault.toNat ≤ 5 ∧
  (s.pendPitchV = true → legalRatio s.pendRatio) ∧
  (s.pendGsV = true → legalGrainSize s.pendGs.toNat = true)

/-- k0 = ceil((G + 3H) / N), the number of Active blocks from a CLEAR to the first that returns OBUF data (44 R279). -/
def State.primingBlocks (s : State) : Nat :=
  (s.grainSize.toNat + 3 * s.hopSize.toNat + s.params.blockSize - 1) / s.params.blockSize

/-- The counter invariant of 70_reset R347, as one block start sees it: both capacities are 8G; IBUF.CNT is below G, in whole
blocks and hops; before priming OBUF holds at most three hops and the two counts are whole blocks; after it the two counts
together are N (k0 - 1). -/
abbrev State.InService (s : State) : Prop :=
  s.Sound ∧ s.seq = .run ∧
  s.ibuf.cap.toNat = 8 * s.grainSize.toNat ∧ s.obuf.cap.toNat = 8 * s.grainSize.toNat ∧
  s.ibuf.cnt.toNat < s.grainSize.toNat ∧
  min s.params.blockSize s.hopSize.toNat ∣ s.ibuf.cnt.toNat ∧
  (s.primed = false →
    s.hopSize.toNat ∣ s.obuf.cnt.toNat ∧ s.obuf.cnt.toNat ≤ 3 * s.hopSize.toNat ∧
    s.params.blockSize ∣ s.ibuf.cnt.toNat + s.obuf.cnt.toNat ∧
    (s.obuf.cnt.toNat = 0 ∨ s.grainSize.toNat ≤ s.ibuf.cnt.toNat + s.hopSize.toNat)) ∧
  (s.primed = true →
    s.grainSize.toNat ≤ s.ibuf.cnt.toNat + s.hopSize.toNat ∧
    s.ibuf.cnt.toNat + s.obuf.cnt.toNat = s.params.blockSize * (s.primingBlocks - 1))

/-- No control message is pending (10_state R44). -/
abbrev State.MailboxEmpty (s : State) : Prop :=
  s.pendPitchV = false ∧ s.pendGsV = false ∧ s.pendRst = false

/-- The same state of a hardware built for another sample rate (00_scope R14). -/
def State.withSampleRate (s : State) (rate : Nat) : State :=
  { s with params := { s.params with sampleRate := rate } }

/-- The same outcome of a hardware built for another sample rate. -/
def outcomeWithSampleRate (rate : Nat) :
    Host.Outcome State Fault Refusal → Host.Outcome State Fault Refusal
  | .next t => .next (t.withSampleRate rate)
  | .fault f => .fault f
  | .refused r => .refused r

/-- The windowed grain a cycle extracts: element j is IBUF's sample j past the read cursor times ROM(G, j) (43 R231). -/
def State.windowedGrain (s : State) : List Word :=
  (List.range s.grainSize.toNat).map fun j =>
    windowProduct s.params (s.ibuf.memRead (s.ibuf.rd.toNat + j)) (hannRom s.params s.grainSize.toNat j)

/-- Synthesis sample i of a grain of resampled length len (43 R233, R234). -/
def State.synthesisSample (s : State) (len i : Nat) : Word :=
  synthesize s.params (resampledSample s.params s.windowedGrain s.pitchRatio i) (hannRom s.params len i) s.normGain

/-- The CTL words accepted one after another, the mailbox alone changing (44 R267). -/
def State.acceptAll : List (BitVec 36) → State → Host.Outcome State Fault Refusal
  | [], s => .next s
  | w :: rest, s =>
    match exec (decodeCtl w) s with
    | .next t => State.acceptAll rest t
    | .fault f => .fault f
    | .refused r => .refused r

/-- The CTL words accepted and applied one at a time, in order (44 R274). -/
def State.acceptAndApplyEach : List (BitVec 36) → State → Except State State
  | [], s => .ok s
  | w :: rest, s =>
    match exec (decodeCtl w) s with
    | .next t =>
      match t.applyMailbox with
      | .ok u => State.acceptAndApplyEach rest u
      | .error e => .error e
    | _ => .error s

/-- Transactions run one after another, stopping at the first that has no next state. -/
def State.runAll : List Instr → State → Host.Outcome State Fault Refusal
  | [], s => .next s
  | i :: rest, s =>
    match exec i s with
    | .next t => State.runAll rest t
    | .fault f => .fault f
    | .refused r => .refused r

/-- PROCESS_BLOCKs run one after another, with the channel-0 output of each, stopping (with the outputs so far) at the first that
returns no block. -/
def State.runBlocks : List (List (List Word)) → State → State × List (List Word)
  | [], s => (s, [])
  | inp :: rest, s =>
    match exec (.processBlock inp) s with
    | .next t =>
      match t.resp with
      | .block out =>
        let later := State.runBlocks rest t
        (later.1, out.headD [] :: later.2)
      | _ => (t, [])
    | _ => (s, [])

end Sys2Proof.Machine
end

