-- ==== Sys2Proof/Certificates/Slice0/Obligations.lean ====
section
/-! DEFINITION. The statements for the provers. Each docstring names the rule of spec/ it formalises; where a statement rests on a
choice of the model it says so and names the log entry. -/

open Sys2Proof Sys2Proof.Machine

/-! ### CTL (44_pitch_shift_top section 2) -/

/-- R268: every CTL word with OP 0x0 or 0x4 to 0xF is accepted and changes nothing, whatever its payload. -/
def Obligations.NopAndReservedWordsChangeNothing : Prop :=
  (∀ (w : BitVec 36), w.toNat / 2 ^ 32 = 0 ∨ 4 ≤ w.toNat / 2 ^ 32 →
    ∀ s : State, ∃ i, decode (.ctl w) = .ok i ∧ exec i s = .next s) ∧
  (∀ (payload : Word) (s : State), exec (.nop payload) s = .next s) ∧
  (∀ (op : BitVec 2) (payload : Word) (s : State), exec (.ctlReserved47 op payload) s = .next s) ∧
  (∀ (op : BitVec 3) (payload : Word) (s : State), exec (.ctlReserved8F op payload) s = .next s)

/-- R17, with the acceptance of R269: SET_PITCH posts PITCH_EXP2 of a finite value from -24.0 to +24.0 (magnitude bits up to those of
24.0, 0x41C00000) and ignores every other payload, in any state. -/
def Obligations.SetPitchPostsLegalSemitones : Prop :=
  ∀ (payload : Word) (s : State),
    (payload.toNat % 2 ^ 31 ≤ 0x41C00000 →
      exec (.setPitch payload) s = .next { s with pendPitchV := true, pendRatio := pitchExp2 s.params payload }) ∧
    (0x41C00000 < payload.toNat % 2 ^ 31 → exec (.setPitch payload) s = .next s)

/-- The acceptance of R270: SET_GRAIN_SIZE posts a size of {512, 1024, 2048, 4096} and ignores every other payload. -/
def Obligations.SetGrainSizePostsLegalSizes : Prop :=
  ∀ (payload : Word) (s : State),
    (payload.toNat ∈ [512, 1024, 2048, 4096] →
      ∃ t, exec (.setGrainSize payload) s = .next t ∧ t.pendGs.toNat = payload.toNat ∧
        t = { s with pendGsV := true, pendGs := t.pendGs }) ∧
    (payload.toNat ∉ [512, 1024, 2048, 4096] → exec (.setGrainSize payload) s = .next s)

/-- The acceptance of R271: RESET posts its bit and ignores its payload. -/
def Obligations.ResetPostsItsBit : Prop :=
  ∀ (payload : Word) (s : State), exec (.reset payload) s = .next { s with pendRst := true }

/-- R316: rejected control input (a SET_PITCH that is NaN or out of range, an unsupported size, a reserved opcode) has no effect on any
state, FAULT included. -/
def Obligations.RejectedControlInputHasNoEffect : Prop :=
  ∀ (w : BitVec 36) (s : State),
    (w.toNat / 2 ^ 32 = 1 ∧ 0x41C00000 < w.toNat % 2 ^ 31) ∨
    (w.toNat / 2 ^ 32 = 2 ∧ w.toNat % 2 ^ 32 ∉ [512, 1024, 2048, 4096]) ∨
    4 ≤ w.toNat / 2 ^ 32 →
    ∃ i, decode (.ctl w) = .ok i ∧ exec i s = .next s

/-- From R267: a CTL word is accepted in any state, also while FAULTED, returns no response, and changes nothing but the mailbox. -/
def Obligations.ControlWordsChangeOnlyTheMailbox : Prop :=
  ∀ (w : BitVec 36) (s : State) (rest : List Event), s.inbox = .transaction (.ctl w) :: rest →
    ∃ t, step s = .next t ∧
      t = { s with
        inbox := rest, resp := .none, pendPitchV := t.pendPitchV, pendRatio := t.pendRatio,
        pendGsV := t.pendGsV, pendGs := t.pendGs, pendRst := t.pendRst }

/-! ### BUF (40_circular_sample_buffer) -/

/-- R140: CLEAR with a capacity from 1 to 32768 sets it, zeroes cursors and count, and leaves every cell +0.0; with another capacity
it raises BUF_ILLEGAL. Nothing else changes. -/
def Obligations.ClearSetsCapacityAndSilencesCells : Prop :=
  ∀ (i : BufId) (z : Bool) (cap off : BitVec 16) (s : State),
    (1 ≤ cap.toNat ∧ cap.toNat ≤ 32768 →
      ∃ b, exec (.clear i z cap off) s = .next (s.setBuf i b) ∧
        b.cap = cap ∧ b.rd.toNat = 0 ∧ b.wr.toNat = 0 ∧ b.cnt.toNat = 0 ∧
        ∀ k, Memory.read b.data k = Word.silence) ∧
    (cap.toNat = 0 ∨ 32768 < cap.toNat → exec (.clear i z cap off) s = .next (s.raise .bufIllegal))

/-- R141: WRITE of samples that fit stores each in its cell (modulo CAP), moves WR and CNT, and leaves every other cell and register;
of samples that do not fit it raises BUF_OVERFLOW. -/
def Obligations.WriteAppendsItsSamples : Prop :=
  ∀ (i : BufId) (z : Bool) (off : BitVec 16) (din : List Word) (s : State), (s.buf i).Sound →
    ((s.buf i).cnt.toNat + din.length ≤ (s.buf i).cap.toNat →
      ∃ b, exec (.write i z off din) s = .next (s.setBuf i b) ∧
        b.cap = (s.buf i).cap ∧ b.rd = (s.buf i).rd ∧
        b.wr.toNat = ((s.buf i).wr.toNat + din.length) % (s.buf i).cap.toNat ∧
        b.cnt.toNat = (s.buf i).cnt.toNat + din.length ∧
        (∀ (j : Nat) (h : j < din.length),
          Memory.read b.data (((s.buf i).wr.toNat + j) % (s.buf i).cap.toNat) = din[j]) ∧
        (∀ c, (∀ j < din.length, c ≠ ((s.buf i).wr.toNat + j) % (s.buf i).cap.toNat) →
          Memory.read b.data c = Memory.read (s.buf i).data c)) ∧
    ((s.buf i).cap.toNat < (s.buf i).cnt.toNat + din.length →
      exec (.write i z off din) s = .next (s.raise .bufOverflow))

/-- R142: READ of unread samples returns the old cells, zeroes them exactly when Z is set, moves RD and CNT, and leaves every other
cell and register; of more it raises BUF_UNDERRUN. -/
def Obligations.ReadRemovesItsSamples : Prop :=
  ∀ (i : BufId) (z : Bool) (n off : BitVec 16) (s : State), (s.buf i).Sound →
    (n.toNat ≤ (s.buf i).cnt.toNat →
      ∃ b r, exec (.read i z n off) s = .next { s.setBuf i b with resp := .samples r } ∧
        r.length = n.toNat ∧
        (∀ (j : Nat) (h : j < r.length),
          r[j] = Memory.read (s.buf i).data (((s.buf i).rd.toNat + j) % (s.buf i).cap.toNat)) ∧
        b.cap = (s.buf i).cap ∧ b.wr = (s.buf i).wr ∧
        b.rd.toNat = ((s.buf i).rd.toNat + n.toNat) % (s.buf i).cap.toNat ∧
        b.cnt.toNat = (s.buf i).cnt.toNat - n.toNat ∧
        (∀ c, (z = true ∧ ∃ j < n.toNat, c = ((s.buf i).rd.toNat + j) % (s.buf i).cap.toNat) →
          Memory.read b.data c = Word.silence) ∧
        (∀ c, ¬(z = true ∧ ∃ j < n.toNat, c = ((s.buf i).rd.toNat + j) % (s.buf i).cap.toNat) →
          Memory.read b.data c = Memory.read (s.buf i).data c)) ∧
    ((s.buf i).cnt.toNat < n.toNat → exec (.read i z n off) s = .next (s.raise .bufUnderrun))

/-- R143: PEEK_WIN of unread samples returns each cell times its coefficient, one fmul under the default NUMERICS, and changes nothing
but the response; past the unread samples it raises BUF_UNDERRUN. -/
def Obligations.PeekWinReturnsWindowedCells : Prop :=
  ∀ (i : BufId) (z : Bool) (off : BitVec 16) (win : List Word) (s : State),
    (off.toNat + win.length ≤ (s.buf i).cnt.toNat →
      ∃ r, exec (.peekWin i z off win) s = .next { s with resp := .samples r } ∧
        r.length = win.length ∧
        ∀ (j : Nat) (h : j < r.length) (h' : j < win.length),
          r[j] = windowProduct s.params
              (Memory.read (s.buf i).data (((s.buf i).rd.toNat + off.toNat + j) % (s.buf i).cap.toNat)) win[j] ∧
          (s.params.numerics = .standard →
            r[j] = fmul (Memory.read (s.buf i).data
              (((s.buf i).rd.toNat + off.toNat + j) % (s.buf i).cap.toNat)) win[j])) ∧
    ((s.buf i).cnt.toNat < off.toNat + win.length →
      exec (.peekWin i z off win) s = .next (s.raise .bufUnderrun))

/-- R144: ACCUM of a span clear of the unread cells adds each sample to its cell, old value first (one fadd under the default NUMERICS),
and leaves every other cell and every register; a span that would reach them raises BUF_OVERFLOW. -/
def Obligations.AccumAddsIntoItsCells : Prop :=
  ∀ (i : BufId) (z : Bool) (off : BitVec 16) (din : List Word) (s : State), (s.buf i).Sound →
    ((s.buf i).cnt.toNat + off.toNat + din.length ≤ (s.buf i).cap.toNat →
      ∃ b, exec (.accum i z off din) s = .next (s.setBuf i b) ∧ b = { s.buf i with data := b.data } ∧
        (∀ (j : Nat) (h : j < din.length),
          let c := ((s.buf i).wr.toNat + off.toNat + j) % (s.buf i).cap.toNat
          Memory.read b.data c = accumulate s.params (Memory.read (s.buf i).data c) din[j] ∧
          (s.params.numerics = .standard →
            Memory.read b.data c = fadd (Memory.read (s.buf i).data c) din[j])) ∧
        (∀ c, (∀ j < din.length, c ≠ ((s.buf i).wr.toNat + off.toNat + j) % (s.buf i).cap.toNat) →
          Memory.read b.data c = Memory.read (s.buf i).data c)) ∧
    ((s.buf i).cap.toNat < (s.buf i).cnt.toNat + off.toNat + din.length →
      exec (.accum i z off din) s = .next (s.raise .bufOverflow))

/-- R145: ADV_RD (BUF OP 101) consumes n unread samples, leaving the cells; of more it raises BUF_UNDERRUN. -/
def Obligations.AdvRdConsumesSamples : Prop :=
  ∀ (i : BufId) (z : Bool) (n off : BitVec 16) (s : State), (s.buf i).Sound →
    decode (.buf i (bufWord 0b101#3 z n off) []) = .ok (.advRd i z n off) ∧
    (n.toNat ≤ (s.buf i).cnt.toNat →
      ∃ b, exec (.advRd i z n off) s = .next (s.setBuf i b) ∧ b = { s.buf i with rd := b.rd, cnt := b.cnt } ∧
        b.rd.toNat = ((s.buf i).rd.toNat + n.toNat) % (s.buf i).cap.toNat ∧
        b.cnt.toNat = (s.buf i).cnt.toNat - n.toNat) ∧
    ((s.buf i).cnt.toNat < n.toNat → exec (.advRd i z n off) s = .next (s.raise .bufUnderrun))

/-- R146: ADV_WR (BUF OP 110) publishes n samples, leaving the cells; of more than fit it raises BUF_OVERFLOW. -/
def Obligations.AdvWrPublishesSamples : Prop :=
  ∀ (i : BufId) (z : Bool) (n off : BitVec 16) (s : State), (s.buf i).Sound →
    decode (.buf i (bufWord 0b110#3 z n off) []) = .ok (.advWr i z n off) ∧
    ((s.buf i).cnt.toNat + n.toNat ≤ (s.buf i).cap.toNat →
      ∃ b, exec (.advWr i z n off) s = .next (s.setBuf i b) ∧ b = { s.buf i with wr := b.wr, cnt := b.cnt } ∧
        b.wr.toNat = ((s.buf i).wr.toNat + n.toNat) % (s.buf i).cap.toNat ∧
        b.cnt.toNat = (s.buf i).cnt.toNat + n.toNat) ∧
    ((s.buf i).cap.toNat < (s.buf i).cnt.toNat + n.toNat →
      exec (.advWr i z n off) s = .next (s.raise .bufOverflow))

/-- From R147, with the model's choice of log 7 (the spec allows a refusal too): the reserved BUF operation raises BUF_ILLEGAL. -/
def Obligations.ReservedBufOpRaisesIllegal : Prop :=
  ∀ (i : BufId) (z : Bool) (a off : BitVec 16) (s : State),
    decode (.buf i (bufWord 0b111#3 z a off) []) = .ok (.bufReserved i z a off) ∧
    exec (.bufReserved i z a off) s = .next (s.raise .bufIllegal)

/-- R42: every BUF transaction keeps the buffer invariants of both instances (count, cursors, and the canonical cells of the model). -/
def Obligations.BufTransactionsKeepBufferInvariants : Prop :=
  ∀ (id : BufId) (w : BitVec 36) (din : List Word) (i : Instr) (s t : State),
    decode (.buf id w din) = .ok i → s.ibuf.Sound → s.obuf.Sound → exec i s = .next t →
    t.ibuf.Sound ∧ t.obuf.Sound

/-- From R238: under the default NUMERICS an ACCUM into cells that hold no -0.0 leaves no cell holding -0.0. -/
def Obligations.AccumNeverMakesNegativeZero : Prop :=
  ∀ (i : BufId) (z : Bool) (off : BitVec 16) (din : List Word) (s t : State),
    s.params.numerics = .standard → (s.buf i).Sound →
    (∀ c, Memory.read (s.buf i).data c ≠ 0x80000000#32) →
    exec (.accum i z off din) s = .next t → ∀ c, Memory.read (t.buf i).data c ≠ 0x80000000#32

/-! ### Faults (60_exceptions) -/

/-- R311, the pseudocode of `raise Fault(code)`: FAULT keeps its first code, SEQ becomes FAULTED, no response is returned, and all else
keeps what the completed steps left. -/
def Obligations.RaiseRecordsTheFirstCode : Prop :=
  ∀ (s : State) (c : FaultCode),
    (s.fault = 0#4 → (s.raise c).fault = c.bits) ∧ (s.fault ≠ 0#4 → (s.raise c).fault = s.fault) ∧
    (s.raise c).seq = .faulted ∧ (s.raise c).resp = .none ∧
    s.raise c = { s with fault := (s.raise c).fault, seq := .faulted, resp := .none } ∧
    [FaultCode.bufOverflow, .bufUnderrun, .bufIllegal, .romRange, .resampleDomain].map FaultCode.bits =
      [1#4, 2#4, 3#4, 4#4, 5#4]

/-- R45: FAULT is 0 at power-on, takes the code of the first fault raised (SEQ then being FAULTED), and no transaction changes or clears
it after that; power-on reset does. -/
def Obligations.FaultRegisterIsSticky : Prop :=
  (∀ p : Params, (State.powerOn p).fault = 0#4) ∧
  (∀ (i : Instr) (s t : State), s.fault ≠ 0#4 → exec i s = .next t → t.fault = s.fault) ∧
  (∀ (i : Instr) (s t : State), s.fault = 0#4 → exec i s = .next t →
    t.fault = 0#4 ∨ (t.seq = .faulted ∧ ∃ c : FaultCode, t.fault = c.bits)) ∧
  (∀ (i : Instr) (s t : State), s.seq = .faulted → exec i s = .next t → t.seq = .faulted) ∧
  (∀ (s t : State) (p : Params) (rest : List Event), s.inbox = .powerOn p :: rest → step s = .next t →
    t.fault = 0#4 ∧ t.seq = .run)

/-- From R313 and the `stuck` of 93_implementation_defined section 3 (log 6): while FAULTED, PROCESS_BLOCK gives no next state, every CTL
word is still accepted, and STS still reads. -/
def Obligations.FaultedBlockIsStuckAndPortsStayOpen : Prop :=
  ∀ s : State, s.seq = .faulted →
    (∀ inp, s.params.blockShape inp = true → exec (.processBlock inp) s = .fault .blockWhileFaulted) ∧
    (∀ (w : BitVec 36), ∃ i t, decode (.ctl w) = .ok i ∧ exec i s = .next t ∧ t.seq = .faulted ∧ t.fault = s.fault) ∧
    (∀ addr, exec (.statusRead addr) s = .next { s with resp := .status (s.statusMap addr) })

/-- From R346 and 93_implementation_defined section 2 ("refuse"): a block that is not C channels of N samples is refused. -/
def Obligations.BlockOfAnotherShapeIsRefused : Prop :=
  ∀ (inp : List (List Word)) (s : State),
    inp.length ≠ s.params.channels ∨ (∃ ch ∈ inp, ch.length ≠ s.params.blockSize) →
    exec (.processBlock inp) s = .refused .blockShape

/-! ### ROM (41_hann_window_rom) -/

/-- R180 to R182: LOOKUP in range returns HANN_ROM(L, I), 1.0 at length 1, and changes nothing but the response; out of range it raises
ROM_RANGE. -/
def Obligations.LookupReturnsItsCoefficient : Prop :=
  ∀ (l i : BitVec 15) (s : State),
    (1 ≤ l.toNat ∧ l.toNat ≤ 16384 ∧ i.toNat < l.toNat →
      exec (.lookup l i) s = .next { s with resp := .coefficient (hannRom s.params l.toNat i.toNat) } ∧
      (l.toNat = 1 → hannRom s.params l.toNat i.toNat = 0x3F800000#32)) ∧
    (l.toNat = 0 ∨ 16384 < l.toNat ∨ l.toNat ≤ i.toNat → exec (.lookup l i) s = .next (s.raise .romRange))

/-- R183: the exact values of the default ROM, its symmetry and its range. -/
def Obligations.DefaultHannExactValues : Prop :=
  ∀ (p : Params), p.hannRom = .standard → ∀ (l i : Nat), l ≤ 16384 → i < l →
    (2 ≤ l → hannRom p l 0 = 0x00000000#32 ∧ hannRom p l (l - 1) = 0x00000000#32) ∧
    (l % 2 = 1 → hannRom p l ((l - 1) / 2) = 0x3F800000#32) ∧
    (2 ≤ l → 4 * i = l - 1 ∨ 4 * i = 3 * (l - 1) → hannRom p l i = 0x3F000000#32) ∧
    (2 ≤ l → 3 * i = l - 1 ∨ 3 * i = 2 * (l - 1) → hannRom p l i = 0x3F400000#32) ∧
    (2 ≤ l → 6 * i = l - 1 ∨ 6 * i = 5 * (l - 1) → hannRom p l i = 0x3E800000#32) ∧
    hannRom p l i = hannRom p l (l - 1 - i) ∧
    (hannRom p l i).toNat ≤ 0x3F800000

/-- From R21 and 93_implementation_defined section 1: whatever the HANN_ROM parameter, a coefficient is a value in [0, 1], and 1.0 at
length 1 (a custom ROM is held to this by the model: log 10). -/
def Obligations.EveryRomCoefficientLiesInUnitInterval : Prop :=
  ∀ (p : Params) (l i : Nat),
    (hannRom p l i).toNat ≤ 0x3F800000 ∨ hannRom p l i = 0x80000000#32

/-- From R21 and R180: a coefficient of the default ROM is within 2^-24 of 0.5(1 - cos(2 pi i/(L-1))), computed in the reals. -/
def Obligations.DefaultHannApproximatesItsFormula : Prop :=
  ∀ (l i : Nat), 2 ≤ l → l ≤ 16384 → i < l →
    |(F32.scaled (hannStandard l i) : ℝ) / 2 ^ 149 -
      (1 / 2) * (1 - Real.cos (2 * Real.pi * (i : ℝ) / ((l : ℝ) - 1)))| ≤ 1 / 2 ^ 24

/-! ### PITCH_EXP2 (00_scope R21) -/

/-- From R21: the default PITCH_EXP2 of a legal semitone value s is within 2^-22 of 2^(s/12), computed in the reals. -/
def Obligations.DefaultPitchApproximatesItsFormula : Prop :=
  ∀ s : Word, legalSemitones s = true →
    |(F32.scaled (pitchExp2Standard s) : ℝ) / 2 ^ 149 -
      (2 : ℝ) ^ (((F32.scaled s : ℝ) / 2 ^ 149) / 12)| ≤ 1 / 2 ^ 22

/-- From R36: PITCH_EXP2 of a legal semitone value lies in [0.25, 4.0], for the default and for any other function (which the model holds
to that range: log 10). -/
def Obligations.PitchRatioStaysLegal : Prop :=
  ∀ (p : Params) (s : Word), legalSemitones s = true → legalRatio (pitchExp2 p s)

/-! ### RSMP (42_cubic_resampler) -/

/-- R203: the four neighbours are x[clamp(srcIndex + d, 0, n-1)] for d = -1, 0, 1, 2; clamping never wraps. -/
def Obligations.NeighboursAreClamped : Prop :=
  ∀ (x : List Word) (srcIndex d : Nat), x ≠ [] → d < 4 →
    ∃ k : Nat, (k : Int) = min (max ((srcIndex : Int) + ((d : Int) - 1)) 0) ((x.length : Int) - 1) ∧
      x[k]? = some (neighbour x srcIndex d)

/-- From R200, R201 and R205: in its domain RESAMPLE returns exactly floor(n / f32(r)) samples (the exact quotient), each by the
Catmull-Rom rule, and changes nothing but the response. -/
def Obligations.ResampleReturnsItsSamples : Prop :=
  ∀ (r : Word) (x : List Word) (s : State),
    1 ≤ x.length → x.length ≤ 4096 → 0 < r.toNat → r.toNat < 0x7F800000 →
    x.length * 2 ^ 149 < 16385 * F32.mag r →
    ∃ y, exec (.resample r x) s = .next { s with resp := .resampled (BitVec.ofNat 15 y.length) y } ∧
      y.length * F32.mag r ≤ x.length * 2 ^ 149 ∧ x.length * 2 ^ 149 < (y.length + 1) * F32.mag r ∧
      ∀ (i : Nat) (h : i < y.length),
        y[i] = resampledSample s.params x r i ∧
        (s.params.numerics = .standard →
          ∃ pos k t, pos = fmul (F32.ofNat i) r ∧ k = F32.mag pos / 2 ^ 149 ∧ t = fsub pos (F32.ofNat k) ∧
            y[i] = catmullRom (neighbour x k 0) (neighbour x k 1) (neighbour x k 2) (neighbour x k 3) t)

/-- From R205: outside its domain (no sample or more than 4096, a ratio that is NaN, infinite, zero or negative, more than 16384 outputs)
RESAMPLE raises RESAMPLE_DOMAIN. -/
def Obligations.ResampleOutsideItsDomainFaults : Prop :=
  ∀ (r : Word) (x : List Word) (s : State),
    x.length = 0 ∨ 4096 < x.length ∨ r.toNat = 0 ∨ 0x7F800000 ≤ r.toNat ∨
      16385 * F32.mag r ≤ x.length * 2 ^ 149 →
    exec (.resample r x) s = .next (s.raise .resampleDomain)

/-- From R206: at ratio 1.0, under the default NUMERICS, a grain of samples up to 2^125 in magnitude comes out as it went in, except that
a -0.0 may come out as +0.0. (The bound keeps the coefficient sums finite: log 16.) -/
def Obligations.ResampleAtRatioOneIsIdentity : Prop :=
  ∀ (p : Params) (x : List Word), p.numerics = .standard → 1 ≤ x.length → x.length ≤ 4096 →
    (∀ w ∈ x, w.toNat % 2 ^ 31 ≤ 0x7E000000) →
    ∃ y, resampleGrain p x Word.one = .ok y ∧ y.length = x.length ∧
      ∀ (i : Nat) (h : i < y.length) (h' : i < x.length),
        y[i] = x[i] ∨ (x[i] = 0x80000000#32 ∧ y[i] = 0x00000000#32)

/-! ### GRAIN (43_grain_processor_pipeline) -/

/-- From R238: in a sound state with a grain of input and room for the longest resampled grain, GRAIN_CYCLE completes: one hop moves in
each buffer, SYNTH_LEN becomes floor(G / r), each synthesis sample is added into its OBUF cell, every other cell and register
stays, and PRIMED is set once OBUF.CNT reaches G. -/
def Obligations.GrainCycleCompletes : Prop :=
  ∀ s : State, s.Sound → s.grainSize.toNat ≤ s.ibuf.cnt.toNat →
    s.obuf.cnt.toNat + 4 * s.grainSize.toNat ≤ s.obuf.cap.toNat →
    ∃ (t : State) (len : Nat), exec .grainCycle s = .next t ∧
      len * F32.mag s.pitchRatio ≤ s.grainSize.toNat * 2 ^ 149 ∧
      s.grainSize.toNat * 2 ^ 149 < (len + 1) * F32.mag s.pitchRatio ∧
      t = { s with
        ibuf := { s.ibuf with rd := t.ibuf.rd, cnt := t.ibuf.cnt },
        obuf := { s.obuf with wr := t.obuf.wr, cnt := t.obuf.cnt, data := t.obuf.data },
        synthLen := BitVec.ofNat 15 len,
        primed := s.primed || decide (s.grainSize.toNat ≤ s.obuf.cnt.toNat + s.hopSize.toNat),
        resp := .done } ∧
      t.ibuf.rd.toNat = (s.ibuf.rd.toNat + s.hopSize.toNat) % s.ibuf.cap.toNat ∧
      t.ibuf.cnt.toNat = s.ibuf.cnt.toNat - s.hopSize.toNat ∧
      t.obuf.wr.toNat = (s.obuf.wr.toNat + s.hopSize.toNat) % s.obuf.cap.toNat ∧
      t.obuf.cnt.toNat = s.obuf.cnt.toNat + s.hopSize.toNat ∧
      (∀ i < len,
        let c := (s.obuf.wr.toNat + i) % s.obuf.cap.toNat
        Memory.read t.obuf.data c = accumulate s.params (Memory.read s.obuf.data c) (s.synthesisSample len i)) ∧
      (∀ c, (∀ i < len, c ≠ (s.obuf.wr.toNat + i) % s.obuf.cap.toNat) →
        Memory.read t.obuf.data c = Memory.read s.obuf.data c)

/-- From R234, R231 and R144 with R20: under the default NUMERICS the products and sums of a grain cycle are single binary32 operations,
the coefficient times the gain first. -/
def Obligations.DefaultNumericsAreBinary32 : Prop :=
  ∀ (p : Params) (a b c : Word), p.numerics = .standard →
    windowProduct p a b = fmul a b ∧ accumulate p a b = fadd a b ∧ synthesize p a b c = fmul a (fmul b c) ∧
    ∀ (x : List Word) (r : Word) (i : Nat), resampledSample p x r i = resampledStandard x r i

/-- From R312 and R231: GRAIN_CYCLE driven with less than a grain of input raises BUF_UNDERRUN at its PEEK_WIN and changes nothing else. -/
def Obligations.GrainCycleWithoutInputUnderruns : Prop :=
  ∀ s : State, s.ibuf.cnt.toNat < s.grainSize.toNat → exec .grainCycle s = .next (s.raise .bufUnderrun)

/-- From R39 and R184: the value of SYNTH_LEN changes no sample, cell or other register that PROCESS_BLOCK leaves. -/
def Obligations.SynthLenNeverChangesASample : Prop :=
  ∀ (inp : List (List Word)) (s t : State) (n : BitVec 15), exec (.processBlock inp) s = .next t →
    ∃ m, exec (.processBlock inp) { s with synthLen := n } = .next { t with synthLen := m }

/-! ### AUD (44_pitch_shift_top) -/

/-- From R262 and R273: in Bypass (after the mailbox is applied) PROCESS_BLOCK returns channel 0 of its input bit for bit on every
channel, and changes nothing beyond the mailbox's application but the response. -/
def Obligations.BypassBlockReturnsChannelZero : Prop :=
  ∀ (inp : List (List Word)) (s u : State), s.seq = .run → s.params.blockShape inp = true →
    s.applyMailbox = .ok u → u.bypass = true →
    exec (.processBlock inp) s =
      .next { u with resp := .block (List.replicate s.params.channels (inp.headD [])) }

/-- R265: every output channel equals the channel-0 result, and input channels past channel 0 are never read. -/
def Obligations.OutputMirrorsChannelZero : Prop :=
  (∀ (inp : List (List Word)) (s t : State) (out : List (List Word)),
    exec (.processBlock inp) s = .next t → t.resp = .block out →
    out.length = s.params.channels ∧ ∀ ch ∈ out, ch = out.headD []) ∧
  (∀ (inp inp' : List (List Word)) (s : State),
    s.params.blockShape inp = true → s.params.blockShape inp' = true → inp.headD [] = inp'.headD [] →
    exec (.processBlock inp) s = exec (.processBlock inp') s)

/-- From R280: a PROCESS_BLOCK that returns a block returns exactly C channels of N samples. -/
def Obligations.EveryOutputBlockHasTheInputShape : Prop :=
  ∀ (inp : List (List Word)) (s t : State) (out : List (List Word)),
    exec (.processBlock inp) s = .next t → t.resp = .block out → s.params.blockShape out = true

/-- From R264 and R278: in Active, a block after which PRIMED is 0 is silent, and OBUF is not read. -/
def Obligations.UnprimedActiveBlockIsSilent : Prop :=
  ∀ (inp : List (List Word)) (s u t : State) (out : List (List Word)),
    s.applyMailbox = .ok u → u.bypass = false → exec (.processBlock inp) s = .next t → t.resp = .block out →
    t.primed = false →
    out = List.replicate s.params.channels (List.replicate s.params.blockSize Word.silence) ∧
      t.obuf.rd = u.obuf.rd

/-- From R261, R263, R264 and R266: an Active block in service is its own transactions one after another: WRITE of channel 0 to IBUF, as
many GRAIN_CYCLEs as it takes (none of them faulting) until IBUF.CNT is below GRAIN_SIZE, at most MAX_GRAINS, then, when PRIMED, READ
of OBUF with zeroing; the response is the samples read, or silence. -/
def Obligations.ActiveBlockIsItsTransactions : Prop :=
  ∀ (inp : List (List Word)) (s u : State), s.InService → s.params.blockShape inp = true →
    s.applyMailbox = .ok u → u.bypass = false →
    ∃ (k : Nat) (v w : State) (o : List Word),
      k ≤ u.params.blockSize / u.hopSize.toNat + 1 ∧
      State.runAll (.write .ibuf false 0#16 (inp.headD []) :: List.replicate k .grainCycle) u = .next v ∧
      v.seq = .run ∧ v.ibuf.cnt.toNat < v.grainSize.toNat ∧
      exec (.processBlock inp) s = .next { w with resp := .block (List.replicate s.params.channels o) } ∧
      (v.primed = true →
        exec (.read .obuf true (BitVec.ofNat 16 s.params.blockSize) 0#16) v = .next { w with resp := .samples o }) ∧
      (v.primed = false → w = v ∧ o = List.replicate s.params.blockSize Word.silence)

/-- From R271 to R273: what the mailbox's application leaves in a sound state: a pending size reconfigures, else a pending RESET clears,
then a pending ratio is taken; every cell of a cleared buffer is +0.0; the mailbox is empty; nothing else changes. -/
def Obligations.MailboxApplicationEffects : Prop :=
  ∀ s : State, s.Sound → ∃ t, s.applyMailbox = .ok t ∧ t.MailboxEmpty ∧
    t.pitchRatio = (if s.pendPitchV then s.pendRatio else s.pitchRatio) ∧
    (s.pendGsV = true →
      t.grainSize = s.pendGs ∧ t.hopSize.toNat = s.pendGs.toNat / 4 ∧ t.synthLen.toNat = s.pendGs.toNat ∧
      t.primed = false ∧
      ∀ i, (t.buf i).cap.toNat = 8 * s.pendGs.toNat ∧ (t.buf i).rd.toNat = 0 ∧ (t.buf i).wr.toNat = 0 ∧
        (t.buf i).cnt.toNat = 0 ∧ ∀ k, Memory.read (t.buf i).data k = Word.silence) ∧
    (s.pendGsV = false → s.pendRst = true →
      t.grainSize = s.grainSize ∧ t.hopSize = s.hopSize ∧ t.synthLen = s.synthLen ∧ t.primed = false ∧
      ∀ i, (t.buf i).cap = (s.buf i).cap ∧ (t.buf i).rd.toNat = 0 ∧ (t.buf i).wr.toNat = 0 ∧
        (t.buf i).cnt.toNat = 0 ∧ ∀ k, Memory.read (t.buf i).data k = Word.silence) ∧
    (s.pendGsV = false → s.pendRst = false →
      t.grainSize = s.grainSize ∧ t.hopSize = s.hopSize ∧ t.synthLen = s.synthLen ∧ t.primed = s.primed ∧
      t.ibuf = s.ibuf ∧ t.obuf = s.obuf) ∧
    t = { s with
      grainSize := t.grainSize, hopSize := t.hopSize, pitchRatio := t.pitchRatio, primed := t.primed,
      synthLen := t.synthLen, ibuf := t.ibuf, obuf := t.obuf,
      pendPitchV := false, pendGsV := false, pendRst := false }

/-- R274: applying the mailbox after any sequence of CTL words gives the state that accepting and applying them one at a time gives. -/
def Obligations.MailboxEqualsMessagesOneAtATime : Prop :=
  ∀ (ws : List (BitVec 36)) (s : State), s.Sound → s.MailboxEmpty →
    ∃ t u, State.acceptAll ws s = .next t ∧ t.applyMailbox = .ok u ∧ State.acceptAndApplyEach ws s = .ok u

/-- From R347: from a state in service a PROCESS_BLOCK of the right shape always returns a block, without a fault, and the machine stays
in service. -/
def Obligations.BlockInServiceNeverFaults : Prop :=
  ∀ (inp : List (List Word)) (s : State), s.InService → s.params.blockShape inp = true →
    ∃ t out, exec (.processBlock inp) s = .next t ∧ t.resp = .block out ∧ t.fault = 0#4 ∧ t.InService

/-- From R347 and R342: power-on under legal parameters is in service, and every CTL word and STS read keeps the machine in service. -/
def Obligations.PowerOnAndControlKeepService : Prop :=
  (∀ p : Params, p.legal = true → (State.powerOn p).InService) ∧
  (∀ (w : BitVec 36) (s : State), s.InService →
    ∃ i t, decode (.ctl w) = .ok i ∧ exec i s = .next t ∧ t.InService) ∧
  (∀ (addr : BitVec 4) (s : State), s.InService → ∃ t, exec (.statusRead addr) s = .next t ∧ t.InService)

/-- From R279 and R347 item 4: from cleared buffers in Active, with no message pending, each of the first k0 - 1 blocks is silent and
leaves PRIMED 0, and block number k0 = ceil((G + 3H) / N) sets PRIMED. -/
def Obligations.PrimingTakesK0ActiveBlocks : Prop :=
  ∀ (blocks : List (List (List Word))) (s : State), s.InService → s.MailboxEmpty → s.bypass = false →
    s.ibuf.cnt.toNat = 0 → s.obuf.cnt.toNat = 0 → s.primed = false →
    (∀ inp ∈ blocks, s.params.blockShape inp = true) → 1 ≤ s.params.channels →
    (blocks.length < s.primingBlocks →
      (s.runBlocks blocks).2 =
        List.replicate blocks.length (List.replicate s.params.blockSize Word.silence) ∧
      (s.runBlocks blocks).1.primed = false) ∧
    (blocks.length = s.primingBlocks → (s.runBlocks blocks).1.primed = true)

/-- From R36, R37, R32 and R278: PITCH_RATIO and GRAIN_SIZE change, and PRIMED is cleared, only by a PROCESS_BLOCK with the pending message
that does it; PRIMED is set only by a grain cycle, alone or inside a block. -/
def Obligations.ModeRegistersChangeOnlyAsListed : Prop :=
  ∀ (i : Instr) (s t : State), exec i s = .next t →
    (t.pitchRatio ≠ s.pitchRatio →
      (∃ inp, i = .processBlock inp) ∧ s.pendPitchV = true ∧ t.pitchRatio = s.pendRatio) ∧
    (t.grainSize ≠ s.grainSize →
      (∃ inp, i = .processBlock inp) ∧ s.pendGsV = true ∧ t.grainSize = s.pendGs) ∧
    (s.primed = true → t.primed = false →
      (∃ inp, i = .processBlock inp) ∧ (s.pendGsV = true ∨ s.pendRst = true)) ∧
    (s.primed = false → t.primed = true → i = .grainCycle ∨ ∃ inp, i = .processBlock inp)

/-- R14: SAMPLE_RATE has no effect on any instruction. (The rates are the natural numbers the model gives the parameter: log 17.) -/
def Obligations.SampleRateHasNoEffect : Prop :=
  ∀ (i : Instr) (s : State) (rate : Nat),
    exec i (s.withSampleRate rate) = outcomeWithSampleRate rate (exec i s)

/-! ### STS and the flags (10_state) -/

/-- R46: STATUS_READ returns the word of the status map at its address and changes nothing but the response. -/
def Obligations.StatusReadFollowsTheMap : Prop :=
  ∀ (addr : BitVec 4) (s : State),
    exec (.statusRead addr) s = .next { s with resp := .status (
      [s.statusWord, s.pitchRatio, BitVec.ofNat 32 s.grainSize.toNat, BitVec.ofNat 32 s.hopSize.toNat,
        BitVec.ofNat 32 s.ibuf.cnt.toNat, BitVec.ofNat 32 s.obuf.cnt.toNat, BitVec.ofNat 32 s.synthLen.toNat,
        0x3F000000#32, BitVec.ofNat 32 s.ibuf.rd.toNat, BitVec.ofNat 32 s.ibuf.wr.toNat,
        BitVec.ofNat 32 s.obuf.rd.toNat, BitVec.ofNat 32 s.obuf.wr.toNat, BitVec.ofNat 32 s.ibuf.cap.toNat,
        BitVec.ofNat 32 s.obuf.cap.toNat, 0#32, 0#32].getD addr.toNat 0#32) }

/-- R47: the fields of the STATUS word, and its value at power-on with INIT_GRAIN_SIZE 1024. -/
def Obligations.StatusWordFields : Prop :=
  (∀ s : State, legalGrainSize s.grainSize.toNat = true →
    s.statusWord.getLsbD 0 = s.primed ∧ s.statusWord.getLsbD 1 = s.bypass ∧
    s.grainSize.toNat = 512 * 2 ^ (s.statusWord.extractLsb' 2 2).toNat ∧
    s.statusWord.extractLsb' 4 4 = s.fault ∧
    s.statusWord.getLsbD 8 = (s.pendPitchV || s.pendGsV || s.pendRst) ∧
    s.statusWord.extractLsb' 9 23 = 0#23) ∧
  (∀ p : Params, p.initGrainSize = 1024#13 → (State.powerOn p).statusWord = 0x00000006#32)

/-- R38: BYPASS is |f32(PITCH_RATIO) - 1| < 0.001, compared exactly, for a ratio of a finite value; it is 1 at power-on. -/
def Obligations.BypassIsTheExactTolerance : Prop :=
  (∀ s : State, F32.isFinite s.pitchRatio = true →
    (s.bypass = true ↔ |(F32.scaled s.pitchRatio : ℚ) / 2 ^ 149 - 1| < 1 / 1000)) ∧
  (∀ p : Params, (State.powerOn p).bypass = true)

/-- From R38 and R16: the ratio words in Bypass are exactly 0x3F7FBE77 to 0x3F8020C4. The spec gives this for words of a finite value; that
BYPASS of a NaN or infinite word, which PITCH_RATIO never holds, is 0 is the model's choice (log 4). -/
def Obligations.BypassRatioWords : Prop :=
  ∀ w : Word, bypassRatio w = true ↔ 0x3F7FBE77 ≤ w.toNat ∧ w.toNat ≤ 0x3F8020C4

/-! ### Reset, step and invariants -/

/-- R51: the power-on value of every piece of state, for every parameter set with a legal INIT_GRAIN_SIZE. (The response and the inbox are
the model's own fields: logs 1 and 5.) -/
def Obligations.PowerOnValues : Prop :=
  ∀ p : Params, p.legal = true →
    let s := State.powerOn p
    s.seq = .run ∧ s.grainSize = p.initGrainSize ∧ s.hopSize.toNat = p.initGrainSize.toNat / 4 ∧
    s.overlap = 4 ∧ s.normGain = 0x3F000000#32 ∧ s.pitchRatio = 0x3F800000#32 ∧ s.primed = false ∧
    s.synthLen.toNat = p.initGrainSize.toNat ∧
    (∀ i, (s.buf i).cap.toNat = 8 * p.initGrainSize.toNat ∧ (s.buf i).rd.toNat = 0 ∧ (s.buf i).wr.toNat = 0 ∧
      (s.buf i).cnt.toNat = 0 ∧ ∀ k, Memory.read (s.buf i).data k = 0x00000000#32) ∧
    s.pendPitchV = false ∧ s.pendGsV = false ∧ s.pendRst = false ∧ s.pendRatio = 0x00000000#32 ∧
    s.pendGs.toNat = 0 ∧ s.fault = 0#4

/-- From R340, R28 and R321: a step takes the next event of the environment whole. With none it changes nothing; a power-on reset under
legal parameters gives the power-on state from any state, the later events staying pending (log 1); a frame that decodes to an
instruction runs exec of it, at the state without the frame and without a response. -/
def Obligations.StepTakesTheNextEvent : Prop :=
  (∀ s : State, s.inbox = [] → step s = .next s) ∧
  (∀ (s : State) (p : Params) (rest : List Event), s.inbox = .powerOn p :: rest → p.legal = true →
    step s = .next { State.powerOn p with inbox := rest }) ∧
  (∀ (s : State) (f : Frame) (i : Instr) (rest : List Event), s.inbox = .transaction f :: rest → decode f = .ok i →
    step s = exec i { s with inbox := rest, resp := .none })

/-- An invariant that every step keeps (10_state R31 to R45, R42): every register holds a legal value, both buffers are sound and their
cells canonical, FAULTED goes with a fault code. -/
def Obligations.StepKeepsTheStateSound : Prop :=
  ∀ s t : State, s.Sound → step s = .next t → t.Sound

/-- The state after reset, and after power-on under any legal parameters, has that invariant. -/
def Obligations.PowerOnIsSound : Prop :=
  State.reset.Sound ∧ ∀ p : Params, p.legal = true → (State.powerOn p).Sound

/-! ### Encoding (30_encoding) -/

/-- Decode and encode agree (R110 to R123): every instruction that fits its format decodes from its own frame, every operand at every
value the encoding admits. -/
def Obligations.DecodeInvertsEncode : Prop :=
  ∀ i : Instr, i.encodable = true → decode (encode i) = .ok i

/-- Encode and decode agree (R110 to R124): a frame that decodes is the encoding of what it decodes to, which fits its format; no bit
of a word is lost. -/
def Obligations.EncodeInvertsDecode : Prop :=
  ∀ (f : Frame) (i : Instr), decode f = .ok i → encode i = f ∧ i.encodable = true

/-- From R113, R116, R119, R120 and R125: words written out from the spec's formats decode to their instructions. -/
def Obligations.WrittenOutWordsDecode : Prop :=
  decode (.ctl 0x141400000#36) = .ok (.setPitch 0x41400000#32) ∧
  decode (.ctl 0x200000309#36) = .ok (.setGrainSize 0x309#32) ∧
  decode (.buf .obuf 0x500040000#36 []) = .ok (.read .obuf true 4#16 0#16) ∧
  decode (.rom 0x00028001#30) = .ok (.lookup 5#15 1#15) ∧
  decode (.rsmp 0x000140000000#45 [0x40400000#32]) = .ok (.resample 0x40000000#32 [0x40400000#32])

/-! ### Binary32 (00_scope R20, R24) -/

/-- From R20 and R24: fadd of finite words is finite exactly when the exact sum is below the overflow threshold, and is then a nearest
binary32 value to it, the even one where two are as near. -/
def Obligations.FaddIsRoundedToNearestEven : Prop :=
  ∀ a b : Word, F32.isFinite a = true → F32.isFinite b = true →
    (F32.isFinite (fadd a b) = true ↔ (F32.scaled a + F32.scaled b).natAbs < (2 ^ 25 - 1) * 2 ^ 252) ∧
    (F32.isFinite (fadd a b) = true → ∀ w : Word, F32.isFinite w = true →
      (F32.scaled (fadd a b) - (F32.scaled a + F32.scaled b)).natAbs ≤
        (F32.scaled w - (F32.scaled a + F32.scaled b)).natAbs ∧
      ((F32.scaled (fadd a b) - (F32.scaled a + F32.scaled b)).natAbs =
        (F32.scaled w - (F32.scaled a + F32.scaled b)).natAbs →
        F32.scaled w = F32.scaled (fadd a b) ∨ (fadd a b).toNat % 2 = 0))

/-- From R20 and R24: fmul of finite words is finite exactly when the exact product is below the overflow threshold, and is then a nearest
binary32 value to it, the even one where two are as near. -/
def Obligations.FmulIsRoundedToNearestEven : Prop :=
  ∀ a b : Word, F32.isFinite a = true → F32.isFinite b = true →
    (F32.isFinite (fmul a b) = true ↔ (F32.scaled a * F32.scaled b).natAbs < (2 ^ 25 - 1) * 2 ^ 401) ∧
    (F32.isFinite (fmul a b) = true → ∀ w : Word, F32.isFinite w = true →
      (F32.scaled (fmul a b) * 2 ^ 149 - F32.scaled a * F32.scaled b).natAbs ≤
        (F32.scaled w * 2 ^ 149 - F32.scaled a * F32.scaled b).natAbs ∧
      ((F32.scaled (fmul a b) * 2 ^ 149 - F32.scaled a * F32.scaled b).natAbs =
        (F32.scaled w * 2 ^ 149 - F32.scaled a * F32.scaled b).natAbs →
        F32.scaled w = F32.scaled (fmul a b) ∨ (fmul a b).toNat % 2 = 0))
end

