-- ==== Sys2Proof/Laws/Decode.lean ====
section
/-! SUPPORT. The fields of the words of 30_encoding: each field of a word built from fields, and each word rebuilt from its fields. -/

namespace Sys2Proof

@[simp] theorem ctlWord_op (op : BitVec 4) (payload : Word) : (ctlWord op payload).extractLsb' 32 4 = op := by
  ext i hi
  have h1 : ¬ (32 + i < 32) := by omega
  have h2 : 32 + i - 32 = i := by omega
  simp only [ctlWord, ← BitVec.getLsbD_eq_getElem, BitVec.getLsbD_append, BitVec.getLsbD_extractLsb', h1, h2, hi,
    if_false, decide_true, Bool.true_and]

@[simp] theorem ctlWord_payload (op : BitVec 4) (payload : Word) : (ctlWord op payload).extractLsb' 0 32 = payload := by
  ext i hi
  simp only [ctlWord, ← BitVec.getLsbD_eq_getElem, BitVec.getLsbD_append, BitVec.getLsbD_extractLsb', hi, Nat.zero_add,
    if_true, decide_true, Bool.true_and]

/-- A CTL word is its OP and its PAYLOAD. -/
theorem ctlWord_eta (w : BitVec 36) : ctlWord (w.extractLsb' 32 4) (w.extractLsb' 0 32) = w := by
  ext i hi
  simp only [ctlWord, ← BitVec.getLsbD_eq_getElem, BitVec.getLsbD_append, BitVec.getLsbD_extractLsb']
  by_cases h : i < 32
  · simp [h]
  · have h4 : i - 32 < 4 := by omega
    have h5 : 32 + (i - 32) = i := by omega
    simp [h, h4, h5]

@[simp] theorem bufWord_op (op : BitVec 3) (z : Bool) (a off : BitVec 16) :
    (bufWord op z a off).extractLsb' 33 3 = op := by
  ext i hi
  have h1 : ¬ (33 + i < 16) := by omega
  have h2 : ¬ (33 + i - 16 < 16) := by omega
  have h3 : ¬ (33 + i - 16 - 16 < 1) := by omega
  have h4 : 33 + i - 16 - 16 - 1 = i := by omega
  simp only [bufWord, ← BitVec.getLsbD_eq_getElem, BitVec.getLsbD_append, BitVec.getLsbD_extractLsb', h1, h2, h3, h4, hi,
    if_false, decide_true, Bool.true_and]

@[simp] theorem bufWord_z (op : BitVec 3) (z : Bool) (a off : BitVec 16) : (bufWord op z a off).getLsbD 32 = z := by
  have h1 : ¬ (32 < 16) := by omega
  have h2 : ¬ (32 - 16 < 16) := by omega
  have h3 : 32 - 16 - 16 < 1 := by omega
  simp only [bufWord, BitVec.getLsbD_append, BitVec.getLsbD_ofBool, h1, h2, h3, if_false, if_true]
  simp

@[simp] theorem bufWord_a (op : BitVec 3) (z : Bool) (a off : BitVec 16) :
    (bufWord op z a off).extractLsb' 16 16 = a := by
  ext i hi
  have h1 : ¬ (16 + i < 16) := by omega
  have h2 : 16 + i - 16 = i := by omega
  simp only [bufWord, ← BitVec.getLsbD_eq_getElem, BitVec.getLsbD_append, BitVec.getLsbD_extractLsb', h1, h2, hi,
    if_false, if_true, decide_true, Bool.true_and]

@[simp] theorem bufWord_off (op : BitVec 3) (z : Bool) (a off : BitVec 16) :
    (bufWord op z a off).extractLsb' 0 16 = off := by
  ext i hi
  simp only [bufWord, ← BitVec.getLsbD_eq_getElem, BitVec.getLsbD_append, BitVec.getLsbD_extractLsb', hi, Nat.zero_add,
    if_true, decide_true, Bool.true_and]

/-- A BUF word is its OP, Z, A and B. -/
theorem bufWord_eta (w : BitVec 36) :
    bufWord (w.extractLsb' 33 3) (w.getLsbD 32) (w.extractLsb' 16 16) (w.extractLsb' 0 16) = w := by
  ext i hi
  simp only [bufWord, ← BitVec.getLsbD_eq_getElem, BitVec.getLsbD_append, BitVec.getLsbD_extractLsb',
    BitVec.getLsbD_ofBool]
  by_cases h1 : i < 16
  · simp [h1]
  · by_cases h2 : i - 16 < 16
    · have : 16 + (i - 16) = i := by omega
      simp [h1, h2, this]
    · by_cases h3 : i = 32
      · subst h3; simp
      · have h4 : ¬ (i - 16 - 16 < 1) := by omega
        have h5 : i - 16 - 16 - 1 < 3 := by omega
        have h6 : 33 + (i - 16 - 16 - 1) = i := by omega
        simp only [h1, h2, h4, if_false, h5, h6, decide_true, Bool.true_and]

/-- The count of a side bus that fits its field. -/
theorem busCount_toNat {din : List Word} (h : din.length < 2 ^ 16) : (busCount din).toNat = din.length := by
  rw [busCount, BitVec.toNat_ofNat, Nat.mod_eq_of_lt h]

/-- The number of the OP field of a CTL word. -/
theorem ctl_op_toNat (w : BitVec 36) : (w.extractLsb' 32 4).toNat = w.toNat / 2 ^ 32 := by
  have := w.isLt
  simp only [BitVec.extractLsb'_toNat, Nat.shiftRight_eq_div_pow]
  omega

/-- The number of the PAYLOAD field of a CTL word. -/
theorem ctl_payload_toNat (w : BitVec 36) : (w.extractLsb' 0 32).toNat = w.toNat % 2 ^ 32 := by
  simp only [BitVec.extractLsb'_toNat, Nat.shiftRight_zero]

end Sys2Proof
end

