-- ==== Sys2Proof/Laws/State.lean ====
section
/-! SUPPORT. The small lemmas of State: what each update leaves in each field, true by rfl, and the views of a state that updates keep. -/

namespace Sys2Proof.Machine

@[simp] theorem State.raise_params (s : State) (c : FaultCode) : (s.raise c).params = s.params := rfl
@[simp] theorem State.raise_seq (s : State) (c : FaultCode) : (s.raise c).seq = .faulted := rfl
@[simp] theorem State.raise_fault (s : State) (c : FaultCode) : (s.raise c).fault = if s.fault = 0#4 then c.bits else s.fault := rfl
@[simp] theorem State.raise_grainSize (s : State) (c : FaultCode) : (s.raise c).grainSize = s.grainSize := rfl
@[simp] theorem State.raise_hopSize (s : State) (c : FaultCode) : (s.raise c).hopSize = s.hopSize := rfl
@[simp] theorem State.raise_pitchRatio (s : State) (c : FaultCode) : (s.raise c).pitchRatio = s.pitchRatio := rfl
@[simp] theorem State.raise_primed (s : State) (c : FaultCode) : (s.raise c).primed = s.primed := rfl
@[simp] theorem State.raise_synthLen (s : State) (c : FaultCode) : (s.raise c).synthLen = s.synthLen := rfl
@[simp] theorem State.raise_ibuf (s : State) (c : FaultCode) : (s.raise c).ibuf = s.ibuf := rfl
@[simp] theorem State.raise_obuf (s : State) (c : FaultCode) : (s.raise c).obuf = s.obuf := rfl
@[simp] theorem State.raise_pendPitchV (s : State) (c : FaultCode) : (s.raise c).pendPitchV = s.pendPitchV := rfl
@[simp] theorem State.raise_pendRatio (s : State) (c : FaultCode) : (s.raise c).pendRatio = s.pendRatio := rfl
@[simp] theorem State.raise_pendGsV (s : State) (c : FaultCode) : (s.raise c).pendGsV = s.pendGsV := rfl
@[simp] theorem State.raise_pendGs (s : State) (c : FaultCode) : (s.raise c).pendGs = s.pendGs := rfl
@[simp] theorem State.raise_pendRst (s : State) (c : FaultCode) : (s.raise c).pendRst = s.pendRst := rfl
@[simp] theorem State.raise_resp (s : State) (c : FaultCode) : (s.raise c).resp = .none := rfl
@[simp] theorem State.raise_inbox (s : State) (c : FaultCode) : (s.raise c).inbox = s.inbox := rfl

@[simp] theorem State.accept_params (s : State) (rest : List Event) : (s.accept rest).params = s.params := rfl
@[simp] theorem State.accept_seq (s : State) (rest : List Event) : (s.accept rest).seq = s.seq := rfl
@[simp] theorem State.accept_fault (s : State) (rest : List Event) : (s.accept rest).fault = s.fault := rfl
@[simp] theorem State.accept_grainSize (s : State) (rest : List Event) : (s.accept rest).grainSize = s.grainSize := rfl
@[simp] theorem State.accept_hopSize (s : State) (rest : List Event) : (s.accept rest).hopSize = s.hopSize := rfl
@[simp] theorem State.accept_pitchRatio (s : State) (rest : List Event) : (s.accept rest).pitchRatio = s.pitchRatio := rfl
@[simp] theorem State.accept_primed (s : State) (rest : List Event) : (s.accept rest).primed = s.primed := rfl
@[simp] theorem State.accept_synthLen (s : State) (rest : List Event) : (s.accept rest).synthLen = s.synthLen := rfl
@[simp] theorem State.accept_ibuf (s : State) (rest : List Event) : (s.accept rest).ibuf = s.ibuf := rfl
@[simp] theorem State.accept_obuf (s : State) (rest : List Event) : (s.accept rest).obuf = s.obuf := rfl
@[simp] theorem State.accept_pendPitchV (s : State) (rest : List Event) : (s.accept rest).pendPitchV = s.pendPitchV := rfl
@[simp] theorem State.accept_pendRatio (s : State) (rest : List Event) : (s.accept rest).pendRatio = s.pendRatio := rfl
@[simp] theorem State.accept_pendGsV (s : State) (rest : List Event) : (s.accept rest).pendGsV = s.pendGsV := rfl
@[simp] theorem State.accept_pendGs (s : State) (rest : List Event) : (s.accept rest).pendGs = s.pendGs := rfl
@[simp] theorem State.accept_pendRst (s : State) (rest : List Event) : (s.accept rest).pendRst = s.pendRst := rfl
@[simp] theorem State.accept_resp (s : State) (rest : List Event) : (s.accept rest).resp = .none := rfl
@[simp] theorem State.accept_inbox (s : State) (rest : List Event) : (s.accept rest).inbox = rest := rfl

@[simp] theorem State.primeCheck_params (s : State) : (s.primeCheck).params = s.params := rfl
@[simp] theorem State.primeCheck_seq (s : State) : (s.primeCheck).seq = s.seq := rfl
@[simp] theorem State.primeCheck_fault (s : State) : (s.primeCheck).fault = s.fault := rfl
@[simp] theorem State.primeCheck_grainSize (s : State) : (s.primeCheck).grainSize = s.grainSize := rfl
@[simp] theorem State.primeCheck_hopSize (s : State) : (s.primeCheck).hopSize = s.hopSize := rfl
@[simp] theorem State.primeCheck_pitchRatio (s : State) : (s.primeCheck).pitchRatio = s.pitchRatio := rfl
@[simp] theorem State.primeCheck_primed (s : State) : (s.primeCheck).primed = (s.primed || decide (s.grainSize.toNat ≤ s.obuf.cnt.toNat)) := rfl
@[simp] theorem State.primeCheck_synthLen (s : State) : (s.primeCheck).synthLen = s.synthLen := rfl
@[simp] theorem State.primeCheck_ibuf (s : State) : (s.primeCheck).ibuf = s.ibuf := rfl
@[simp] theorem State.primeCheck_obuf (s : State) : (s.primeCheck).obuf = s.obuf := rfl
@[simp] theorem State.primeCheck_pendPitchV (s : State) : (s.primeCheck).pendPitchV = s.pendPitchV := rfl
@[simp] theorem State.primeCheck_pendRatio (s : State) : (s.primeCheck).pendRatio = s.pendRatio := rfl
@[simp] theorem State.primeCheck_pendGsV (s : State) : (s.primeCheck).pendGsV = s.pendGsV := rfl
@[simp] theorem State.primeCheck_pendGs (s : State) : (s.primeCheck).pendGs = s.pendGs := rfl
@[simp] theorem State.primeCheck_pendRst (s : State) : (s.primeCheck).pendRst = s.pendRst := rfl
@[simp] theorem State.primeCheck_resp (s : State) : (s.primeCheck).resp = s.resp := rfl
@[simp] theorem State.primeCheck_inbox (s : State) : (s.primeCheck).inbox = s.inbox := rfl

@[simp] theorem State.applyPitch_params (s : State) : (s.applyPitch).params = s.params := rfl
@[simp] theorem State.applyPitch_seq (s : State) : (s.applyPitch).seq = s.seq := rfl
@[simp] theorem State.applyPitch_fault (s : State) : (s.applyPitch).fault = s.fault := rfl
@[simp] theorem State.applyPitch_grainSize (s : State) : (s.applyPitch).grainSize = s.grainSize := rfl
@[simp] theorem State.applyPitch_hopSize (s : State) : (s.applyPitch).hopSize = s.hopSize := rfl
@[simp] theorem State.applyPitch_pitchRatio (s : State) : (s.applyPitch).pitchRatio = if s.pendPitchV then s.pendRatio else s.pitchRatio := rfl
@[simp] theorem State.applyPitch_primed (s : State) : (s.applyPitch).primed = s.primed := rfl
@[simp] theorem State.applyPitch_synthLen (s : State) : (s.applyPitch).synthLen = s.synthLen := rfl
@[simp] theorem State.applyPitch_ibuf (s : State) : (s.applyPitch).ibuf = s.ibuf := rfl
@[simp] theorem State.applyPitch_obuf (s : State) : (s.applyPitch).obuf = s.obuf := rfl
@[simp] theorem State.applyPitch_pendPitchV (s : State) : (s.applyPitch).pendPitchV = false := rfl
@[simp] theorem State.applyPitch_pendRatio (s : State) : (s.applyPitch).pendRatio = s.pendRatio := rfl
@[simp] theorem State.applyPitch_pendGsV (s : State) : (s.applyPitch).pendGsV = false := rfl
@[simp] theorem State.applyPitch_pendGs (s : State) : (s.applyPitch).pendGs = s.pendGs := rfl
@[simp] theorem State.applyPitch_pendRst (s : State) : (s.applyPitch).pendRst = false := rfl
@[simp] theorem State.applyPitch_resp (s : State) : (s.applyPitch).resp = s.resp := rfl
@[simp] theorem State.applyPitch_inbox (s : State) : (s.applyPitch).inbox = s.inbox := rfl

@[simp] theorem State.powerOnReset_params (s : State) (p : Params) : (s.powerOnReset p).params = (State.powerOn p).params := rfl
@[simp] theorem State.powerOnReset_seq (s : State) (p : Params) : (s.powerOnReset p).seq = (State.powerOn p).seq := rfl
@[simp] theorem State.powerOnReset_fault (s : State) (p : Params) : (s.powerOnReset p).fault = (State.powerOn p).fault := rfl
@[simp] theorem State.powerOnReset_grainSize (s : State) (p : Params) : (s.powerOnReset p).grainSize = (State.powerOn p).grainSize := rfl
@[simp] theorem State.powerOnReset_hopSize (s : State) (p : Params) : (s.powerOnReset p).hopSize = (State.powerOn p).hopSize := rfl
@[simp] theorem State.powerOnReset_pitchRatio (s : State) (p : Params) : (s.powerOnReset p).pitchRatio = (State.powerOn p).pitchRatio := rfl
@[simp] theorem State.powerOnReset_primed (s : State) (p : Params) : (s.powerOnReset p).primed = (State.powerOn p).primed := rfl
@[simp] theorem State.powerOnReset_synthLen (s : State) (p : Params) : (s.powerOnReset p).synthLen = (State.powerOn p).synthLen := rfl
@[simp] theorem State.powerOnReset_ibuf (s : State) (p : Params) : (s.powerOnReset p).ibuf = (State.powerOn p).ibuf := rfl
@[simp] theorem State.powerOnReset_obuf (s : State) (p : Params) : (s.powerOnReset p).obuf = (State.powerOn p).obuf := rfl
@[simp] theorem State.powerOnReset_pendPitchV (s : State) (p : Params) : (s.powerOnReset p).pendPitchV = (State.powerOn p).pendPitchV := rfl
@[simp] theorem State.powerOnReset_pendRatio (s : State) (p : Params) : (s.powerOnReset p).pendRatio = (State.powerOn p).pendRatio := rfl
@[simp] theorem State.powerOnReset_pendGsV (s : State) (p : Params) : (s.powerOnReset p).pendGsV = (State.powerOn p).pendGsV := rfl
@[simp] theorem State.powerOnReset_pendGs (s : State) (p : Params) : (s.powerOnReset p).pendGs = (State.powerOn p).pendGs := rfl
@[simp] theorem State.powerOnReset_pendRst (s : State) (p : Params) : (s.powerOnReset p).pendRst = (State.powerOn p).pendRst := rfl
@[simp] theorem State.powerOnReset_resp (s : State) (p : Params) : (s.powerOnReset p).resp = (State.powerOn p).resp := rfl
@[simp] theorem State.powerOnReset_inbox (s : State) (p : Params) : (s.powerOnReset p).inbox = s.inbox := rfl

@[simp] theorem State.setBuf_params (s : State) (i : BufId) (b : Buf) : (s.setBuf i b).params = s.params := by cases i <;> rfl
@[simp] theorem State.setBuf_seq (s : State) (i : BufId) (b : Buf) : (s.setBuf i b).seq = s.seq := by cases i <;> rfl
@[simp] theorem State.setBuf_fault (s : State) (i : BufId) (b : Buf) : (s.setBuf i b).fault = s.fault := by cases i <;> rfl
@[simp] theorem State.setBuf_grainSize (s : State) (i : BufId) (b : Buf) : (s.setBuf i b).grainSize = s.grainSize := by cases i <;> rfl
@[simp] theorem State.setBuf_hopSize (s : State) (i : BufId) (b : Buf) : (s.setBuf i b).hopSize = s.hopSize := by cases i <;> rfl
@[simp] theorem State.setBuf_pitchRatio (s : State) (i : BufId) (b : Buf) : (s.setBuf i b).pitchRatio = s.pitchRatio := by cases i <;> rfl
@[simp] theorem State.setBuf_primed (s : State) (i : BufId) (b : Buf) : (s.setBuf i b).primed = s.primed := by cases i <;> rfl
@[simp] theorem State.setBuf_synthLen (s : State) (i : BufId) (b : Buf) : (s.setBuf i b).synthLen = s.synthLen := by cases i <;> rfl
@[simp] theorem State.setBuf_pendPitchV (s : State) (i : BufId) (b : Buf) : (s.setBuf i b).pendPitchV = s.pendPitchV := by cases i <;> rfl
@[simp] theorem State.setBuf_pendRatio (s : State) (i : BufId) (b : Buf) : (s.setBuf i b).pendRatio = s.pendRatio := by cases i <;> rfl
@[simp] theorem State.setBuf_pendGsV (s : State) (i : BufId) (b : Buf) : (s.setBuf i b).pendGsV = s.pendGsV := by cases i <;> rfl
@[simp] theorem State.setBuf_pendGs (s : State) (i : BufId) (b : Buf) : (s.setBuf i b).pendGs = s.pendGs := by cases i <;> rfl
@[simp] theorem State.setBuf_pendRst (s : State) (i : BufId) (b : Buf) : (s.setBuf i b).pendRst = s.pendRst := by cases i <;> rfl
@[simp] theorem State.setBuf_resp (s : State) (i : BufId) (b : Buf) : (s.setBuf i b).resp = s.resp := by cases i <;> rfl
@[simp] theorem State.setBuf_inbox (s : State) (i : BufId) (b : Buf) : (s.setBuf i b).inbox = s.inbox := by cases i <;> rfl
@[simp] theorem State.setBuf_ibuf_ibuf (s : State) (b : Buf) : (s.setBuf .ibuf b).ibuf = b := rfl
@[simp] theorem State.setBuf_ibuf_obuf (s : State) (b : Buf) : (s.setBuf .ibuf b).obuf = s.obuf := rfl
@[simp] theorem State.setBuf_obuf_ibuf (s : State) (b : Buf) : (s.setBuf .obuf b).ibuf = s.ibuf := rfl
@[simp] theorem State.setBuf_obuf_obuf (s : State) (b : Buf) : (s.setBuf .obuf b).obuf = b := rfl

@[simp] theorem State.buf_setBuf (s : State) (i : BufId) (b : Buf) : (s.setBuf i b).buf i = b := by cases i <;> rfl
@[simp] theorem State.setBuf_buf (s : State) (i : BufId) : s.setBuf i (s.buf i) = s := by cases i <;> rfl
theorem State.buf_setBuf_ne (s : State) {i j : BufId} (b : Buf) (h : j ≠ i) : (s.setBuf i b).buf j = s.buf j := by
  cases i <;> cases j <;> simp_all [State.setBuf, State.buf]

@[simp] theorem State.raise_buf (s : State) (c : FaultCode) (i : BufId) : (s.raise c).buf i = s.buf i := by cases i <;> rfl
@[simp] theorem State.accept_buf (s : State) (r : List Event) (i : BufId) : (s.accept r).buf i = s.buf i := by cases i <;> rfl
@[simp] theorem State.normGain_eq (s : State) : s.normGain = Word.half := rfl
@[simp] theorem State.overlap_eq (s : State) : s.overlap = 4 := rfl

/-- Raising twice keeps the first code (60 R311). -/
theorem State.raise_raise (s : State) (c d : FaultCode) : (s.raise c).raise d = s.raise c := by
  cases c <;> simp [State.raise, FaultCode.bits] <;> split <;> simp_all

/-- After a raise FAULT holds a code and SEQ is FAULTED. -/
theorem State.raise_fault_ne (s : State) (c : FaultCode) : (s.raise c).fault ≠ 0#4 := by
  cases c <;> simp only [State.raise_fault, FaultCode.bits] <;> split <;> simp_all

@[simp] theorem State.orRaise_ok {α : Type} (s : State) (a : α) : s.orRaise (.ok a) = .ok a := rfl
@[simp] theorem State.orRaise_error {α : Type} (s : State) (c : FaultCode) :
    s.orRaise (.error c : Except FaultCode α) = .error (s.raise c) := rfl

theorem State.orRaise_eq_ok {α : Type} {s : State} {r : Except FaultCode α} {a : α} (h : s.orRaise r = .ok a) : r = .ok a := by
  cases r <;> simp_all [State.orRaise]

theorem State.orRaise_eq_error {α : Type} {s t : State} {r : Except FaultCode α} (h : s.orRaise r = .error t) :
    ∃ c, r = .error c ∧ t = s.raise c := by
  cases r <;> simp_all [State.orRaise]

@[simp] theorem Buf.cleared_cap (cap : BitVec 16) : (Buf.cleared cap).cap = cap := rfl
@[simp] theorem Buf.cleared_rd (cap : BitVec 16) : (Buf.cleared cap).rd = 0#15 := rfl
@[simp] theorem Buf.cleared_wr (cap : BitVec 16) : (Buf.cleared cap).wr = 0#15 := rfl
@[simp] theorem Buf.cleared_cnt (cap : BitVec 16) : (Buf.cleared cap).cnt = 0#16 := rfl
@[simp] theorem Buf.cleared_data (cap : BitVec 16) : (Buf.cleared cap).data = [] := rfl

end Sys2Proof.Machine
end

