-- ==== Sys2Proof/Laws/Float.lean ====
section
/-! SUPPORT. The fields of a binary32 word and of the words the arithmetic packs. -/

namespace Sys2Proof.Machine

theorem F32.expField_lt (w : Word) : F32.expField w < 256 := Nat.mod_lt _ (by decide)

theorem F32.fracField_lt (w : Word) : F32.fracField w < 2 ^ 23 := Nat.mod_lt _ (by decide)

/-- The 31 bits below the sign are the exponent and the fraction. -/
theorem F32.low31 (w : Word) : w.toNat % 2 ^ 31 = F32.expField w * 2 ^ 23 + F32.fracField w := by
  have := w.isLt
  simp only [F32.expField, F32.fracField]
  omega

theorem F32.pack_toNat {m : Nat} (neg : Bool) (h : m < 2 ^ 31) :
    (F32.pack neg m).toNat = if neg then m + 2 ^ 31 else m := by
  unfold F32.pack
  rw [BitVec.toNat_ofNat, Nat.mod_eq_of_lt]
  split <;> omega

theorem F32.sign_pack {m : Nat} (neg : Bool) (h : m < 2 ^ 31) : F32.sign (F32.pack neg m) = neg := by
  rw [F32.sign, F32.pack_toNat neg h]
  cases neg
  · simp only [Bool.false_eq_true, if_false, decide_eq_false_iff_not]; omega
  · simp only [if_true, decide_eq_true_eq]; omega

theorem F32.expField_pack {m : Nat} (neg : Bool) (h : m < 2 ^ 31) : F32.expField (F32.pack neg m) = m / 2 ^ 23 := by
  rw [F32.expField, F32.pack_toNat neg h]
  cases neg <;> simp only [if_true, Bool.false_eq_true, if_false] <;> omega

theorem F32.fracField_pack {m : Nat} (neg : Bool) (h : m < 2 ^ 31) : F32.fracField (F32.pack neg m) = m % 2 ^ 23 := by
  rw [F32.fracField, F32.pack_toNat neg h]
  cases neg
  · simp only [Bool.false_eq_true, if_false]
  · simp only [if_true]; omega

theorem F32.roundMag_le (n k : Nat) : F32.roundMag n k ≤ 0x7F800000 := by
  unfold F32.roundMag
  split
  · omega
  · dsimp only
    split
    · omega
    · exact le_refl _

theorem F32.mag_of_low31_eq {v w : Word} (h : v.toNat % 2 ^ 31 = w.toNat % 2 ^ 31) : F32.mag v = F32.mag w := by
  have he : F32.expField v = F32.expField w := by simp only [F32.expField]; omega
  have hf : F32.fracField v = F32.fracField w := by simp only [F32.fracField]; omega
  simp only [F32.mag, he, hf]

theorem F32.scaled_natAbs (w : Word) : (F32.scaled w).natAbs = F32.mag w := by
  unfold F32.scaled
  split <;> simp

theorem F32.mag_zero : F32.mag 0#32 = 0 := by decide

end Sys2Proof.Machine
end

