-- ==== Sys2Proof/Laws/Memory.lean ====
section
/-! SUPPORT. The laws of the cells: a read after a write, the canonical form kept by every write, and that canonical memories with equal
contents are equal data. -/

namespace Sys2Proof.Machine

@[simp] theorem Memory.read_nil (k : Nat) : Memory.read [] k = Word.silence := rfl

theorem Memory.read_cons (i : Nat) (v : Word) (m : Memory) (k : Nat) :
    Memory.read ((i, v) :: m) k = if i = k then v else Memory.read m k := rfl

theorem Memory.entry_cases (k : Nat) (v : Word) :
    (v = Word.silence ∧ Memory.entry k v = []) ∨ (v ≠ Word.silence ∧ Memory.entry k v = [(k, v)]) := by
  unfold Memory.entry Memory.unlisted
  by_cases h : v = Word.silence <;> simp [h]

/-- A write leaves every other cell alone. -/
theorem Memory.read_write_ne (m : Memory) {k k' : Nat} (v : Word) (h : k' ≠ k) :
    Memory.read (Memory.write m k v) k' = Memory.read m k' := by
  induction m with
  | nil =>
    rcases Memory.entry_cases k v with ⟨_, e⟩ | ⟨_, e⟩ <;>
      simp [Memory.write, e, Memory.read_cons, Ne.symm h]
  | cons e m ih =>
    obtain ⟨i, u⟩ := e
    simp only [Memory.write]
    split
    · simp [Memory.read_cons, ih]
    · split
      · subst_vars
        rcases Memory.entry_cases i v with ⟨_, e⟩ | ⟨_, e⟩ <;>
          simp [e, Memory.read_cons, Ne.symm h]
      · rcases Memory.entry_cases k v with ⟨_, e⟩ | ⟨_, e⟩ <;>
          simp [e, Memory.read_cons, Ne.symm h]

theorem Memory.wfFrom_cons {lo i : Nat} {v : Word} {m : Memory} :
    Memory.wfFrom lo ((i, v) :: m) = true ↔
      lo ≤ i ∧ i < Config.depthMax ∧ v ≠ Word.silence ∧ Memory.wfFrom (i + 1) m = true := by
  simp [Memory.wfFrom, Memory.unlisted, and_assoc]

theorem Memory.wfFrom_mono {lo lo' : Nat} {m : Memory} (h : lo' ≤ lo) (hm : Memory.wfFrom lo m = true) :
    Memory.wfFrom lo' m = true := by
  cases m with
  | nil => rfl
  | cons e m =>
    obtain ⟨i, v⟩ := e
    rw [Memory.wfFrom_cons] at hm ⊢
    exact ⟨le_trans h hm.1, hm.2⟩

/-- Below its first index a canonical memory reads +0.0. -/
theorem Memory.read_below {lo k : Nat} {m : Memory} (hm : Memory.wfFrom lo m = true) (h : k < lo) :
    Memory.read m k = Word.silence := by
  induction m generalizing lo with
  | nil => rfl
  | cons e m ih =>
    obtain ⟨i, v⟩ := e
    rw [Memory.wfFrom_cons] at hm
    rw [Memory.read_cons, if_neg (by omega)]
    exact ih hm.2.2.2 (by omega)

theorem Memory.wfFrom_entry_append {lo k : Nat} (v : Word) {m : Memory} (hk : lo ≤ k) (hd : k < Config.depthMax)
    (hm : Memory.wfFrom (k + 1) m = true) : Memory.wfFrom lo (Memory.entry k v ++ m) = true := by
  rcases Memory.entry_cases k v with ⟨_, e⟩ | ⟨hv, e⟩ <;> rw [e]
  · exact Memory.wfFrom_mono (by omega) hm
  · exact Memory.wfFrom_cons.2 ⟨hk, hd, hv, hm⟩

/-- Every write to a cell of the storage keeps the canonical form. -/
theorem Memory.wfFrom_write {lo : Nat} {m : Memory} {k : Nat} (v : Word) (hk : lo ≤ k) (hd : k < Config.depthMax)
    (hm : Memory.wfFrom lo m = true) : Memory.wfFrom lo (Memory.write m k v) = true := by
  induction m generalizing lo with
  | nil => simpa [Memory.write] using Memory.wfFrom_entry_append v hk hd (m := []) rfl
  | cons e m ih =>
    obtain ⟨i, u⟩ := e
    rw [Memory.wfFrom_cons] at hm
    simp only [Memory.write]
    split
    · exact Memory.wfFrom_cons.2 ⟨hm.1, hm.2.1, hm.2.2.1, ih (by omega) hm.2.2.2⟩
    · split
      · subst_vars
        exact Memory.wfFrom_entry_append v hk hd hm.2.2.2
      · exact Memory.wfFrom_entry_append v hk hd
          (Memory.wfFrom_cons.2 ⟨by omega, hm.2.1, hm.2.2.1, hm.2.2.2⟩)

theorem Memory.wf_write {m : Memory} {k : Nat} (v : Word) (hd : k < Config.depthMax) (hm : Memory.wf m = true) :
    Memory.wf (Memory.write m k v) = true :=
  Memory.wfFrom_write v (Nat.zero_le k) hd hm

/-- A read after a write to the same cell gives the value written. -/
theorem Memory.read_write_self {lo : Nat} {m : Memory} (k : Nat) (v : Word) (hm : Memory.wfFrom lo m = true) :
    Memory.read (Memory.write m k v) k = v := by
  have hself : ∀ m' : Memory, Memory.wfFrom (k + 1) m' = true → Memory.read (Memory.entry k v ++ m') k = v := by
    intro m' h
    rcases Memory.entry_cases k v with ⟨hv, e⟩ | ⟨_, e⟩ <;> rw [e]
    · simpa [hv] using Memory.read_below h (Nat.lt_succ_self k)
    · simp [Memory.read_cons]
  induction m generalizing lo with
  | nil => simpa [Memory.write] using hself [] rfl
  | cons e m ih =>
    obtain ⟨i, u⟩ := e
    rw [Memory.wfFrom_cons] at hm
    simp only [Memory.write]
    split
    · rw [Memory.read_cons, if_neg (by omega), ih hm.2.2.2]
    · split
      · subst_vars
        exact hself m hm.2.2.2
      · exact hself _ (Memory.wfFrom_cons.2 ⟨by omega, hm.2.1, hm.2.2.1, hm.2.2.2⟩)

theorem Memory.read_write {m : Memory} (k k' : Nat) (v : Word) (hm : Memory.wf m = true) :
    Memory.read (Memory.write m k v) k' = if k' = k then v else Memory.read m k' := by
  split
  · subst_vars; exact Memory.read_write_self _ v hm
  · exact Memory.read_write_ne m v ‹_›

/-- Canonical memories with equal contents are equal data. -/
theorem Memory.ext_of_wfFrom {lo : Nat} {m m' : Memory} (h : Memory.wfFrom lo m = true) (h' : Memory.wfFrom lo m' = true)
    (hr : ∀ k, Memory.read m k = Memory.read m' k) : m = m' := by
  induction m generalizing lo m' with
  | nil =>
    cases m' with
    | nil => rfl
    | cons e m' =>
      obtain ⟨i, v⟩ := e
      rw [Memory.wfFrom_cons] at h'
      exact absurd (by simpa [Memory.read_cons] using (hr i).symm) h'.2.2.1
  | cons e m ih =>
    obtain ⟨i, v⟩ := e
    have hc := Memory.wfFrom_cons.1 h
    cases m' with
    | nil => exact absurd (by simpa [Memory.read_cons] using hr i) hc.2.2.1
    | cons e' m' =>
      obtain ⟨j, u⟩ := e'
      have hc' := Memory.wfFrom_cons.1 h'
      have hij : i = j := by
        by_contra hne
        rcases Nat.lt_or_gt_of_ne hne with hlt | hlt
        · have := hr i
          rw [Memory.read_cons, if_pos rfl, Memory.read_cons, if_neg (by omega),
            Memory.read_below hc'.2.2.2 (by omega)] at this
          exact hc.2.2.1 this
        · have := hr j
          rw [Memory.read_cons, if_neg (by omega), Memory.read_below hc.2.2.2 (by omega), Memory.read_cons,
            if_pos rfl] at this
          exact hc'.2.2.1 this.symm
      subst hij
      have hvu : v = u := by simpa [Memory.read_cons] using hr i
      subst hvu
      congr 1
      refine ih hc.2.2.2 hc'.2.2.2 fun k => ?_
      by_cases hk : i = k
      · subst hk
        rw [Memory.read_below hc.2.2.2 (by omega), Memory.read_below hc'.2.2.2 (by omega)]
      · simpa [Memory.read_cons, hk] using hr k

theorem Memory.ext {m m' : Memory} (h : Memory.wf m = true) (h' : Memory.wf m' = true)
    (hr : ∀ k, Memory.read m k = Memory.read m' k) : m = m' :=
  Memory.ext_of_wfFrom h h' hr

/-- Listed indices stay below a bound that the written index is below. -/
theorem Memory.all_lt_write {m : Memory} {k cap : Nat} (v : Word) (hk : k < cap)
    (hm : m.all (fun e => decide (e.1 < cap)) = true) :
    (Memory.write m k v).all (fun e => decide (e.1 < cap)) = true := by
  induction m with
  | nil =>
    rcases Memory.entry_cases k v with ⟨_, e⟩ | ⟨_, e⟩ <;> simp [Memory.write, e, hk]
  | cons e m ih =>
    obtain ⟨i, u⟩ := e
    simp only [List.all_cons, Bool.and_eq_true, decide_eq_true_eq] at hm
    simp only [Memory.write]
    split
    · simp only [List.all_cons, Bool.and_eq_true, decide_eq_true_eq]
      exact ⟨hm.1, ih hm.2⟩
    · split
      · rcases Memory.entry_cases k v with ⟨_, e⟩ | ⟨_, e⟩ <;> rw [e] <;> simp [-List.all_eq_true, hm.2, hk]
      · rcases Memory.entry_cases k v with ⟨_, e⟩ | ⟨_, e⟩ <;> rw [e] <;> simp [-List.all_eq_true, hm.1, hm.2, hk]

/-- A cell at or above the bound of every listed index reads +0.0 (20_memory R82). -/
theorem Memory.read_above {m : Memory} {k cap : Nat} (hk : cap ≤ k)
    (hm : m.all (fun e => decide (e.1 < cap)) = true) : Memory.read m k = Word.silence := by
  induction m with
  | nil => rfl
  | cons e m ih =>
    obtain ⟨i, u⟩ := e
    simp only [List.all_cons, Bool.and_eq_true, decide_eq_true_eq] at hm
    rw [Memory.read_cons, if_neg (by omega), ih hm.2]

end Sys2Proof.Machine
end

