-- ==== Sys2Proof/Laws/Ops.lean ====
section
/-! SUPPORT. The laws of the buffer operations: what each loop leaves in the cells and the cursors, that each keeps the canonical form,
and one inversion lemma for each operation of 40_circular_sample_buffer. -/

namespace Sys2Proof.Machine

/-! ### One cell -/

@[simp] theorem Buf.memWrite_cap (b : Buf) (k : Nat) (v : Word) : (b.memWrite k v).cap = b.cap := rfl
@[simp] theorem Buf.memWrite_rd (b : Buf) (k : Nat) (v : Word) : (b.memWrite k v).rd = b.rd := rfl
@[simp] theorem Buf.memWrite_wr (b : Buf) (k : Nat) (v : Word) : (b.memWrite k v).wr = b.wr := rfl
@[simp] theorem Buf.memWrite_cnt (b : Buf) (k : Nat) (v : Word) : (b.memWrite k v).cnt = b.cnt := rfl
@[simp] theorem Buf.memWrite_data (b : Buf) (k : Nat) (v : Word) :
    (b.memWrite k v).data = Memory.write b.data (k % b.cap.toNat) v := rfl

/-- The cells of a buffer are in order: a usable capacity, the canonical form, nothing listed at or above CAP. -/
abbrev Buf.CellsOk (b : Buf) : Prop :=
  1 ≤ b.cap.toNat ∧ b.cap.toNat ≤ Config.depthMax ∧ Memory.wf b.data = true ∧
  b.data.all (fun e => decide (e.1 < b.cap.toNat)) = true

theorem Buf.Sound.cellsOk {b : Buf} (h : b.Sound) : b.CellsOk :=
  ⟨h.1, h.2.1, h.2.2.2.2.2.2.1, h.2.2.2.2.2.2.2⟩

theorem Buf.memWrite_cellsOk {b : Buf} (k : Nat) (v : Word) (h : b.CellsOk) : (b.memWrite k v).CellsOk := by
  obtain ⟨h1, h2, h3, h4⟩ := h
  have hk : k % b.cap.toNat < b.cap.toNat := Nat.mod_lt _ (by omega)
  exact ⟨h1, h2, Memory.wf_write v (by omega) h3, Memory.all_lt_write v hk h4⟩

theorem Buf.memRead_memWrite {b : Buf} (h : b.CellsOk) (k k' : Nat) (v : Word) :
    (b.memWrite k v).memRead k' = if k' % b.cap.toNat = k % b.cap.toNat then v else b.memRead k' :=
  Memory.read_write _ _ v h.2.2.1

/-! ### The loops leave the registers alone -/

theorem Buf.writeCells_regs (b : Buf) (k : Nat) (v : List Word) :
    (b.writeCells k v).cap = b.cap ∧ (b.writeCells k v).rd = b.rd ∧ (b.writeCells k v).wr = b.wr ∧
    (b.writeCells k v).cnt = b.cnt := by
  induction v generalizing b k with
  | nil => exact ⟨rfl, rfl, rfl, rfl⟩
  | cons x v ih => simpa [Buf.writeCells] using ih (b.memWrite k x) (k + 1)

@[simp] theorem Buf.writeCells_cap (b : Buf) (k : Nat) (v : List Word) : (b.writeCells k v).cap = b.cap :=
  (b.writeCells_regs k v).1
@[simp] theorem Buf.writeCells_rd (b : Buf) (k : Nat) (v : List Word) : (b.writeCells k v).rd = b.rd :=
  (b.writeCells_regs k v).2.1
@[simp] theorem Buf.writeCells_wr (b : Buf) (k : Nat) (v : List Word) : (b.writeCells k v).wr = b.wr :=
  (b.writeCells_regs k v).2.2.1
@[simp] theorem Buf.writeCells_cnt (b : Buf) (k : Nat) (v : List Word) : (b.writeCells k v).cnt = b.cnt :=
  (b.writeCells_regs k v).2.2.2

theorem Buf.accumCells_regs (add : Word → Word → Word) (b : Buf) (k : Nat) (v : List Word) :
    (Buf.accumCells add b k v).cap = b.cap ∧ (Buf.accumCells add b k v).rd = b.rd ∧
    (Buf.accumCells add b k v).wr = b.wr ∧ (Buf.accumCells add b k v).cnt = b.cnt := by
  induction v generalizing b k with
  | nil => exact ⟨rfl, rfl, rfl, rfl⟩
  | cons x v ih => simpa [Buf.accumCells] using ih (b.memWrite k (add (b.memRead k) x)) (k + 1)

@[simp] theorem Buf.accumCells_cap (add : Word → Word → Word) (b : Buf) (k : Nat) (v : List Word) :
    (Buf.accumCells add b k v).cap = b.cap := (b.accumCells_regs add k v).1
@[simp] theorem Buf.accumCells_rd (add : Word → Word → Word) (b : Buf) (k : Nat) (v : List Word) :
    (Buf.accumCells add b k v).rd = b.rd := (b.accumCells_regs add k v).2.1
@[simp] theorem Buf.accumCells_wr (add : Word → Word → Word) (b : Buf) (k : Nat) (v : List Word) :
    (Buf.accumCells add b k v).wr = b.wr := (b.accumCells_regs add k v).2.2.1
@[simp] theorem Buf.accumCells_cnt (add : Word → Word → Word) (b : Buf) (k : Nat) (v : List Word) :
    (Buf.accumCells add b k v).cnt = b.cnt := (b.accumCells_regs add k v).2.2.2

theorem Buf.takeCells_regs (z : Bool) (b : Buf) (k n : Nat) :
    (b.takeCells z k n).1.cap = b.cap ∧ (b.takeCells z k n).1.rd = b.rd ∧ (b.takeCells z k n).1.wr = b.wr ∧
    (b.takeCells z k n).1.cnt = b.cnt := by
  induction n generalizing b k with
  | zero => exact ⟨rfl, rfl, rfl, rfl⟩
  | succ n ih =>
    have h := ih (if z then b.memWrite k Word.silence else b) (k + 1)
    cases z <;> simpa [Buf.takeCells] using h

@[simp] theorem Buf.takeCells_cap (z : Bool) (b : Buf) (k n : Nat) : (b.takeCells z k n).1.cap = b.cap :=
  (b.takeCells_regs z k n).1
@[simp] theorem Buf.takeCells_rd (z : Bool) (b : Buf) (k n : Nat) : (b.takeCells z k n).1.rd = b.rd :=
  (b.takeCells_regs z k n).2.1
@[simp] theorem Buf.takeCells_wr (z : Bool) (b : Buf) (k n : Nat) : (b.takeCells z k n).1.wr = b.wr :=
  (b.takeCells_regs z k n).2.2.1
@[simp] theorem Buf.takeCells_cnt (z : Bool) (b : Buf) (k n : Nat) : (b.takeCells z k n).1.cnt = b.cnt :=
  (b.takeCells_regs z k n).2.2.2

@[simp] theorem Buf.readCells_length (b : Buf) (k n : Nat) : (b.readCells k n).length = n := by
  induction n generalizing k with
  | zero => rfl
  | succ n ih => simp [Buf.readCells, ih]

@[simp] theorem Buf.takeCells_length (z : Bool) (b : Buf) (k n : Nat) : (b.takeCells z k n).2.length = n := by
  induction n generalizing b k with
  | zero => rfl
  | succ n ih => simp [Buf.takeCells, ih]

/-! ### The loops keep the canonical form -/

theorem Buf.writeCells_cellsOk {b : Buf} (k : Nat) (v : List Word) (h : b.CellsOk) : (b.writeCells k v).CellsOk := by
  induction v generalizing b k with
  | nil => exact h
  | cons x v ih => exact ih (k + 1) (Buf.memWrite_cellsOk k x h)

theorem Buf.accumCells_cellsOk (add : Word → Word → Word) {b : Buf} (k : Nat) (v : List Word) (h : b.CellsOk) :
    (Buf.accumCells add b k v).CellsOk := by
  induction v generalizing b k with
  | nil => exact h
  | cons x v ih => exact ih (k + 1) (Buf.memWrite_cellsOk k _ h)

theorem Buf.takeCells_cellsOk (z : Bool) {b : Buf} (k n : Nat) (h : b.CellsOk) : (b.takeCells z k n).1.CellsOk := by
  induction n generalizing b k with
  | zero => exact h
  | succ n ih =>
    refine ih (k + 1) ?_
    cases z
    · exact h
    · exact Buf.memWrite_cellsOk k Word.silence h

/-- CLEAR leaves canonical, empty cells. -/
theorem Buf.cleared_cellsOk {cap : BitVec 16} (h1 : 1 ≤ cap.toNat) (h2 : cap.toNat ≤ Config.depthMax) :
    (Buf.cleared cap).CellsOk := ⟨h1, h2, rfl, rfl⟩

/-! ### What the loops leave in the cells -/

/-- Two element numbers less than a capacity apart touch different cells. -/
theorem mod_ne_of_lt_of_sub_lt {a c m : Nat} (h : a < c) (h' : c - a < m) : c % m ≠ a % m := by
  intro he
  have hd : m ∣ c - a := (Nat.modEq_iff_dvd' (by omega)).1 (show a % m = c % m from he.symm)
  exact absurd (Nat.le_of_dvd (by omega) hd) (by omega)

theorem Buf.readCells_getElem (b : Buf) (k n j : Nat) (h : j < (b.readCells k n).length) :
    (b.readCells k n)[j] = b.memRead (k + j) := by
  induction n generalizing k j with
  | zero => simp [Buf.readCells] at h
  | succ n ih =>
    cases j with
    | zero => rfl
    | succ j => simpa [Buf.readCells, Nat.add_comm, Nat.add_left_comm] using ih (k + 1) j (by simpa [Buf.readCells] using h)

/-- A cell that no element of the span touches is left alone by WRITE's loop. -/
theorem Buf.writeCells_read_outside (b : Buf) (k : Nat) (v : List Word) (c : Nat)
    (h : ∀ j < v.length, c ≠ (k + j) % b.cap.toNat) :
    Memory.read (b.writeCells k v).data c = Memory.read b.data c := by
  induction v generalizing b k with
  | nil => rfl
  | cons x v ih =>
    have h0 := h 0 (by simp)
    rw [Buf.writeCells, ih]
    · exact Memory.read_write_ne _ _ (by simpa using h0)
    · intro j hj
      have := h (j + 1) (by simpa using hj)
      simpa [Nat.add_comm, Nat.add_left_comm, Nat.add_assoc] using this

/-- A cell that no element of the span touches is left alone by ACCUM's loop. -/
theorem Buf.accumCells_read_outside (add : Word → Word → Word) (b : Buf) (k : Nat) (v : List Word) (c : Nat)
    (h : ∀ j < v.length, c ≠ (k + j) % b.cap.toNat) :
    Memory.read (Buf.accumCells add b k v).data c = Memory.read b.data c := by
  induction v generalizing b k with
  | nil => rfl
  | cons x v ih =>
    have h0 := h 0 (by simp)
    rw [Buf.accumCells, ih]
    · exact Memory.read_write_ne _ _ (by simpa using h0)
    · intro j hj
      have := h (j + 1) (by simpa using hj)
      simpa [Nat.add_comm, Nat.add_left_comm, Nat.add_assoc] using this

/-- Element j of a span no longer than CAP is in its cell after WRITE's loop. -/
theorem Buf.writeCells_read (b : Buf) (hb : b.CellsOk) (k : Nat) (v : List Word) (hv : v.length ≤ b.cap.toNat)
    (j : Nat) (hj : j < v.length) : (b.writeCells k v).memRead (k + j) = v[j] := by
  induction v generalizing b k j with
  | nil => simp at hj
  | cons x v ih =>
    simp only [List.length_cons] at hv hj
    cases j with
    | zero =>
      rw [Buf.writeCells, Buf.memRead, Buf.writeCells_cap, Buf.writeCells_read_outside]
      · simpa [Buf.memRead] using Buf.memRead_memWrite hb k k x
      · intro i hi
        simp only [Buf.memWrite_cap, Nat.add_zero]
        exact fun he => mod_ne_of_lt_of_sub_lt (a := k) (c := k + 1 + i) (by omega) (by omega) he.symm
    | succ j =>
      have := ih (b.memWrite k x) (Buf.memWrite_cellsOk k x hb) (k + 1) (by simpa using Nat.le_of_succ_le hv) j (by omega)
      simpa [Buf.writeCells, Nat.add_comm, Nat.add_left_comm] using this

/-- Element j of a span no longer than CAP is added to its cell's old value by ACCUM's loop. -/
theorem Buf.accumCells_read (add : Word → Word → Word) (b : Buf) (hb : b.CellsOk) (k : Nat) (v : List Word)
    (hv : v.length ≤ b.cap.toNat) (j : Nat) (hj : j < v.length) :
    (Buf.accumCells add b k v).memRead (k + j) = add (b.memRead (k + j)) v[j] := by
  induction v generalizing b k j with
  | nil => simp at hj
  | cons x v ih =>
    simp only [List.length_cons] at hv hj
    cases j with
    | zero =>
      rw [Buf.accumCells, Buf.memRead, Buf.accumCells_cap, Buf.accumCells_read_outside]
      · simpa [Buf.memRead] using Buf.memRead_memWrite hb k k (add (b.memRead k) x)
      · intro i hi
        simp only [Buf.memWrite_cap, Nat.add_zero]
        exact fun he => mod_ne_of_lt_of_sub_lt (a := k) (c := k + 1 + i) (by omega) (by omega) he.symm
    | succ j =>
      have := ih (b.memWrite k (add (b.memRead k) x)) (Buf.memWrite_cellsOk k _ hb) (k + 1)
        (by simpa using Nat.le_of_succ_le hv) j (by omega)
      have hne : (k + (j + 1)) % b.cap.toNat ≠ k % b.cap.toNat := mod_ne_of_lt_of_sub_lt (by omega) (by omega)
      rw [Buf.accumCells, show k + (j + 1) = k + 1 + j by omega, this, Buf.memRead_memWrite hb,
        if_neg (by rwa [show k + 1 + j = k + (j + 1) by omega])]
      rfl

/-- A span no longer than CAP is read as it stood before READ's loop zeroed anything. -/
theorem Buf.takeCells_samples (z : Bool) (b : Buf) (hb : b.CellsOk) (k n : Nat) (hn : n ≤ b.cap.toNat) :
    (b.takeCells z k n).2 = b.readCells k n := by
  have key : ∀ (n : Nat) (k' : Nat) (b' : Buf), b'.CellsOk → b'.cap = b.cap →
      (∀ j < n, b'.memRead (k' + j) = b.memRead (k' + j)) → n ≤ b.cap.toNat →
      (b'.takeCells z k' n).2 = b.readCells k' n := by
    intro n
    induction n with
    | zero => intro k' b' _ _ _ _; rfl
    | succ n ih =>
      intro k' b' hok hcap hread hle
      simp only [Buf.takeCells, Buf.readCells]
      congr 1
      · simpa using hread 0 (by omega)
      · refine ih (k' + 1) _ ?_ ?_ ?_ (by omega)
        · cases z
          · exact hok
          · exact Buf.memWrite_cellsOk _ _ hok
        · cases z <;> simp [hcap]
        · intro j hj
          have hj' := hread (j + 1) (by omega)
          rw [show k' + (j + 1) = k' + 1 + j by omega] at hj'
          cases z
          · simpa using hj'
          · simp only [if_true]
            rw [Buf.memRead_memWrite hok, if_neg, hj']
            rw [hcap]
            exact mod_ne_of_lt_of_sub_lt (by omega) (by omega)
  exact key n k b hb rfl (fun _ _ => rfl) hn

/-- What READ's loop leaves in a cell: +0.0 where the zero flag is set and the span touches it, else its old value. -/
theorem Buf.takeCells_read (z : Bool) (b : Buf) (hb : b.CellsOk) (k n c : Nat) :
    Memory.read (b.takeCells z k n).1.data c =
      if z = true ∧ ∃ j < n, c = (k + j) % b.cap.toNat then Word.silence else Memory.read b.data c := by
  induction n generalizing b k with
  | zero => simp [Buf.takeCells]
  | succ n ih =>
    cases z with
    | false => simpa [Buf.takeCells] using ih b hb (k + 1)
    | true =>
      have h := ih (b.memWrite k Word.silence) (Buf.memWrite_cellsOk k _ hb) (k + 1)
      simp only [Buf.takeCells, if_true, true_and, Buf.memWrite_cap, Buf.memWrite_data] at h ⊢
      rw [h, Memory.read_write _ _ _ hb.2.2.1]
      by_cases hc : c = k % b.cap.toNat
      · have : ∃ j < n + 1, c = (k + j) % b.cap.toNat := ⟨0, by omega, by simpa using hc⟩
        rw [if_pos this]; simp [hc]
      · by_cases he : ∃ j < n, c = (k + 1 + j) % b.cap.toNat
        · obtain ⟨j, hj, hj'⟩ := he
          rw [if_pos ⟨j, hj, hj'⟩, if_pos ⟨j + 1, by omega, by rw [hj']; congr 1; omega⟩]
        · rw [if_neg he, if_neg hc, if_neg]
          rintro ⟨j, hj, hj'⟩
          cases j with
          | zero => exact hc (by simpa using hj')
          | succ j => exact he ⟨j, by omega, by rw [hj']; congr 1; omega⟩

/-! ### The operations: one inversion lemma each -/

/-- CLEAR answers exactly when the capacity is in range (40 R140). -/
theorem Buf.clear_eq_ok {cap : BitVec 16} {b : Buf} :
    Buf.clear cap = .ok b ↔ 1 ≤ cap.toNat ∧ cap.toNat ≤ Config.depthMax ∧ b = Buf.cleared cap := by
  unfold Buf.clear
  split
  · simp; omega
  · simp only [Except.ok.injEq]
    constructor
    · intro h; exact ⟨by omega, by omega, h.symm⟩
    · intro h; exact h.2.2.symm

/-- ADV_WR answers exactly when the samples fit (40 R146). -/
theorem Buf.advWr_eq_ok {b b' : Buf} {n : Nat} :
    b.advWr n = .ok b' ↔ b.cnt.toNat + n ≤ b.cap.toNat ∧
      b' = { b with wr := b.advance b.wr n, cnt := BitVec.ofNat 16 (b.cnt.toNat + n) } := by
  unfold Buf.advWr
  split
  · simp; omega
  · simp only [Except.ok.injEq]
    exact ⟨fun h => ⟨by omega, h.symm⟩, fun h => h.2.symm⟩

/-- ADV_RD answers exactly when enough samples are unread (40 R145). -/
theorem Buf.advRd_eq_ok {b b' : Buf} {n : Nat} :
    b.advRd n = .ok b' ↔ n ≤ b.cnt.toNat ∧
      b' = { b with rd := b.advance b.rd n, cnt := BitVec.ofNat 16 (b.cnt.toNat - n) } := by
  unfold Buf.advRd
  split
  · simp; omega
  · simp only [Except.ok.injEq]
    exact ⟨fun h => ⟨by omega, h.symm⟩, fun h => h.2.symm⟩

/-- WRITE answers exactly when the samples fit: they are stored and the cursor moves on (40 R141). -/
theorem Buf.write_eq_ok {b b' : Buf} {v : List Word} :
    b.write v = .ok b' ↔ b.cnt.toNat + v.length ≤ b.cap.toNat ∧
      b' = { b.writeCells b.wr.toNat v with
        wr := b.advance b.wr v.length, cnt := BitVec.ofNat 16 (b.cnt.toNat + v.length) } := by
  unfold Buf.write
  split
  · simp; omega
  · rw [Buf.advWr_eq_ok]
    simp [Buf.advance]

/-- READ answers exactly when enough samples are unread (40 R142). -/
theorem Buf.read_eq_ok {b b' : Buf} {n : Nat} {z : Bool} {r : List Word} :
    b.read n z = .ok (b', r) ↔ n ≤ b.cnt.toNat ∧ r = (b.takeCells z b.rd.toNat n).2 ∧
      b' = { (b.takeCells z b.rd.toNat n).1 with
        rd := b.advance b.rd n, cnt := BitVec.ofNat 16 (b.cnt.toNat - n) } := by
  unfold Buf.read
  split
  · simp; omega
  · rename_i hn
    have : (b.takeCells z b.rd.toNat n).1.advRd n = .ok { (b.takeCells z b.rd.toNat n).1 with
        rd := b.advance b.rd n, cnt := BitVec.ofNat 16 (b.cnt.toNat - n) } := by
      rw [Buf.advRd_eq_ok]
      simp [Buf.advance]
      omega
    simp only [this, Except.ok.injEq, Prod.mk.injEq]
    exact ⟨fun h => ⟨by omega, h.2.symm, h.1.symm⟩, fun h => ⟨h.2.2.symm, h.2.1.symm⟩⟩

/-- PEEK_WIN answers exactly when the span is unread (40 R143). -/
theorem Buf.peekWin_eq_ok {p : Params} {b : Buf} {off : Nat} {win r : List Word} :
    b.peekWin p off win = .ok r ↔ off + win.length ≤ b.cnt.toNat ∧
      r = List.zipWith (windowProduct p) (b.readCells (b.rd.toNat + off) win.length) win := by
  unfold Buf.peekWin
  split
  · simp; omega
  · simp only [Except.ok.injEq]
    exact ⟨fun h => ⟨by omega, h.symm⟩, fun h => h.2.symm⟩

/-- ACCUM answers exactly when the span does not reach the unread cells (40 R144). -/
theorem Buf.accum_eq_ok {p : Params} {b b' : Buf} {off : Nat} {v : List Word} :
    b.accum p off v = .ok b' ↔ b.cnt.toNat + off + v.length ≤ b.cap.toNat ∧
      b' = Buf.accumCells (accumulate p) b (b.wr.toNat + off) v := by
  unfold Buf.accum
  split
  · simp; omega
  · simp only [Except.ok.injEq]
    exact ⟨fun h => ⟨by omega, h.symm⟩, fun h => h.2.symm⟩

/-- Each operation's one fault code (60 R310). -/
theorem Buf.clear_eq_error {cap : BitVec 16} {c : FaultCode} :
    Buf.clear cap = .error c ↔ (cap.toNat = 0 ∨ Config.depthMax < cap.toNat) ∧ c = .bufIllegal := by
  unfold Buf.clear; split <;> simp_all [eq_comm]

theorem Buf.advWr_eq_error {b : Buf} {n : Nat} {c : FaultCode} :
    b.advWr n = .error c ↔ b.cap.toNat < b.cnt.toNat + n ∧ c = .bufOverflow := by
  unfold Buf.advWr; split <;> simp_all [eq_comm]

theorem Buf.advRd_eq_error {b : Buf} {n : Nat} {c : FaultCode} :
    b.advRd n = .error c ↔ b.cnt.toNat < n ∧ c = .bufUnderrun := by
  unfold Buf.advRd; split <;> simp_all [eq_comm]

theorem Buf.write_eq_error {b : Buf} {v : List Word} {c : FaultCode} :
    b.write v = .error c ↔ b.cap.toNat < b.cnt.toNat + v.length ∧ c = .bufOverflow := by
  unfold Buf.write
  split
  · simp_all [eq_comm]
  · rw [Buf.advWr_eq_error]; simp

theorem Buf.read_eq_error {b : Buf} {n : Nat} {z : Bool} {c : FaultCode} :
    b.read n z = .error c ↔ b.cnt.toNat < n ∧ c = .bufUnderrun := by
  by_cases h : b.cnt.toNat < n
  · simp [Buf.read, h, eq_comm]
  · have := (Buf.read_eq_ok (b := b) (n := n) (z := z)).2 ⟨by omega, rfl, rfl⟩
    simp [this, h]

theorem Buf.peekWin_eq_error {p : Params} {b : Buf} {off : Nat} {win : List Word} {c : FaultCode} :
    b.peekWin p off win = .error c ↔ b.cnt.toNat < off + win.length ∧ c = .bufUnderrun := by
  unfold Buf.peekWin; split <;> simp_all [eq_comm]

theorem Buf.accum_eq_error {p : Params} {b : Buf} {off : Nat} {v : List Word} {c : FaultCode} :
    b.accum p off v = .error c ↔ b.cap.toNat < b.cnt.toNat + off + v.length ∧ c = .bufOverflow := by
  unfold Buf.accum; split <;> simp_all [eq_comm]

/-- A BUF operation without dout answers a next state either way: its buffer, or the raised fault. -/
theorem State.finishBuf_cases (s : State) (i : BufId) (r : Except FaultCode Buf) :
    (∃ b, r = .ok b ∧ s.finishBuf i r = .next (s.setBuf i b)) ∨
    (∃ c, r = .error c ∧ s.finishBuf i r = .next (s.raise c)) := by
  cases r with
  | ok b => exact .inl ⟨b, rfl, rfl⟩
  | error c => exact .inr ⟨c, rfl, rfl⟩

end Sys2Proof.Machine
end

