-- ==== Sys2Proof/Laws/Rom.lean ====
section
/-! SUPPORT. The laws of the ROM and of the resampler: when each answers, and what. -/

namespace Sys2Proof.Machine

theorem romLookup_eq_ok {p : Params} {l i : Nat} {w : Word} :
    romLookup p l i = .ok w ↔ 1 ≤ l ∧ l ≤ Config.lmax ∧ i < l ∧ w = hannRom p l i := by
  unfold romLookup
  split
  · simp; omega
  · simp only [Except.ok.injEq]
    exact ⟨fun h => ⟨by omega, by omega, by omega, h.symm⟩, fun h => h.2.2.2.symm⟩

theorem romLookup_eq_error {p : Params} {l i : Nat} {c : FaultCode} :
    romLookup p l i = .error c ↔ (l < 1 ∨ Config.lmax < l ∨ l ≤ i) ∧ c = .romRange := by
  unfold romLookup; split <;> simp_all [eq_comm]

theorem romSpan_ok {p : Params} {l : Nat} (hl : l ≤ Config.lmax) :
    ∀ (n i : Nat), i + n ≤ l → romSpan p l i n = .ok ((List.range' i n).map (hannRom p l)) := by
  intro n
  induction n with
  | zero => intro i _; rfl
  | succ n ih =>
    intro i hi
    have h1 : romLookup p l i = .ok (hannRom p l i) := romLookup_eq_ok.2 ⟨by omega, hl, by omega, rfl⟩
    rw [romSpan, h1]
    simp [ih (i + 1) (by omega), List.range'_succ]

/-- The window of a length the ROM holds is ROM(l, 0), ..., ROM(l, l-1), and no LOOKUP of it faults (41 R182, R184). -/
theorem romWindow_ok (p : Params) {l : Nat} (hl : l ≤ Config.lmax) :
    romWindow p l = .ok ((List.range l).map (hannRom p l)) := by
  rw [romWindow, romSpan_ok hl l 0 (by omega), List.range_eq_range']

/-- A window that faults is longer than the ROM's windows. -/
theorem romWindow_eq_error {p : Params} {l : Nat} {c : FaultCode} (h : romWindow p l = .error c) :
    Config.lmax < l ∧ c = .romRange := by
  have hl : Config.lmax < l := by
    by_contra hle
    rw [romWindow_ok p (by omega)] at h
    cases h
  refine ⟨hl, ?_⟩
  obtain ⟨n, rfl⟩ : ∃ n, l = n + 1 := ⟨l - 1, by simp [Config.lmax] at hl; omega⟩
  have h0 : romLookup p (n + 1) 0 = .error .romRange := romLookup_eq_error.2 ⟨.inr (.inl hl), rfl⟩
  rw [romWindow, romSpan, h0] at h
  cases h; rfl

/-- RESAMPLE answers exactly in its domain, with OUTLEN samples (42 R200, R205). -/
theorem resampleGrain_eq_ok {p : Params} {x y : List Word} {r : Word} :
    resampleGrain p x r = .ok y ↔
      resampleDomain x.length r = true ∧ y = (List.range (outLen x.length r)).map (resampledSample p x r) := by
  unfold resampleGrain
  cases resampleDomain x.length r
  · simp
  · simp only [if_true, Except.ok.injEq, true_and]
    exact eq_comm

theorem resampleGrain_eq_error {p : Params} {x : List Word} {r : Word} {c : FaultCode} :
    resampleGrain p x r = .error c ↔ resampleDomain x.length r = false ∧ c = .resampleDomain := by
  unfold resampleGrain
  cases resampleDomain x.length r
  · simp only [Bool.false_eq_true, if_false, Except.error.injEq, true_and]
    exact eq_comm
  · simp

theorem resampleGrain_length {p : Params} {x y : List Word} {r : Word} (h : resampleGrain p x r = .ok y) :
    y.length = outLen x.length r ∧ y.length ≤ Config.lmax := by
  obtain ⟨hd, rfl⟩ := resampleGrain_eq_ok.1 h
  simp only [resampleDomain, Bool.and_eq_true, decide_eq_true_eq] at hd
  simpa using hd.2

end Sys2Proof.Machine
end

