-- ==== Sys2Proof/Laws/Grain.lean ====
section
/-! SUPPORT. What a grain cycle can do, said once: the steps of a cycle that completes, and the points at which one can stop. -/

namespace Sys2Proof.Machine

/-- The steps of a completed grain cycle (43 R238): the windowed grain g, its resampling y, the synthesis samples sv, and the buffers
after ADV_RD, ACCUM and ADV_WR. -/
structure GrainSteps (s t : State) where
  g : List Word
  y : List Word
  sv : List Word
  ib : Buf
  ob1 : Buf
  ob2 : Buf
  extract : s.grainExtract = .ok g
  advRd : s.ibuf.advRd s.hopSize.toNat = .ok ib
  resample : resampleGrain s.params g s.pitchRatio = .ok y
  synth : sv = List.zipWith (fun yi c => synthesize s.params yi c Word.half) y
    ((List.range y.length).map (hannRom s.params y.length))
  accum : s.obuf.accum s.params 0 sv = .ok ob1
  advWr : ob1.advWr s.hopSize.toNat = .ok ob2
  result : t = { s with
    ibuf := ib, synthLen := BitVec.ofNat 15 y.length, obuf := ob2,
    primed := s.primed || decide (s.grainSize.toNat ≤ ob2.cnt.toNat) }

/-- The states a grain cycle can raise its fault in: before ADV_RD, after it, after RESAMPLE's cache update, after ACCUM (60 R311). -/
def GrainStop (s u : State) : Prop :=
  u = s ∨
  ∃ ib, s.ibuf.advRd s.hopSize.toNat = .ok ib ∧
    (u = { s with ibuf := ib } ∨
     ∃ g y, s.grainExtract = .ok g ∧ resampleGrain s.params g s.pitchRatio = .ok y ∧
      (u = { s with ibuf := ib, synthLen := BitVec.ofNat 15 y.length } ∨
       ∃ sv ob, s.obuf.accum s.params 0 sv = .ok ob ∧
        u = { s with ibuf := ib, synthLen := BitVec.ofNat 15 y.length, obuf := ob }))

theorem State.grainExtract_eq_ok {s : State} {g : List Word} :
    s.grainExtract = .ok g ↔
      s.grainSize.toNat ≤ Config.lmax ∧ s.grainSize.toNat ≤ s.ibuf.cnt.toNat ∧
      g = List.zipWith (windowProduct s.params) (s.ibuf.readCells s.ibuf.rd.toNat s.grainSize.toNat)
        ((List.range s.grainSize.toNat).map (hannRom s.params s.grainSize.toNat)) := by
  have hl : s.grainSize.toNat ≤ Config.lmax := by
    have := s.grainSize.isLt
    simp [Config.lmax]; omega
  unfold State.grainExtract
  rw [romWindow_ok s.params hl]
  simp only [State.orRaise_ok]
  constructor
  · intro h
    have h' := Buf.peekWin_eq_ok.1 (State.orRaise_eq_ok h)
    simpa [hl] using h'
  · rintro ⟨_, h2, h3⟩
    rw [Buf.peekWin_eq_ok.2 ⟨by simpa using h2, by simpa using h3⟩]
    rfl

theorem State.grainExtract_eq_error {s t : State} (h : s.grainExtract = .error t) :
    s.ibuf.cnt.toNat < s.grainSize.toNat ∧ t = s.raise .bufUnderrun := by
  have hl : s.grainSize.toNat ≤ Config.lmax := by
    have := s.grainSize.isLt
    simp [Config.lmax]; omega
  unfold State.grainExtract at h
  rw [romWindow_ok s.params hl] at h
  simp only [State.orRaise_ok] at h
  obtain ⟨c, hc, rfl⟩ := State.orRaise_eq_error h
  obtain ⟨h1, rfl⟩ := Buf.peekWin_eq_error.1 hc
  exact ⟨by simpa using h1, rfl⟩

theorem State.grainSynthesis_of_short (s : State) {y : List Word} (h : y.length ≤ Config.lmax) :
    s.grainSynthesis y = .ok (List.zipWith (fun yi c => synthesize s.params yi c Word.half) y
      ((List.range y.length).map (hannRom s.params y.length))) := by
  unfold State.grainSynthesis
  rw [romWindow_ok s.params h]
  rfl

/-- What a grain cycle can do: it completes by its steps, or it raises a fault at one of its stops. -/
theorem State.grainCycle_cases (s : State) :
    (∃ t, s.grainCycle = .ok t ∧ Nonempty (GrainSteps s t)) ∨
    (∃ u c, s.grainCycle = .error (u.raise c) ∧ GrainStop s u) := by
  unfold State.grainCycle
  cases he : s.grainExtract with
  | error t =>
    obtain ⟨_, rfl⟩ := State.grainExtract_eq_error he
    exact .inr ⟨s, _, rfl, .inl rfl⟩
  | ok g =>
  cases hr : s.ibuf.advRd s.hopSize.toNat with
  | error c =>
    refine .inr ⟨s, c, ?_, .inl rfl⟩
    simp [State.grainAdvanceRead, hr, bind, Except.bind]
  | ok ib =>
  cases hy : resampleGrain s.params g s.pitchRatio with
  | error c =>
    refine .inr ⟨{ s with ibuf := ib }, c, ?_, .inr ⟨ib, hr, .inl rfl⟩⟩
    simp [State.grainAdvanceRead, State.grainResample, hr, hy, bind, Except.bind]
  | ok y =>
  have hs : ∀ u : State, u.params = s.params → u.grainSynthesis y = .ok (List.zipWith
      (fun yi c => synthesize s.params yi c Word.half) y ((List.range y.length).map (hannRom s.params y.length))) := by
    intro u hu
    rw [← hu]
    exact u.grainSynthesis_of_short (resampleGrain_length hy).2
  generalize hsv : List.zipWith (fun yi c => synthesize s.params yi c Word.half) y
    ((List.range y.length).map (hannRom s.params y.length)) = sv at hs
  cases ha : s.obuf.accum s.params 0 sv with
  | error c =>
    refine .inr ⟨{ s with ibuf := ib, synthLen := BitVec.ofNat 15 y.length }, c, ?_,
      .inr ⟨ib, hr, .inr ⟨g, y, he, hy, .inl rfl⟩⟩⟩
    simp [State.grainAdvanceRead, State.grainResample, State.grainOverlapAdd, hr, hy, hs, ha, bind, Except.bind]
  | ok ob1 =>
  cases hw : ob1.advWr s.hopSize.toNat with
  | error c =>
    refine .inr ⟨{ s with ibuf := ib, synthLen := BitVec.ofNat 15 y.length, obuf := ob1 }, c, ?_,
      .inr ⟨ib, hr, .inr ⟨g, y, he, hy, .inr ⟨sv, ob1, ha, rfl⟩⟩⟩⟩
    simp [State.grainAdvanceRead, State.grainResample, State.grainOverlapAdd, State.grainAdvanceWrite, hr, hy, hs, ha,
      hw, bind, Except.bind]
  | ok ob2 =>
    refine .inl ⟨_, ?_, ⟨⟨g, y, sv, ib, ob1, ob2, he, hr, hy, hsv.symm, ha, hw, rfl⟩⟩⟩
    simp [State.grainAdvanceRead, State.grainResample, State.grainOverlapAdd, State.grainAdvanceWrite, hr, hy, hs, ha,
      hw, bind, Except.bind, pure, Except.pure, State.primeCheck]

theorem State.grainCycle_ok_steps {s t : State} (h : s.grainCycle = .ok t) : Nonempty (GrainSteps s t) := by
  rcases s.grainCycle_cases with ⟨t', ht', hs⟩ | ⟨u, c, hc, _⟩
  · rw [h] at ht'; cases ht'; exact hs
  · rw [h] at hc; cases hc

theorem State.grainCycle_error_stop {s t : State} (h : s.grainCycle = .error t) :
    ∃ u c, t = u.raise c ∧ GrainStop s u := by
  rcases s.grainCycle_cases with ⟨t', ht', _⟩ | ⟨u, c, hc, hs⟩
  · rw [h] at ht'; cases ht'
  · rw [h] at hc; cases hc; exact ⟨u, c, rfl, hs⟩

end Sys2Proof.Machine
end

