-- ==== Sys2Proof/Laws/Top.lean ====
section
/-! SUPPORT. What the mailbox's application, the grain loop and PROCESS_BLOCK can do, each said once; and how step reaches exec. -/

namespace Sys2Proof.Machine

/-! ### The sizing actions (44 R271, R272) -/

theorem State.clearBoth_ok {s : State} {icap ocap : BitVec 16} (hi : 1 ≤ icap.toNat) (hi' : icap.toNat ≤ Config.depthMax)
    (ho : 1 ≤ ocap.toNat) (ho' : ocap.toNat ≤ Config.depthMax) :
    s.clearBoth icap ocap = .ok { s with ibuf := Buf.cleared icap, obuf := Buf.cleared ocap } := by
  have h1 : Buf.clear icap = .ok (Buf.cleared icap) := Buf.clear_eq_ok.2 ⟨hi, hi', rfl⟩
  have h2 : Buf.clear ocap = .ok (Buf.cleared ocap) := Buf.clear_eq_ok.2 ⟨ho, ho', rfl⟩
  simp [State.clearBoth, h1, h2]

/-- CLEAR of both buffers completes with both cleared, or raises BUF_ILLEGAL before or after IBUF's. -/
theorem State.clearBoth_cases (s : State) (icap ocap : BitVec 16) :
    (s.clearBoth icap ocap = .ok { s with ibuf := Buf.cleared icap, obuf := Buf.cleared ocap }) ∨
    (s.clearBoth icap ocap = .error (s.raise .bufIllegal)) ∨
    (s.clearBoth icap ocap = .error ({ s with ibuf := Buf.cleared icap }.raise .bufIllegal)) := by
  unfold State.clearBoth
  cases h1 : Buf.clear icap with
  | error c =>
    obtain ⟨_, rfl⟩ := Buf.clear_eq_error.1 h1
    exact .inr (.inl rfl)
  | ok ib =>
    obtain ⟨_, _, rfl⟩ := Buf.clear_eq_ok.1 h1
    cases h2 : Buf.clear ocap with
    | error c =>
      obtain ⟨_, rfl⟩ := Buf.clear_eq_error.1 h2
      exact .inr (.inr rfl)
    | ok ob =>
      obtain ⟨_, _, rfl⟩ := Buf.clear_eq_ok.1 h2
      exact .inl rfl

theorem legalGrainSize_cases {g : Nat} (h : legalGrainSize g = true) : g = 512 ∨ g = 1024 ∨ g = 2048 ∨ g = 4096 := by
  simpa [legalGrainSize, or_assoc] using h

theorem legalBlockSize_cases {n : Nat} (h : legalBlockSize n = true) : n = 64 ∨ n = 128 ∨ n = 256 ∨ n = 512 := by
  simpa [legalBlockSize, or_assoc] using h

/-- The reconfigure action with a legal size completes (44 R272). -/
theorem State.reconfigure_ok {s : State} {size : BitVec 13} (h : legalGrainSize size.toNat = true) :
    s.reconfigure size = .ok { s with
      grainSize := size, hopSize := BitVec.ofNat 11 (size.toNat / 4),
      ibuf := Buf.cleared (BitVec.ofNat 16 (8 * size.toNat)), obuf := Buf.cleared (BitVec.ofNat 16 (8 * size.toNat)),
      synthLen := size.setWidth 15, primed := false } := by
  have hs := legalGrainSize_cases h
  have hcap : (BitVec.ofNat 16 (8 * size.toNat)).toNat = 8 * size.toNat := by
    rw [BitVec.toNat_ofNat, Nat.mod_eq_of_lt]
    omega
  have hc := State.clearBoth_ok (s := { s with grainSize := size, hopSize := BitVec.ofNat 11 (size.toNat / 4) })
    (icap := BitVec.ofNat 16 (8 * size.toNat)) (ocap := BitVec.ofNat 16 (8 * size.toNat))
    (by omega) (by rw [hcap, Config.depthMax]; omega) (by omega) (by rw [hcap, Config.depthMax]; omega)
  simp only [State.reconfigure, hc]

/-- The RESET action completes where both capacities are in range (44 R271). -/
theorem State.resetAction_ok {s : State} (hi : s.ibuf.CellsOk) (ho : s.obuf.CellsOk) :
    s.resetAction = .ok { s with
      ibuf := Buf.cleared s.ibuf.cap, obuf := Buf.cleared s.obuf.cap, primed := false } := by
  unfold State.resetAction
  rw [State.clearBoth_ok hi.1 hi.2.1 ho.1 ho.2.1]

/-- With no message pending the mailbox's application changes nothing (44 R273). -/
theorem State.applyMailbox_empty {s : State} (h : s.MailboxEmpty) : s.applyMailbox = .ok s := by
  obtain ⟨h1, h2, h3⟩ := h
  cases s
  simp_all [State.applyMailbox, State.applySizing, State.applyPitch]

/-- The mailbox is empty once applied. -/
theorem State.applyMailbox_mailboxEmpty {s t : State} (h : s.applyMailbox = .ok t) : t.MailboxEmpty := by
  unfold State.applyMailbox at h
  split at h
  · cases h
  · cases h; exact ⟨rfl, rfl, rfl⟩

/-! ### The grain loop (44 R263, R266) -/

/-- A state the grain loop leaves is reached by completed grain cycles: what every completed cycle keeps, the loop keeps. -/
theorem State.grainLoop_induction {P : State → Prop} (hstep : ∀ s t, P s → s.grainCycle = .ok t → P t) :
    ∀ {fuel : Nat} {s t : State}, P s → State.grainLoop fuel s = .ok t → P t := by
  intro fuel
  induction fuel with
  | zero => intro s t hs h; cases h; exact hs
  | succ fuel ih =>
    intro s t hs h
    unfold State.grainLoop at h
    split at h
    · split at h
      · cases h
      · exact ih (hstep _ _ hs ‹_›) h
    · cases h; exact hs

/-- Where the grain loop stops with a fault, some cycle of it raised it: the state before that cycle keeps what every completed cycle
keeps. -/
theorem State.grainLoop_error {P : State → Prop} (hstep : ∀ s t, P s → s.grainCycle = .ok t → P t) :
    ∀ {fuel : Nat} {s t : State}, P s → State.grainLoop fuel s = .error t →
      ∃ u, P u ∧ u.grainSize.toNat ≤ u.ibuf.cnt.toNat ∧ u.grainCycle = .error t := by
  intro fuel
  induction fuel with
  | zero => intro s t _ h; cases h
  | succ fuel ih =>
    intro s t hs h
    unfold State.grainLoop at h
    split at h
    · split at h
      · cases h; exact ⟨s, hs, ‹_›, ‹_›⟩
      · exact ih (hstep _ _ hs ‹_›) h
    · cases h

/-! ### PROCESS_BLOCK (44 R261) -/

/-- The output side either reads OBUF, or gives silence and changes nothing, or underruns (44 R264). -/
theorem State.activeOutput_cases (s : State) :
    (s.primed = true ∧ ∃ b o, s.obuf.read s.params.blockSize true = .ok (b, o) ∧
      s.activeOutput = .ok ({ s with obuf := b }, o)) ∨
    (s.primed = true ∧ s.activeOutput = .error (s.raise .bufUnderrun)) ∨
    (s.primed = false ∧ s.activeOutput = .ok (s, List.replicate s.params.blockSize Word.silence)) := by
  unfold State.activeOutput
  cases hp : s.primed with
  | false => exact .inr (.inr ⟨rfl, rfl⟩)
  | true =>
    cases hr : s.obuf.read s.params.blockSize true with
    | error c =>
      obtain ⟨_, rfl⟩ := Buf.read_eq_error.1 hr
      exact .inr (.inl ⟨rfl, rfl⟩)
    | ok bo => exact .inl ⟨rfl, bo.1, bo.2, rfl, rfl⟩

/-- What the body of PROCESS_BLOCK does once the mailbox is applied: the bypass path, or the active path. -/
theorem State.processBlock_eq {s t : State} {ch0 : List Word} (h : s.applyMailbox = .ok t) :
    s.processBlock ch0 =
      if t.bypass then .ok (t, ch0)
      else
        match t.activeInput ch0 with
        | .error u => .error u
        | .ok u => u.activeOutput := by
  simp only [State.processBlock, h] <;> rfl

/-- PROCESS_BLOCK of a block of the right shape in RUN answers a next state: its body's, with the mirrored block as response, or the
faulted state (44 R261, R265, 60 R311). -/
theorem execProcessBlock_run {inp : List (List Word)} {s : State} (hs : s.params.blockShape inp = true)
    (hr : s.seq = .run) :
    (∃ t o, s.processBlock (inp.headD []) = .ok (t, o) ∧
      execProcessBlock inp s = .next { t with resp := .block (List.replicate s.params.channels o) }) ∨
    (∃ t, s.processBlock (inp.headD []) = .error t ∧ execProcessBlock inp s = .next t) := by
  unfold execProcessBlock
  cases h : s.processBlock (inp.headD []) with
  | ok r => exact .inl ⟨r.1, r.2, rfl, by simp [hs, hr]⟩
  | error t => exact .inr ⟨t, rfl, by simp [hs, hr]⟩

/-! ### step -/

/-- What one step can do. -/
theorem step_cases (s : State) :
    (s.inbox = [] ∧ step s = .next s) ∨
    (∃ p rest, s.inbox = .powerOn p :: rest ∧
      step s = if p.legal then .next ((s.accept rest).powerOnReset p) else .refused .illegalParameters) ∨
    (∃ f rest i, s.inbox = .transaction f :: rest ∧ decode f = .ok i ∧ step s = exec i (s.accept rest)) ∨
    (∃ f rest e, s.inbox = .transaction f :: rest ∧ decode f = .error e ∧ step s = .refused (.malformedFrame e)) := by
  unfold step
  cases s.inbox with
  | nil => exact .inl ⟨rfl, rfl⟩
  | cons e rest =>
    cases e with
    | powerOn p => exact .inr (.inl ⟨p, rest, rfl, rfl⟩)
    | transaction f =>
      cases h : decode f with
      | ok i => exact .inr (.inr (.inl ⟨f, rest, i, rfl, h, by simp only [h]⟩))
      | error e => exact .inr (.inr (.inr ⟨f, rest, e, rfl, h, by simp only [h]⟩))

end Sys2Proof.Machine
end

