-- ==== Sys2Proof/Tests/Slice0.lean ====
section
/-! SUPPORT. The model's own tests: each well-formedness check refuses an ill-formed term, written-out words decode, single steps give
what spec/95_test_vectors.md lists, and for each statement a state and operands that meet its hypotheses. -/

namespace Sys2Proof.Tests

-- The many small closed facts below are checked one after another, which keeps the memory of the check low.
set_option Elab.async false

open Sys2Proof.Machine

/-- The next state of an outcome. -/
def after : Host.Outcome State Fault Refusal → Option State
  | .next s => some s
  | _ => none

/-- A view of the next state of an instruction. -/
def seen {α : Type} (i : Instr) (s : State) (view : State → α) : Option α := (after (exec i s)).map view

/-- The power-on state with blocks of n samples on c channels. -/
def start (n c : Nat) : State := State.powerOn { Params.default with blockSize := n, channels := c }

/-- A buffer with its registers and first cells. -/
def ring (cap rd wr cnt : Nat) (cells : List Word) : Buf :=
  Buf.writeCells { cap := BitVec.ofNat 16 cap, rd := BitVec.ofNat 15 rd, wr := BitVec.ofNat 15 wr,
                   cnt := BitVec.ofNat 16 cnt, data := [] } 0 cells

/-- The power-on state with IBUF replaced. -/
def withIbuf (b : Buf) : State := { start 128 1 with ibuf := b }

/-- RD, WR and CNT of IBUF. -/
def cursors (s : State) : Nat × Nat × Nat := (s.ibuf.rd.toNat, s.ibuf.wr.toNat, s.ibuf.cnt.toNat)

/-- The first n cells of IBUF. -/
def cells (n : Nat) (s : State) : List Word := (List.range n).map (Memory.read s.ibuf.data)

/-- Small integers as samples. -/
def fl (n : Nat) : Word := F32.ofNat n

/-! ### Well-formedness refuses (92_eei_decisions; 30_encoding R115, R120, R122) -/

theorem test_legal_default : Params.default.legal = true := by decide
theorem test_refuses_block_size : { Params.default with blockSize := 100 }.legal = false := by decide
theorem test_refuses_no_channel : { Params.default with channels := 0 }.legal = false := by decide
theorem test_refuses_no_rate : { Params.default with sampleRate := 0 }.legal = false := by decide
theorem test_refuses_grain_size : { Params.default with initGrainSize := 777#13 }.legal = false := by decide
theorem test_refuses_short_block : (start 2 1).params.blockShape [[fl 1]] = false := by decide
theorem test_refuses_missing_channel : (start 1 2).params.blockShape [[fl 1]] = false := by decide
theorem test_refuses_ill_formed_block : (Instr.processBlock [[]]).wellFormed (start 1 1).params = false := by decide
theorem test_refuses_long_write : (Instr.write .ibuf false 0 (List.replicate 65536 0)).encodable = false := by
  rw [Instr.encodable, List.length_replicate]; rfl
theorem test_refuses_long_peek : (Instr.peekWin .ibuf false 0 (List.replicate 65536 0)).encodable = false := by
  rw [Instr.encodable, List.length_replicate]; rfl
theorem test_refuses_long_accum : (Instr.accum .ibuf false 0 (List.replicate 65536 0)).encodable = false := by
  rw [Instr.encodable, List.length_replicate]; rfl
theorem test_refuses_long_grain : (Instr.resample 0 (List.replicate 8192 0)).encodable = false := by
  rw [Instr.encodable, List.length_replicate]; rfl

/-! ### Decoding of words written out from 30_encoding R111 to R123 -/

theorem test_decode_nop : decode (.ctl 0x0ABCDEF01#36) = .ok (.nop 0xABCDEF01#32) := by decide
theorem test_decode_set_pitch : decode (.ctl 0x141400000#36) = .ok (.setPitch 0x41400000#32) := by decide
theorem test_decode_set_grain : decode (.ctl 0x200000309#36) = .ok (.setGrainSize 777#32) := by decide
theorem test_decode_reset : decode (.ctl 0x300000000#36) = .ok (.reset 0#32) := by decide
theorem test_decode_reserved_5 : decode (.ctl 0x512345678#36) = .ok (.ctlReserved47 1#2 0x12345678#32) := by decide
theorem test_decode_reserved_f : decode (.ctl 0xFFFFFFFFF#36) = .ok (.ctlReserved8F 7#3 0xFFFFFFFF#32) := by decide
theorem test_decode_clear :
    decode (.buf .ibuf 0b000000000000000001000000000000000000#36 []) = .ok (.clear .ibuf false 4#16 0#16) := by decide
theorem test_decode_write :
    decode (.buf .ibuf 0b001000000000000000100000000000000000#36 [fl 4, fl 5]) =
      .ok (.write .ibuf false 0#16 [fl 4, fl 5]) := by decide
theorem test_decode_read :
    decode (.buf .obuf 0b010100000000000001000000000000000000#36 []) = .ok (.read .obuf true 4#16 0#16) := by decide
theorem test_decode_peek :
    decode (.buf .ibuf 0b011000000000000000010000000000000001#36 [fl 1]) =
      .ok (.peekWin .ibuf false 1#16 [fl 1]) := by decide
theorem test_decode_accum :
    decode (.buf .obuf 0b100000000000000000010000000000000010#36 [fl 1]) =
      .ok (.accum .obuf false 2#16 [fl 1]) := by decide
theorem test_decode_adv_rd :
    decode (.buf .ibuf 0b101000000000100000000000000000000000#36 []) = .ok (.advRd .ibuf false 128#16 0#16) := by decide
theorem test_decode_adv_wr :
    decode (.buf .ibuf 0b110000000000100000000000000000000000#36 []) = .ok (.advWr .ibuf false 128#16 0#16) := by decide
theorem test_decode_buf_reserved :
    decode (.buf .ibuf 0b111000000000000000000000000000000000#36 []) =
      .ok (.bufReserved .ibuf false 0#16 0#16) := by decide
theorem test_decode_lookup : decode (.rom 0b000000000000101000000000000001#30) = .ok (.lookup 5#15 1#15) := by decide
theorem test_decode_resample :
    decode (.rsmp 0b000000000000100111111000000000000000000000000#45 [fl 3]) =
      .ok (.resample 0x3F000000#32 [fl 3]) := by decide
theorem test_decode_grain : decode .grain = .ok .grainCycle := by decide
theorem test_decode_block : decode (.aud [[fl 1]]) = .ok (.processBlock [[fl 1]]) := by decide
theorem test_decode_status : decode (.sts 0xC#4) = .ok (.statusRead 0xC#4) := by decide
theorem test_decode_refuses_side_bus :
    decode (.buf .ibuf 0b001000000000000000100000000000000000#36 [fl 4]) = .error .sideBusLength := by decide
theorem test_decode_table_word : decodeTableWord 40 0x141400000 = some (.setPitch 0x41400000#32) := by decide

/-! ### CTL (95 section 2.5) -/

theorem test_nop_v_top_8 : seen (.nop 0) (start 64 1) State.statusWord = some 0x00000006#32 := by decide +kernel
theorem test_reserved47_v_top_8 :
    seen (.ctlReserved47 1#2 0x12345678#32) (start 64 1) State.statusWord = some 0x00000006#32 := by decide +kernel
theorem test_reserved8f_v_top_8 :
    seen (.ctlReserved8F 7#3 0xFFFFFFFF#32) (start 64 1) State.statusWord = some 0x00000006#32 := by decide +kernel
theorem test_set_pitch_5 :
    seen (.setPitch 0x40A00000#32) (start 64 1) (fun s => (s.statusWord, s.pendRatio)) =
      some (0x00000106#32, 0x3FAADC08#32) := by decide +kernel
theorem test_set_pitch_refuses_24_5 :
    seen (.setPitch 0x41C40000#32) (start 64 1) State.statusWord = some 0x00000006#32 := by decide +kernel
theorem test_set_grain_512 :
    seen (.setGrainSize 512#32) (start 64 1) (fun s => (s.pendGsV, s.pendGs.toNat)) = some (true, 512) := by
  decide +kernel
theorem test_set_grain_refuses_777 :
    seen (.setGrainSize 777#32) (start 64 1) State.statusWord = some 0x00000006#32 := by decide +kernel
theorem test_reset_pends : seen (.reset 9#32) (start 64 1) State.pendRst = some true := by decide +kernel

/-! ### BUF (95 section 2.1) -/

theorem test_clear_v_buf_1 :
    seen (.clear .ibuf false 4#16 0) (withIbuf (ring 8 1 3 2 [fl 1, fl 2])) (fun s => (s.ibuf.cap.toNat, cursors s, cells 2 s)) =
      some (4, (0, 0, 0), [0, 0]) := by decide +kernel
theorem test_clear_v_buf_3 :
    seen (.clear .ibuf false 32769#16 0) (start 64 1) (fun s => (s.fault, s.ibuf.cap.toNat)) = some (3#4, 8192) := by
  decide +kernel
theorem test_write_v_buf_4 :
    seen (.write .ibuf false 0 [fl 4, fl 5]) (withIbuf (ring 4 2 3 1 [])) (fun s => (cursors s, cells 4 s)) =
      some ((2, 1, 3), [fl 5, 0, 0, fl 4]) := by decide +kernel
theorem test_write_v_buf_5 :
    seen (.write .ibuf false 0 [fl 1, fl 1]) (withIbuf (ring 4 0 3 3 [])) (fun s => (s.fault, cursors s)) =
      some (1#4, (0, 3, 3)) := by decide +kernel
theorem test_read_v_buf_7 :
    seen (.read .ibuf true 4#16 0) (withIbuf (ring 8 0 4 4 [fl 1, fl 1, fl 2, fl 2, fl 1, fl 1]))
      (fun s => (s.resp, cells 6 s, cursors s)) =
      some (.samples [fl 1, fl 1, fl 2, fl 2], [0, 0, 0, 0, fl 1, fl 1], (4, 4, 0)) := by decide +kernel
theorem test_read_v_buf_9 :
    seen (.read .ibuf false 5#16 0) (withIbuf (ring 8 0 4 4 [])) State.fault = some 2#4 := by decide +kernel
theorem test_peek_v_buf_10 :
    seen (.peekWin .ibuf false 0 [fl 1, Word.half, fl 2]) (withIbuf (ring 4 2 1 3 [fl 5, fl 2, fl 3, fl 4])) State.resp =
      some (.samples [fl 3, fl 2, fl 10]) := by decide +kernel
theorem test_peek_v_buf_11 :
    seen (.peekWin .ibuf false 1#16 [fl 1, fl 1, fl 1]) (withIbuf (ring 4 2 1 3 [])) State.fault = some 2#4 := by
  decide +kernel
theorem test_accum_v_buf_13 :
    seen (.accum .ibuf false 0 [fl 1, fl 1, fl 1, fl 1]) (withIbuf (ring 8 0 2 2 [fl 1, fl 1, fl 1, fl 1])) (cells 8) =
      some [fl 1, fl 1, fl 2, fl 2, fl 1, fl 1, 0, 0] := by decide +kernel
theorem test_accum_v_buf_14 :
    seen (.accum .ibuf false 0 [fl 1, fl 1, fl 1]) (withIbuf (ring 8 0 6 6 [])) State.fault = some 1#4 := by
  decide +kernel
theorem test_adv_rd_v_buf_16 :
    seen (.advRd .ibuf false 128#16 0) (withIbuf (ring 4096 0 512 512 [])) cursors = some (128, 512, 384) := by
  decide +kernel
theorem test_adv_rd_v_buf_17 :
    seen (.advRd .ibuf false 128#16 0) (withIbuf (ring 4096 0 100 100 [])) State.fault = some 2#4 := by decide +kernel
theorem test_adv_wr_v_buf_18 :
    seen (.advWr .ibuf false 128#16 0) (withIbuf (ring 4096 0 0 0 [])) cursors = some (0, 128, 128) := by
  decide +kernel
theorem test_adv_wr_v_buf_19 :
    seen (.advWr .ibuf false 128#16 0) (withIbuf (ring 4096 0 4000 4000 [])) State.fault = some 1#4 := by
  decide +kernel
theorem test_buf_reserved_v_buf_21 :
    seen (.bufReserved .ibuf false 0 0) (start 64 1) (fun s => (s.fault, s.seq)) = some (3#4, .faulted) := by
  decide +kernel

/-! ### ROM and RSMP (95 sections 2.2 and 2.3) -/

theorem test_lookup_1024_255 :
    seen (.lookup 1024#15 255#15) (start 64 1) State.resp = some (.coefficient 0x3EFED21D#32) := by decide +kernel
theorem test_lookup_5_5 : seen (.lookup 5#15 5#15) (start 64 1) State.fault = some 4#4 := by decide +kernel
theorem test_resample_v_rsmp_15 :
    seen (.resample 0x3F000000#32 [0x3F800000#32, 0xBF800000#32]) (start 64 1) State.resp =
      some (.resampled 4#15 [0x3F800000#32, 0x00000000#32, 0xBF800000#32, 0xBF900000#32]) := by decide +kernel
theorem test_resample_v_rsmp_11 :
    seen (.resample 0x3F2ADC08#32 ((List.range 8).map fl)) (start 64 1)
      (fun s => match s.resp with | .resampled m y => some (m, y.getD 1 0, y.getD 10 0) | _ => none) =
      some (some (11#15, 0x3F216900#32, 0x40D7F19F#32)) := by decide +kernel

/-! ### GRAIN: a grain of 5 samples of 1.0 at ratio 1.0 (hand calculation: windows 0, 0.5, 1, 0.5, 0), and an underrun -/

theorem test_grain_small :
    (after (exec .grainCycle { withIbuf (ring 40 0 5 5 [fl 1, fl 1, fl 1, fl 1, fl 1]) with
        grainSize := 5#13, hopSize := 2#11 })).map
      (fun s => (cursors s, s.obuf.wr.toNat, s.obuf.cnt.toNat, s.synthLen.toNat,
        (List.range 6).map (Memory.read s.obuf.data))) =
      some ((2, 5, 3), 2, 2, 5, [0, 0x3E000000#32, 0x3F000000#32, 0x3E000000#32, 0, 0]) := by decide +kernel
theorem test_grain_underrun : seen .grainCycle (start 64 1) State.fault = some 2#4 := by decide +kernel

/-! ### AUD, STS, faults and power-on (95 sections 2.5 and 2.6) -/

theorem test_block_v_top_9 :
    seen (.processBlock [[fl 1, fl 2], [fl 9, fl 9]]) (start 2 2) State.resp =
      some (.block [[fl 1, fl 2], [fl 1, fl 2]]) := by decide +kernel
/-- A pending size, RESET and ratio of 9 semitones over the power-on state of blocks of two samples. -/
def pendingAll : State :=
  { start 2 1 with pendGsV := true, pendGs := 512#13, pendRst := true, pendPitchV := true, pendRatio := 0x3F3FC887#32 }

theorem test_block_active_v_top_3 :
    seen (.processBlock [[Word.half, Word.half]]) pendingAll (fun s => (s.statusWord, s.resp)) =
      some (0x00000000#32, .block [[0, 0]]) := by decide +kernel
theorem test_block_reconfigures_v_top_3 :
    seen (.processBlock [[Word.half, Word.half]]) pendingAll
      (fun s => [s.grainSize.toNat, s.hopSize.toNat, s.ibuf.cap.toNat, s.ibuf.cnt.toNat, s.synthLen.toNat]) =
      some [512, 128, 4096, 2, 512] := by decide +kernel
theorem test_status_v_top_1 :
    [0x0#4, 0x1#4, 0x2#4, 0x3#4, 0xC#4, 0xE#4].map (fun a => seen (.statusRead a) (start 64 1) State.resp) =
      [0x00000006#32, 0x3F800000#32, 0x00000400#32, 0x00000100#32, 0x00002000#32, 0x00000000#32].map
        (fun w => some (.status w)) := by decide +kernel
theorem test_status_v_flt_2 :
    seen (.statusRead 0) { (start 64 1).raise .bufIllegal with pendRst := true } State.resp =
      some (.status 0x00000136#32) := by decide +kernel
theorem test_power_on_v_flt_4 :
    (after (step { (start 64 1).raise .bufIllegal with inbox := [.powerOn Params.default] })).map State.statusWord =
      some 0x00000006#32 := by decide +kernel
theorem test_fetch_word_runs :
    (after (step (State.reset.withFetchWord 40 0x300000000))).map State.pendRst = some true := by decide +kernel
/-- At ratio 1.0 the coefficient sum of a sample near the top of the range overflows (hand calculation: log 16). -/
theorem test_resample_huge_overflows :
    F32.isFinite (fadd (fmul 0xBF000000#32 0x7F7FFFFF#32) (fmul 0x3FC00000#32 0x7F7FFFFF#32)) = false := by
  decide +kernel

/-! ### Witnesses: for each statement with hypotheses, a state and operands that meet them, at the boundaries of its clauses -/

/-- The outcome of the mailbox's application, if it does not fault. -/
def applied (s : State) : Option State :=
  match s.applyMailbox with
  | .ok t => some t
  | .error _ => none

/-- A sound buffer of capacity 8 with 5 unread samples from cell 6 on (over the end), of which the first two are 1.0 and 2.0. -/
def wrapped : Buf := Buf.writeCells (ring 8 6 3 5 []) 6 [fl 1, fl 2]

/-- A sound state with that buffer as IBUF. -/
def wrappedState : State := withIbuf wrapped

/-- A faulted sound state. -/
def faultedState : State := (start 128 1).raise .bufIllegal

/-- A sound state in service, Active, priming: N = G = 512, ratio 2.0. -/
def priming : State :=
  { State.powerOn { Params.default with blockSize := 512, initGrainSize := 512#13 } with pitchRatio := 0x40000000#32 }

/-- A sound state in service, Active and primed: IBUF holds 384 samples and OBUF 128. -/
def inService : State :=
  { priming with ibuf := ring 4096 0 384 384 [], obuf := ring 4096 0 128 128 [], primed := true }

/-- A sound state whose input holds exactly one grain and whose OBUF has room for exactly the longest resampled grain. -/
def grainReady : State :=
  { priming with ibuf := ring 4096 100 612 512 [], obuf := ring 4096 4000 1952 2048 [] }

/-- The largest finite binary32 value. -/
def maxFinite : Word := 0x7F7FFFFF#32

theorem witness_NopAndReservedWordsChangeNothing :
    (0x0FFFFFFFF#36).toNat / 2 ^ 32 = 0 ∧ 4 ≤ (0x400000000#36).toNat / 2 ^ 32 ∧ 4 ≤ (0xFFFFFFFFF#36).toNat / 2 ^ 32 := by
  decide
theorem witness_SetPitchPostsLegalSemitones :
    (0x41C00000#32).toNat % 2 ^ 31 ≤ 0x41C00000 ∧ (0xC1C00000#32).toNat % 2 ^ 31 ≤ 0x41C00000 ∧
    0x41C00000 < (0x41C00001#32).toNat % 2 ^ 31 ∧ 0x41C00000 < (0x7FC00000#32).toNat % 2 ^ 31 := by decide
theorem witness_SetGrainSizePostsLegalSizes :
    (512#32).toNat ∈ [512, 1024, 2048, 4096] ∧ (4096#32).toNat ∈ [512, 1024, 2048, 4096] ∧
    (511#32).toNat ∉ [512, 1024, 2048, 4096] ∧ (4608#32).toNat ∉ [512, 1024, 2048, 4096] := by decide
theorem witness_RejectedControlInputHasNoEffect :
    ((0x141C00001#36).toNat / 2 ^ 32 = 1 ∧ 0x41C00000 < (0x141C00001#36).toNat % 2 ^ 31) ∧
    ((0x200000309#36).toNat / 2 ^ 32 = 2 ∧ (0x200000309#36).toNat % 2 ^ 32 ∉ [512, 1024, 2048, 4096]) ∧
    4 ≤ (0x400000000#36).toNat / 2 ^ 32 := by decide
theorem witness_ControlWordsChangeOnlyTheMailbox :
    { faultedState with inbox := [.transaction (.ctl 0x300000000#36)] }.inbox = .transaction (.ctl 0x300000000#36) :: [] := rfl
theorem witness_ClearSetsCapacityAndSilencesCells :
    (1 ≤ (1#16).toNat ∧ (1#16).toNat ≤ 32768) ∧ (1 ≤ (32768#16).toNat ∧ (32768#16).toNat ≤ 32768) ∧
    (0#16).toNat = 0 ∧ 32768 < (32769#16).toNat := by decide
/-- CNT + n = 8 exactly, and one more. -/
theorem witness_WriteAppendsItsSamples :
    (wrappedState.buf .ibuf).Sound ∧
    (wrappedState.buf .ibuf).cnt.toNat + [fl 1, fl 2, fl 3].length ≤ (wrappedState.buf .ibuf).cap.toNat ∧
    (wrappedState.buf .ibuf).cap.toNat < (wrappedState.buf .ibuf).cnt.toNat + [fl 1, fl 2, fl 3, fl 4].length := by
  decide +kernel
theorem witness_ReadRemovesItsSamples :
    (wrappedState.buf .ibuf).Sound ∧ (5#16).toNat ≤ (wrappedState.buf .ibuf).cnt.toNat ∧
    (wrappedState.buf .ibuf).cnt.toNat < (6#16).toNat ∧
    (true = true ∧ ∃ j < 5, 7 = ((wrappedState.buf .ibuf).rd.toNat + j) % (wrappedState.buf .ibuf).cap.toNat) ∧
    ¬(true = true ∧ ∃ j < 5, 3 = ((wrappedState.buf .ibuf).rd.toNat + j) % (wrappedState.buf .ibuf).cap.toNat) := by
  decide +kernel
theorem witness_PeekWinReturnsWindowedCells :
    (3#16).toNat + [fl 1, fl 2].length ≤ (wrappedState.buf .ibuf).cnt.toNat ∧
    (wrappedState.buf .ibuf).cnt.toNat < (4#16).toNat + [fl 1, fl 2].length ∧
    wrappedState.params.numerics = .standard := by decide +kernel
theorem witness_AccumAddsIntoItsCells :
    (wrappedState.buf .ibuf).Sound ∧
    (wrappedState.buf .ibuf).cnt.toNat + (1#16).toNat + [fl 1, fl 2].length ≤ (wrappedState.buf .ibuf).cap.toNat ∧
    (wrappedState.buf .ibuf).cap.toNat < (wrappedState.buf .ibuf).cnt.toNat + (2#16).toNat + [fl 1, fl 2].length := by
  decide +kernel
theorem witness_AdvRdConsumesSamples :
    (wrappedState.buf .ibuf).Sound ∧ (5#16).toNat ≤ (wrappedState.buf .ibuf).cnt.toNat ∧
    (wrappedState.buf .ibuf).cnt.toNat < (6#16).toNat := by decide +kernel
theorem witness_AdvWrPublishesSamples :
    (wrappedState.buf .ibuf).Sound ∧
    (wrappedState.buf .ibuf).cnt.toNat + (3#16).toNat ≤ (wrappedState.buf .ibuf).cap.toNat ∧
    (wrappedState.buf .ibuf).cap.toNat < (wrappedState.buf .ibuf).cnt.toNat + (4#16).toNat := by decide +kernel
theorem witness_BufTransactionsKeepBufferInvariants :
    decode (.buf .ibuf (bufWord 0b010#3 true 5#16 0#16) []) = .ok (.read .ibuf true 5#16 0#16) ∧
    wrappedState.ibuf.Sound ∧ wrappedState.obuf.Sound ∧
    (after (exec (.read .ibuf true 5#16 0#16) wrappedState)).isSome = true := by decide +kernel
theorem witness_AccumNeverMakesNegativeZero :
    (start 128 1).params.numerics = .standard ∧ ((start 128 1).buf .obuf).Sound ∧
    (after (exec (.accum .obuf false 0#16 [0x80000000#32]) (start 128 1))).isSome = true := by decide +kernel
theorem witness_AccumNeverMakesNegativeZero_cells :
    ∀ c, Memory.read ((start 128 1).buf .obuf).data c ≠ 0x80000000#32 := fun _ => by
  show Memory.unlisted ≠ 0x80000000#32
  decide
theorem witness_RaiseRecordsTheFirstCode : (start 128 1).fault = 0#4 ∧ faultedState.fault ≠ 0#4 := by decide
theorem witness_FaultRegisterIsSticky :
    faultedState.fault ≠ 0#4 ∧ faultedState.seq = .faulted ∧
    (after (exec (.reset 0) faultedState)).isSome = true ∧
    (after (exec (.bufReserved .obuf false 0 0) faultedState)).isSome = true ∧
    (start 128 1).fault = 0#4 ∧ (after (exec (.lookup 5#15 5#15) (start 128 1))).isSome = true ∧
    { faultedState with inbox := [.powerOn Params.default] }.inbox = .powerOn Params.default :: [] ∧
    (after (step { faultedState with inbox := [.powerOn Params.default] })).isSome = true := by decide +kernel
theorem witness_FaultedBlockIsStuckAndPortsStayOpen :
    faultedState.seq = .faulted ∧ faultedState.params.blockShape [List.replicate 128 0] = true := by decide +kernel
theorem witness_BlockOfAnotherShapeIsRefused :
    ([] : List (List Word)).length ≠ (start 128 1).params.channels ∧
    ∃ ch ∈ [[fl 1]], ch.length ≠ (start 128 1).params.blockSize := by decide
theorem witness_LookupReturnsItsCoefficient :
    (1 ≤ (16384#15).toNat ∧ (16384#15).toNat ≤ 16384 ∧ (16383#15).toNat < (16384#15).toNat) ∧
    (1 ≤ (1#15).toNat ∧ (1#15).toNat ≤ 16384 ∧ (0#15).toNat < (1#15).toNat) ∧
    (0#15).toNat = 0 ∧ 16384 < (16385#15).toNat ∧ (5#15).toNat ≤ (5#15).toNat := by decide
theorem witness_DefaultHannExactValues :
    Params.default.hannRom = .standard ∧ 16384 ≤ 16384 ∧ 16383 < 16384 ∧ 2 ≤ 16384 ∧ 5 % 2 = 1 ∧
    4 * 1 = 5 - 1 ∧ 4 * 3 = 3 * (5 - 1) ∧ 3 * 1 = 4 - 1 ∧ 3 * 2 = 2 * (4 - 1) ∧ 6 * 1 = 7 - 1 ∧ 6 * 5 = 5 * (7 - 1) := by
  decide
theorem witness_DefaultHannApproximatesItsFormula : 2 ≤ 16384 ∧ 16384 ≤ 16384 ∧ 8191 < 16384 := by decide
theorem witness_PitchFormulaAndRange :
    legalSemitones 0x41C00000#32 = true ∧ legalSemitones 0xC1C00000#32 = true ∧ legalSemitones 0x80000001#32 = true := by
  decide +kernel
theorem witness_NeighboursAreClamped : [fl 1, fl 2] ≠ [] ∧ 0 < 4 ∧ 3 < 4 := by decide
/-- One sample at the largest ratio, and 4096 samples at 0.25: 16384 outputs exactly. -/
theorem witness_ResampleReturnsItsSamples :
    (1 ≤ [fl 1].length ∧ [fl 1].length ≤ 4096 ∧ 0 < maxFinite.toNat ∧ maxFinite.toNat < 0x7F800000 ∧
      [fl 1].length * 2 ^ 149 < 16385 * F32.mag maxFinite) ∧
    (List.replicate 4096 (fl 1)).length ≤ 4096 ∧
    (List.replicate 4096 (fl 1)).length * 2 ^ 149 < 16385 * F32.mag 0x3E800000#32 := by decide +kernel
/-- No sample; one too many; a zero ratio; infinity, -0.0 and NaN; and exactly 16385 outputs asked of 4096 samples. -/
theorem witness_ResampleOutsideItsDomainFaults :
    ([] : List Word).length = 0 ∧ 4096 < (List.replicate 4097 (fl 1)).length ∧ (0#32).toNat = 0 ∧
    0x7F800000 ≤ (0x7F800000#32).toNat ∧ 0x7F800000 ≤ (0x80000000#32).toNat ∧ 0x7F800000 ≤ (0x7FC00000#32).toNat ∧
    16385 * F32.mag 0x3E7FFC00#32 ≤ (List.replicate 4096 (fl 1)).length * 2 ^ 149 := by decide +kernel
theorem witness_ResampleAtRatioOneIsIdentity :
    Params.default.numerics = .standard ∧ 1 ≤ [0xFE000000#32, 0x7E000000#32, 0x80000000#32].length ∧
    [0xFE000000#32, 0x7E000000#32, 0x80000000#32].length ≤ 4096 ∧
    ∀ w ∈ [0xFE000000#32, 0x7E000000#32, 0x80000000#32], w.toNat % 2 ^ 31 ≤ 0x7E000000 := by
  refine ⟨rfl, by decide, by decide, ?_⟩
  intro w hw
  simp only [List.mem_cons, List.not_mem_nil, or_false] at hw
  rcases hw with rfl | rfl | rfl <;> decide
theorem witness_GrainCycleCompletes :
    grainReady.Sound ∧ grainReady.grainSize.toNat ≤ grainReady.ibuf.cnt.toNat ∧
    grainReady.obuf.cnt.toNat + 4 * grainReady.grainSize.toNat ≤ grainReady.obuf.cap.toNat := by decide +kernel
theorem witness_DefaultNumericsAreBinary32 : Params.default.numerics = .standard := rfl
theorem witness_GrainCycleWithoutInputUnderruns :
    { grainReady with ibuf := ring 4096 0 511 511 [] }.ibuf.cnt.toNat < grainReady.grainSize.toNat := by decide +kernel
theorem witness_SynthLenNeverChangesASample :
    (after (exec (.processBlock [[fl 1, fl 2]]) pendingAll)).isSome = true := by decide +kernel
theorem witness_BypassBlockReturnsChannelZero :
    (start 2 1).seq = .run ∧ (start 2 1).params.blockShape [[fl 1, fl 2]] = true ∧
    (applied (start 2 1)).map State.bypass = some true := by decide +kernel
theorem witness_OutputMirrorsChannelZero :
    seen (.processBlock [[fl 1, fl 2], [fl 9, fl 9]]) (start 2 2) State.resp = some (.block [[fl 1, fl 2], [fl 1, fl 2]]) ∧
    (start 2 2).params.blockShape [[fl 1, fl 2], [fl 9, fl 9]] = true ∧
    (start 2 2).params.blockShape [[fl 1, fl 2], [fl 3, fl 3]] = true ∧
    [[fl 1, fl 2], [fl 9, fl 9]].headD [] = [[fl 1, fl 2], [fl 3, fl 3]].headD [] := by decide +kernel
theorem witness_EveryOutputBlockHasTheInputShape :
    seen (.processBlock [[fl 1, fl 2]]) (start 2 1) State.resp = some (.block [[fl 1, fl 2]]) := by decide +kernel
theorem witness_UnprimedActiveBlockIsSilent :
    (applied pendingAll).map State.bypass = some false ∧
    seen (.processBlock [[fl 1, fl 2]]) pendingAll (fun t => (t.resp, t.primed)) = some (.block [[0, 0]], false) := by
  decide +kernel
theorem witness_ActiveBlockIsItsTransactions :
    inService.InService ∧ inService.params.blockShape [List.replicate 512 0] = true := by decide +kernel
theorem witness_ActiveBlockIsItsTransactions_active : (applied inService).map State.bypass = some false := by decide +kernel
theorem witness_MailboxApplicationEffects_size :
    { priming with pendGsV := true, pendGs := 4096#13, pendRst := true }.Sound := by decide +kernel
theorem witness_MailboxApplicationEffects_reset :
    { priming with pendRst := true, pendPitchV := true, pendRatio := 0x3E800000#32 }.Sound := by decide +kernel
theorem witness_MailboxApplicationEffects_ratio :
    { priming with pendPitchV := true, pendRatio := 0x40800000#32 }.Sound := by decide +kernel
theorem witness_MailboxEqualsMessagesOneAtATime : inService.Sound ∧ inService.MailboxEmpty := by decide +kernel
theorem witness_BlockInServiceNeverFaults :
    inService.InService ∧ inService.params.blockShape [List.replicate 512 0] = true := by decide +kernel
theorem witness_BlockInServiceNeverFaults_priming : priming.InService := by decide +kernel
theorem witness_BlockInServiceNeverFaults_reset : State.reset.InService := by decide +kernel
theorem witness_PowerOnAndControlKeepService : Params.default.legal = true ∧ inService.InService := by decide +kernel
/-- k0 = 2: one block is below it, two reach it. -/
theorem witness_PrimingTakesK0ActiveBlocks :
    priming.InService ∧ priming.MailboxEmpty ∧ priming.bypass = false ∧ priming.ibuf.cnt.toNat = 0 ∧
    priming.obuf.cnt.toNat = 0 ∧ priming.primed = false ∧ priming.params.blockShape [List.replicate 512 0] = true ∧
    1 ≤ priming.params.channels ∧ 1 < priming.primingBlocks ∧ 2 = priming.primingBlocks := by decide +kernel
/-- A block that takes a ratio and a size, one that clears PRIMED, and a grain cycle that sets it. -/
theorem witness_ModeRegistersChangeOnlyAsListed :
    seen (.processBlock [[0, 0]]) pendingAll
      (fun t => (t.pitchRatio != pendingAll.pitchRatio, t.grainSize != pendingAll.grainSize)) = some (true, true) ∧
    seen (.processBlock [[0, 0]]) { pendingAll with primed := true } State.primed = some false ∧
    seen .grainCycle { withIbuf (ring 40 0 2 2 []) with grainSize := 2#13, hopSize := 2#11 } State.primed = some true := by
  decide +kernel
theorem witness_StatusWordFields :
    legalGrainSize priming.grainSize.toNat = true ∧ legalGrainSize (4096#13).toNat = true ∧
    Params.default.initGrainSize = 1024#13 := by decide
theorem witness_BypassIsTheExactTolerance :
    F32.isFinite (start 128 1).pitchRatio = true ∧ F32.isFinite priming.pitchRatio = true := by decide +kernel
/-- The boundary words of Bypass (hand calculation from 00_scope R16), and an infinity and a NaN (the model's choice: log 4). -/
theorem witness_BypassRatioWords :
    bypassRatio 0x3F7FBE77#32 = true ∧ bypassRatio 0x3F8020C4#32 = true ∧
    bypassRatio 0x3F7FBE76#32 = false ∧ bypassRatio 0x3F8020C5#32 = false ∧
    bypassRatio 0x7F800000#32 = false ∧ bypassRatio 0x7FC00000#32 = false := by decide +kernel
theorem witness_PowerOnValues :
    Params.default.legal = true ∧ { Params.default with initGrainSize := 4096#13, blockSize := 64 }.legal = true := by decide
theorem witness_StepTakesTheNextEvent :
    State.reset.inbox = [] ∧ Params.default.legal = true ∧ decode .grain = .ok .grainCycle ∧
    { faultedState with inbox := [.powerOn Params.default, .transaction .grain] }.inbox =
      .powerOn Params.default :: [.transaction .grain] ∧
    { start 2 1 with inbox := [.transaction .grain] }.inbox = .transaction .grain :: [] := by decide +kernel
theorem witness_StepKeepsTheStateSound :
    { inService with inbox := [.transaction .grain] }.Sound := by decide +kernel
theorem witness_StepKeepsTheStateSound_next :
    (after (step { inService with inbox := [.transaction .grain] })).isSome = true := by decide +kernel
theorem witness_StepKeepsTheStateSound_faulted : faultedState.Sound := by decide +kernel
theorem witness_PowerOnIsSound : Params.default.legal = true := by decide
theorem witness_DecodeInvertsEncode : (Instr.write .obuf true 0xFFFF#16 [fl 1]).encodable = true := by decide
theorem witness_EncodeInvertsDecode :
    decode (.buf .obuf 0xFFFFFFFFF#36 []) = .ok (.bufReserved .obuf true 0xFFFF#16 0xFFFF#16) := by decide
/-- A finite sum and product, and ones past the overflow threshold. -/
theorem witness_RoundedToNearestEven :
    F32.isFinite 0x3F800000#32 = true ∧ F32.isFinite 0x00000001#32 = true ∧ F32.isFinite maxFinite = true ∧
    F32.isFinite (fadd 0x3F800000#32 0x00000001#32) = true ∧ F32.isFinite (fmul 0x3F800000#32 0x00000001#32) = true ∧
    F32.isFinite (fadd maxFinite maxFinite) = false ∧ F32.isFinite (fmul maxFinite maxFinite) = false := by decide +kernel

end Sys2Proof.Tests
end

/-! PROOFS. The family of 00_scope.md: the range of a legal SET_PITCH value (R17), and the sample rate that no rule reads (R14). -/

namespace Sys2Proof.Machine

/-! ### The order of magnitudes (R23) -/

theorem F32.mag_lt_pow_expField (w : Word) : F32.mag w < 2 ^ 23 * 2 ^ F32.expField w := by
  have hf := F32.fracField_lt w
  unfold F32.mag
  split
  next h => simpa [h] using hf
  next h =>
    obtain ⟨e, he⟩ := Nat.exists_eq_add_one_of_ne_zero h
    calc (F32.fracField w + 2 ^ 23) * 2 ^ (F32.expField w - 1)
        < 2 ^ 24 * 2 ^ (F32.expField w - 1) := Nat.mul_lt_mul_of_pos_right (by omega) (by positivity)
      _ = 2 ^ 23 * 2 ^ F32.expField w := by rw [he, Nat.add_sub_cancel]; ring

theorem F32.pow_expField_le_mag {w : Word} (h : F32.expField w ≠ 0) :
    2 ^ 23 * 2 ^ (F32.expField w - 1) ≤ F32.mag w := by
  rw [F32.mag, if_neg h]
  exact Nat.mul_le_mul_right _ (Nat.le_add_left _ _)

/-- The 31 bits below the sign order words as their magnitudes: a larger exponent outweighs every fraction. -/
theorem F32.mag_lt_of_low31_lt {v w : Word} (h : v.toNat % 2 ^ 31 < w.toNat % 2 ^ 31) : F32.mag v < F32.mag w := by
  rw [F32.low31, F32.low31] at h
  have hv := F32.fracField_lt v
  have hw := F32.fracField_lt w
  rcases Nat.lt_trichotomy (F32.expField v) (F32.expField w) with he | he | he
  · calc F32.mag v < 2 ^ 23 * 2 ^ F32.expField v := F32.mag_lt_pow_expField v
      _ ≤ 2 ^ 23 * 2 ^ (F32.expField w - 1) :=
          Nat.mul_le_mul_left _ (Nat.pow_le_pow_right (by omega) (by omega))
      _ ≤ F32.mag w := F32.pow_expField_le_mag (by omega)
  · have hfrac : F32.fracField v < F32.fracField w := by omega
    simp only [F32.mag, he]
    split
    · exact hfrac
    · exact Nat.mul_lt_mul_of_pos_right (by omega) (by positivity)
  · omega

theorem F32.mag_le_mag_iff {v w : Word} : F32.mag v ≤ F32.mag w ↔ v.toNat % 2 ^ 31 ≤ w.toNat % 2 ^ 31 := by
  constructor
  · intro h
    by_contra hlt
    exact absurd (F32.mag_lt_of_low31_lt (not_le.1 hlt)) (not_lt.2 h)
  · intro h
    rcases Nat.lt_or_eq_of_le h with hlt | heq
    · exact (F32.mag_lt_of_low31_lt hlt).le
    · exact (F32.mag_of_low31_eq heq).le

theorem F32.isFinite_of_low31_lt {w : Word} (h : w.toNat % 2 ^ 31 < 0x7F800000) : F32.isFinite w = true := by
  rw [F32.low31] at h
  have hne : F32.expField w ≠ 255 := by omega
  simpa [F32.isFinite] using hne

/-- A symmetric range is a bound on the magnitude. -/
theorem F32.within_neg_iff {w : Word} {n : Nat} :
    F32.within w (-n) n = true ↔ F32.isFinite w = true ∧ F32.mag w ≤ n * 2 ^ 149 := by
  have habs := F32.scaled_natAbs w
  simp only [F32.within, Bool.and_eq_true, decide_eq_true_eq, and_assoc]
  refine and_congr_right fun _ => ?_
  omega

/-! ### SET_PITCH (R17) -/

theorem F32.mag_twentyFour : F32.mag 0x41C00000#32 = 24 * 2 ^ 149 := by decide

/-- The legal semitones are the words whose magnitude bits are at most those of 24.0. -/
theorem legalSemitones_iff (payload : Word) :
    legalSemitones payload = true ↔ payload.toNat % 2 ^ 31 ≤ 0x41C00000 := by
  have hmag : F32.mag payload ≤ 24 * 2 ^ 149 ↔ payload.toNat % 2 ^ 31 ≤ 0x41C00000 := by
    rw [← F32.mag_twentyFour]
    exact F32.mag_le_mag_iff
  calc legalSemitones payload = true
      ↔ F32.isFinite payload = true ∧ F32.mag payload ≤ 24 * 2 ^ 149 := F32.within_neg_iff (n := 24)
    _ ↔ payload.toNat % 2 ^ 31 ≤ 0x41C00000 := by
        rw [hmag]
        exact and_iff_right_of_imp fun h => F32.isFinite_of_low31_lt (by omega)

theorem exec_setPitch_of_legal {payload : Word} (s : State) (h : legalSemitones payload = true) :
    exec (.setPitch payload) s = .next { s with pendPitchV := true, pendRatio := pitchExp2 s.params payload } :=
  if_pos h

theorem exec_setPitch_of_illegal {payload : Word} (s : State) (h : ¬ legalSemitones payload = true) :
    exec (.setPitch payload) s = .next s :=
  if_neg h

/-- Settles O2: the magnitude bits decide both the range and finiteness. -/
theorem setPitchPostsLegalSemitones : Obligations.SetPitchPostsLegalSemitones := by
  intro payload s
  refine ⟨fun h => exec_setPitch_of_legal s ((legalSemitones_iff payload).2 h), fun h => ?_⟩
  exact exec_setPitch_of_illegal s fun hl => absurd ((legalSemitones_iff payload).1 hl) (not_le.2 h)

end Sys2Proof.Machine

namespace Sys2Proof

/-! ### The same parameters with another SAMPLE_RATE (R14) -/

/-- The parameters of a hardware built for another sample rate (`State.withSampleRate_params`). -/
def Params.withSampleRate (p : Params) (rate : Nat) : Params := { p with sampleRate := rate }

section Parameters

variable (p : Params) (rate : Nat)

@[simp] theorem Params.withSampleRate_blockSize : (p.withSampleRate rate).blockSize = p.blockSize := rfl

@[simp] theorem Params.withSampleRate_channels : (p.withSampleRate rate).channels = p.channels := rfl

@[simp] theorem Params.withSampleRate_blockShape (block : List (List Word)) :
    (p.withSampleRate rate).blockShape block = p.blockShape block := rfl

end Parameters

end Sys2Proof

namespace Sys2Proof.Machine

/-! ### The functions of the parameters do not read the rate -/

section Parameters

variable (p : Params) (rate : Nat)

@[simp] theorem pitchExp2_withSampleRate : pitchExp2 (p.withSampleRate rate) = pitchExp2 p := rfl

@[simp] theorem windowProduct_withSampleRate : windowProduct (p.withSampleRate rate) = windowProduct p := rfl

@[simp] theorem accumulate_withSampleRate : accumulate (p.withSampleRate rate) = accumulate p := rfl

@[simp] theorem synthesize_withSampleRate : synthesize (p.withSampleRate rate) = synthesize p := rfl

@[simp] theorem romLookup_withSampleRate : romLookup (p.withSampleRate rate) = romLookup p := rfl

@[simp] theorem resampleGrain_withSampleRate : resampleGrain (p.withSampleRate rate) = resampleGrain p := rfl

theorem romSpan_withSampleRate (l i n : Nat) : romSpan (p.withSampleRate rate) l i n = romSpan p l i n := by
  induction n generalizing i with
  | zero => rfl
  | succ n ih => simp only [romSpan, romLookup_withSampleRate, ih]

@[simp] theorem romWindow_withSampleRate (l : Nat) : romWindow (p.withSampleRate rate) l = romWindow p l :=
  romSpan_withSampleRate p rate l 0 l

@[simp] theorem Buf.peekWin_withSampleRate (b : Buf) (off : Nat) (win : List Word) :
    b.peekWin (p.withSampleRate rate) off win = b.peekWin p off win := by
  simp only [Buf.peekWin, windowProduct_withSampleRate]

@[simp] theorem Buf.accum_withSampleRate (b : Buf) (off : Nat) (v : List Word) :
    b.accum (p.withSampleRate rate) off v = b.accum p off v := by
  simp only [Buf.accum, accumulate_withSampleRate]

end Parameters

/-! ### The same state with another SAMPLE_RATE: what the steps read is kept, and their updates commute with it -/

section States

variable (s : State) (rate : Nat)

@[simp] theorem State.withSampleRate_params : (s.withSampleRate rate).params = s.params.withSampleRate rate := rfl
@[simp] theorem State.withSampleRate_seq : (s.withSampleRate rate).seq = s.seq := rfl
@[simp] theorem State.withSampleRate_grainSize : (s.withSampleRate rate).grainSize = s.grainSize := rfl
@[simp] theorem State.withSampleRate_hopSize : (s.withSampleRate rate).hopSize = s.hopSize := rfl
@[simp] theorem State.withSampleRate_pitchRatio : (s.withSampleRate rate).pitchRatio = s.pitchRatio := rfl
@[simp] theorem State.withSampleRate_primed : (s.withSampleRate rate).primed = s.primed := rfl
@[simp] theorem State.withSampleRate_ibuf : (s.withSampleRate rate).ibuf = s.ibuf := rfl
@[simp] theorem State.withSampleRate_obuf : (s.withSampleRate rate).obuf = s.obuf := rfl
@[simp] theorem State.withSampleRate_pendGsV : (s.withSampleRate rate).pendGsV = s.pendGsV := rfl
@[simp] theorem State.withSampleRate_pendGs : (s.withSampleRate rate).pendGs = s.pendGs := rfl
@[simp] theorem State.withSampleRate_pendRst : (s.withSampleRate rate).pendRst = s.pendRst := rfl
@[simp] theorem State.withSampleRate_bypass : (s.withSampleRate rate).bypass = s.bypass := rfl
@[simp] theorem State.withSampleRate_maxGrains : (s.withSampleRate rate).maxGrains = s.maxGrains := rfl

@[simp] theorem State.withSampleRate_buf (b : BufId) : (s.withSampleRate rate).buf b = s.buf b := by
  cases b <;> rfl

theorem State.withSampleRate_setBuf (i : BufId) (b : Buf) :
    (s.withSampleRate rate).setBuf i b = (s.setBuf i b).withSampleRate rate := by
  cases i <;> rfl

end States

/-! ### Steps of a composite transaction -/

/-- The same result of a step in a hardware built for another sample rate: `f` says what the rate does to the value of a
completed step. -/
def stepWithSampleRate {α : Type} (rate : Nat) (f : α → α) : Except State α → Except State α
  | .ok a => .ok (f a)
  | .error t => .error (t.withSampleRate rate)

theorem State.withSampleRate_orRaise {α : Type} (s : State) (rate : Nat) (r : Except FaultCode α) :
    (s.withSampleRate rate).orRaise r = stepWithSampleRate rate id (s.orRaise r) := by
  cases r <;> rfl

/-- One step after another: both do the same, so the two together do. -/
theorem stepWithSampleRate_bind {α β : Type} {rate : Nat} {f : α → α} {g : β → β} {x : Except State α}
    {k k' : α → Except State β} (hk : ∀ a, k' (f a) = stepWithSampleRate rate g (k a)) :
    (stepWithSampleRate rate f x >>= k') = stepWithSampleRate rate g (x >>= k) := by
  cases x with
  | error t => rfl
  | ok a => exact hk a

/-! ### The steps of a grain cycle (43 R231 to R238) -/

section Grain

variable (s : State) (rate : Nat)

theorem State.withSampleRate_grainExtract :
    (s.withSampleRate rate).grainExtract = stepWithSampleRate rate id s.grainExtract := by
  simp only [State.grainExtract, State.withSampleRate_orRaise, State.withSampleRate_params,
    State.withSampleRate_grainSize, State.withSampleRate_ibuf, romWindow_withSampleRate, Buf.peekWin_withSampleRate]
  cases s.orRaise (romWindow s.params s.grainSize.toNat) <;> rfl

theorem State.withSampleRate_grainAdvanceRead :
    (s.withSampleRate rate).grainAdvanceRead = stepWithSampleRate rate (·.withSampleRate rate) s.grainAdvanceRead := by
  simp only [State.grainAdvanceRead, State.withSampleRate_orRaise, State.withSampleRate_ibuf,
    State.withSampleRate_hopSize]
  cases s.orRaise (s.ibuf.advRd s.hopSize.toNat) <;> rfl

theorem State.withSampleRate_grainResample (g : List Word) :
    (s.withSampleRate rate).grainResample g =
      stepWithSampleRate rate (Prod.map (·.withSampleRate rate) id) (s.grainResample g) := by
  simp only [State.grainResample, State.withSampleRate_orRaise, State.withSampleRate_params,
    State.withSampleRate_pitchRatio, resampleGrain_withSampleRate]
  cases s.orRaise (resampleGrain s.params g s.pitchRatio) <;> rfl

theorem State.withSampleRate_grainSynthesis (y : List Word) :
    (s.withSampleRate rate).grainSynthesis y = stepWithSampleRate rate id (s.grainSynthesis y) := by
  simp only [State.grainSynthesis, State.withSampleRate_orRaise, State.withSampleRate_params,
    romWindow_withSampleRate, synthesize_withSampleRate]
  cases s.orRaise (romWindow s.params y.length) <;> rfl

theorem State.withSampleRate_grainOverlapAdd (sv : List Word) :
    (s.withSampleRate rate).grainOverlapAdd sv =
      stepWithSampleRate rate (·.withSampleRate rate) (s.grainOverlapAdd sv) := by
  simp only [State.grainOverlapAdd, State.withSampleRate_orRaise, State.withSampleRate_params,
    State.withSampleRate_obuf, Buf.accum_withSampleRate]
  cases s.orRaise (s.obuf.accum s.params 0 sv) <;> rfl

theorem State.withSampleRate_grainAdvanceWrite :
    (s.withSampleRate rate).grainAdvanceWrite =
      stepWithSampleRate rate (·.withSampleRate rate) s.grainAdvanceWrite := by
  simp only [State.grainAdvanceWrite, State.withSampleRate_orRaise, State.withSampleRate_obuf,
    State.withSampleRate_hopSize]
  cases s.orRaise (s.obuf.advWr s.hopSize.toNat) <;> rfl

theorem State.withSampleRate_grainCycle :
    (s.withSampleRate rate).grainCycle = stepWithSampleRate rate (·.withSampleRate rate) s.grainCycle := by
  unfold State.grainCycle
  rw [State.withSampleRate_grainExtract]
  refine stepWithSampleRate_bind fun g => ?_
  rw [State.withSampleRate_grainAdvanceRead]
  refine stepWithSampleRate_bind fun s₁ => ?_
  rw [State.withSampleRate_grainResample]
  refine stepWithSampleRate_bind fun ⟨s₂, y⟩ => ?_
  dsimp only [Prod.map, id]
  rw [State.withSampleRate_grainSynthesis]
  refine stepWithSampleRate_bind fun sv => ?_
  dsimp only [id]
  rw [State.withSampleRate_grainOverlapAdd]
  refine stepWithSampleRate_bind fun s₃ => ?_
  rw [State.withSampleRate_grainAdvanceWrite]
  exact stepWithSampleRate_bind fun s₄ => rfl

theorem State.withSampleRate_grainLoop (fuel : Nat) :
    State.grainLoop fuel (s.withSampleRate rate) =
      stepWithSampleRate rate (·.withSampleRate rate) (State.grainLoop fuel s) := by
  induction fuel generalizing s with
  | zero => rfl
  | succ fuel ih =>
    simp only [State.grainLoop, State.withSampleRate_grainSize, State.withSampleRate_ibuf,
      State.withSampleRate_grainCycle]
    split
    · cases s.grainCycle with
      | error t => rfl
      | ok t => exact ih t
    · rfl

end Grain

/-! ### The steps of PROCESS_BLOCK (44 R261 to R273) -/

section Block

variable (s : State) (rate : Nat)

theorem State.withSampleRate_clearBoth (icap ocap : BitVec 16) :
    (s.withSampleRate rate).clearBoth icap ocap =
      stepWithSampleRate rate (·.withSampleRate rate) (s.clearBoth icap ocap) := by
  unfold State.clearBoth
  cases Buf.clear icap with
  | error c => rfl
  | ok ib => cases Buf.clear ocap <;> rfl

theorem State.withSampleRate_resetAction :
    (s.withSampleRate rate).resetAction = stepWithSampleRate rate (·.withSampleRate rate) s.resetAction := by
  simp only [State.resetAction, State.withSampleRate_clearBoth, State.withSampleRate_ibuf, State.withSampleRate_obuf]
  cases s.clearBoth s.ibuf.cap s.obuf.cap <;> rfl

theorem State.withSampleRate_resized (size : BitVec 13) (hop : BitVec 11) :
    { s.withSampleRate rate with grainSize := size, hopSize := hop } =
      State.withSampleRate { s with grainSize := size, hopSize := hop } rate := rfl

theorem State.withSampleRate_reconfigure (size : BitVec 13) :
    (s.withSampleRate rate).reconfigure size =
      stepWithSampleRate rate (·.withSampleRate rate) (s.reconfigure size) := by
  simp only [State.reconfigure, State.withSampleRate_resized, State.withSampleRate_clearBoth]
  cases State.clearBoth _ _ _ <;> rfl

theorem State.withSampleRate_applySizing :
    (s.withSampleRate rate).applySizing = stepWithSampleRate rate (·.withSampleRate rate) s.applySizing := by
  simp only [State.applySizing, State.withSampleRate_pendGsV, State.withSampleRate_pendGs,
    State.withSampleRate_pendRst, State.withSampleRate_reconfigure, State.withSampleRate_resetAction]
  split
  · rfl
  · split <;> rfl

theorem State.withSampleRate_applyMailbox :
    (s.withSampleRate rate).applyMailbox = stepWithSampleRate rate (·.withSampleRate rate) s.applyMailbox := by
  simp only [State.applyMailbox, State.withSampleRate_applySizing]
  cases s.applySizing <;> rfl

theorem State.withSampleRate_activeInput (ch0 : List Word) :
    (s.withSampleRate rate).activeInput ch0 =
      stepWithSampleRate rate (·.withSampleRate rate) (s.activeInput ch0) := by
  simp only [State.activeInput, State.withSampleRate_orRaise, State.withSampleRate_ibuf,
    State.withSampleRate_maxGrains]
  cases s.orRaise (s.ibuf.write ch0) with
  | error t => rfl
  | ok b => exact State.withSampleRate_grainLoop { s with ibuf := b } rate s.maxGrains

theorem State.withSampleRate_activeOutput :
    (s.withSampleRate rate).activeOutput =
      stepWithSampleRate rate (Prod.map (·.withSampleRate rate) id) s.activeOutput := by
  simp only [State.activeOutput, State.withSampleRate_orRaise, State.withSampleRate_params,
    State.withSampleRate_primed, State.withSampleRate_obuf, Params.withSampleRate_blockSize]
  split
  · cases s.orRaise (s.obuf.read s.params.blockSize true) <;> rfl
  · rfl

theorem State.withSampleRate_processBlock (ch0 : List Word) :
    (s.withSampleRate rate).processBlock ch0 =
      stepWithSampleRate rate (Prod.map (·.withSampleRate rate) id) (s.processBlock ch0) := by
  simp only [State.processBlock, State.withSampleRate_applyMailbox]
  cases s.applyMailbox with
  | error t => rfl
  | ok t =>
    simp only [stepWithSampleRate, State.withSampleRate_bypass, State.withSampleRate_activeInput]
    split
    · rfl
    · cases t.activeInput ch0 with
      | error u => rfl
      | ok u => exact u.withSampleRate_activeOutput rate

end Block

/-! ### The instructions -/

section Instructions

variable (s : State) (rate : Nat)

theorem State.withSampleRate_finishBuf (b : BufId) (r : Except FaultCode Buf) :
    (s.withSampleRate rate).finishBuf b r = outcomeWithSampleRate rate (s.finishBuf b r) := by
  cases r with
  | ok b' => exact congrArg Host.Outcome.next (s.withSampleRate_setBuf rate b b')
  | error c => rfl

theorem execSetPitch_withSampleRate (payload : Word) :
    execSetPitch payload (s.withSampleRate rate) = outcomeWithSampleRate rate (execSetPitch payload s) := by
  simp only [execSetPitch, State.withSampleRate_params, pitchExp2_withSampleRate]
  split <;> rfl

theorem execSetGrainSize_withSampleRate (payload : Word) :
    execSetGrainSize payload (s.withSampleRate rate) = outcomeWithSampleRate rate (execSetGrainSize payload s) := by
  unfold execSetGrainSize
  split <;> rfl

theorem execRead_withSampleRate (b : BufId) (z : Bool) (n off : BitVec 16) :
    execRead b z n off (s.withSampleRate rate) = outcomeWithSampleRate rate (execRead b z n off s) := by
  simp only [execRead, State.withSampleRate_buf, State.withSampleRate_setBuf]
  cases (s.buf b).read n.toNat z <;> rfl

theorem execPeekWin_withSampleRate (b : BufId) (z : Bool) (off : BitVec 16) (win : List Word) :
    execPeekWin b z off win (s.withSampleRate rate) = outcomeWithSampleRate rate (execPeekWin b z off win s) := by
  simp only [execPeekWin, State.withSampleRate_buf, State.withSampleRate_params, Buf.peekWin_withSampleRate]
  cases (s.buf b).peekWin s.params off.toNat win <;> rfl

theorem execLookup_withSampleRate (l i : BitVec 15) :
    execLookup l i (s.withSampleRate rate) = outcomeWithSampleRate rate (execLookup l i s) := by
  simp only [execLookup, State.withSampleRate_params, romLookup_withSampleRate]
  cases romLookup s.params l.toNat i.toNat <;> rfl

theorem execResample_withSampleRate (ratio : Word) (x : List Word) :
    execResample ratio x (s.withSampleRate rate) = outcomeWithSampleRate rate (execResample ratio x s) := by
  simp only [execResample, State.withSampleRate_params, resampleGrain_withSampleRate]
  cases resampleGrain s.params x ratio <;> rfl

theorem execGrainCycle_withSampleRate :
    execGrainCycle (s.withSampleRate rate) = outcomeWithSampleRate rate (execGrainCycle s) := by
  simp only [execGrainCycle, State.withSampleRate_grainCycle]
  cases s.grainCycle <;> rfl

theorem execProcessBlock_withSampleRate (inp : List (List Word)) :
    execProcessBlock inp (s.withSampleRate rate) = outcomeWithSampleRate rate (execProcessBlock inp s) := by
  simp only [execProcessBlock, State.withSampleRate_params, State.withSampleRate_seq,
    State.withSampleRate_processBlock, Params.withSampleRate_blockShape, Params.withSampleRate_channels]
  split
  · split
    · rfl
    · cases s.processBlock (inp.headD []) <;> rfl
  · rfl

end Instructions

/-- Settles O46: instruction by instruction; no operation reads the rate, and each update of the state commutes with it. -/
theorem sampleRateHasNoEffect : Obligations.SampleRateHasNoEffect := by
  intro i s rate
  cases i with
  | nop payload => rfl
  | setPitch payload => exact execSetPitch_withSampleRate s rate payload
  | setGrainSize payload => exact execSetGrainSize_withSampleRate s rate payload
  | reset payload => rfl
  | ctlReserved47 op payload => rfl
  | ctlReserved8F op payload => rfl
  | clear b z cap off => exact s.withSampleRate_finishBuf rate b _
  | write b z off din =>
    simpa only [exec, execWrite, State.withSampleRate_buf] using s.withSampleRate_finishBuf rate b _
  | read b z n off => exact execRead_withSampleRate s rate b z n off
  | peekWin b z off win => exact execPeekWin_withSampleRate s rate b z off win
  | accum b z off din =>
    simpa only [exec, execAccum, State.withSampleRate_buf, State.withSampleRate_params, Buf.accum_withSampleRate]
      using s.withSampleRate_finishBuf rate b _
  | advRd b z n off =>
    simpa only [exec, execAdvRd, State.withSampleRate_buf] using s.withSampleRate_finishBuf rate b _
  | advWr b z n off =>
    simpa only [exec, execAdvWr, State.withSampleRate_buf] using s.withSampleRate_finishBuf rate b _
  | bufReserved b z a off => rfl
  | lookup l k => exact execLookup_withSampleRate s rate l k
  | resample ratio x => exact execResample_withSampleRate s rate ratio x
  | grainCycle => exact execGrainCycle_withSampleRate s rate
  | processBlock inp => exact execProcessBlock_withSampleRate s rate inp
  | statusRead addr => rfl

end Sys2Proof.Machine

/-! PROOFS. The family of 10_state.md: the invariants every BUF transaction keeps (R42), the sticky FAULT (R45), the fields of STATUS
(R47), and the tolerance of BYPASS (R38). -/

namespace Sys2Proof

/-- The decoder's check of a side bus only decides whether the instruction is accepted. -/
theorem eq_of_ite_ok {c : Prop} [Decidable c] {e : DecodeError} {i j : Instr}
    (h : (if c then .ok i else .error e : Except DecodeError Instr) = .ok j) : j = i := by
  split at h <;> cases h
  rfl

/-- What a BUF frame decodes to: one of the eight operations, on the buffer the frame names (30 R115 to R117). -/
theorem decode_buf_cases {b : BufId} {w : BitVec 36} {din : List Word} {i : Instr} (h : decode (.buf b w din) = .ok i) :
    (∃ z cap off, i = .clear b z cap off) ∨ (∃ z off, i = .write b z off din) ∨ (∃ z n off, i = .read b z n off) ∨
    (∃ z off, i = .peekWin b z off din) ∨ (∃ z off, i = .accum b z off din) ∨ (∃ z n off, i = .advRd b z n off) ∨
    (∃ z n off, i = .advWr b z n off) ∨ (∃ z a off, i = .bufReserved b z a off) := by
  simp only [decode, decodeBuf] at h
  split at h
  · exact .inl ⟨_, _, _, eq_of_ite_ok h⟩
  · exact .inr (.inl ⟨_, _, eq_of_ite_ok h⟩)
  · exact .inr (.inr (.inl ⟨_, _, _, eq_of_ite_ok h⟩))
  · exact .inr (.inr (.inr (.inl ⟨_, _, eq_of_ite_ok h⟩)))
  · exact .inr (.inr (.inr (.inr (.inl ⟨_, _, eq_of_ite_ok h⟩))))
  · exact .inr (.inr (.inr (.inr (.inr (.inl ⟨_, _, _, eq_of_ite_ok h⟩)))))
  · exact .inr (.inr (.inr (.inr (.inr (.inr (.inl ⟨_, _, _, eq_of_ite_ok h⟩))))))
  · exact .inr (.inr (.inr (.inr (.inr (.inr (.inr ⟨_, _, _, eq_of_ite_ok h⟩))))))

end Sys2Proof

namespace Sys2Proof.Machine

/-! ### The buffer invariants (R42) -/

/-- A buffer is sound when its cells are in order and its three cursors agree; that WR is below CAP follows. -/
theorem Buf.sound_of_cellsOk {b : Buf} (hcells : b.CellsOk) (hcnt : b.cnt.toNat ≤ b.cap.toNat)
    (hrd : b.rd.toNat < b.cap.toNat) (hwr : b.wr.toNat = (b.rd.toNat + b.cnt.toNat) % b.cap.toNat) : b.Sound := by
  obtain ⟨hcap, hdepth, hwf, hbelow⟩ := hcells
  exact ⟨hcap, hdepth, hcnt, hrd, hwr ▸ Nat.mod_lt _ hcap, hwr, hwf, hbelow⟩

/-- An operation on the cells alone keeps a buffer sound if it keeps the cells in order. -/
theorem Buf.Sound.of_regs_eq {b b' : Buf} (h : b.Sound) (hcells : b'.CellsOk) (hcap : b'.cap = b.cap)
    (hrd : b'.rd = b.rd) (hwr : b'.wr = b.wr) (hcnt : b'.cnt = b.cnt) : b'.Sound := by
  obtain ⟨-, -, hcnt', hrd', -, hwr', -, -⟩ := h
  refine Buf.sound_of_cellsOk hcells ?_ ?_ ?_ <;> simpa only [hcap, hrd, hwr, hcnt]

/-- A cursor of a usable capacity moves on without loss: it fits its register (20 R81). -/
theorem Buf.CellsOk.advance_toNat {b : Buf} (h : b.CellsOk) (cursor : BitVec 15) (n : Nat) :
    (b.advance cursor n).toNat = (cursor.toNat + n) % b.cap.toNat := by
  obtain ⟨hcap, hdepth, -, -⟩ := h
  have hlt : (cursor.toNat + n) % b.cap.toNat < b.cap.toNat := Nat.mod_lt _ hcap
  rw [Buf.advance, BitVec.toNat_ofNat, Nat.mod_eq_of_lt]
  exact hlt.trans_le hdepth

theorem Buf.clear_sound {cap : BitVec 16} {b : Buf} (h : Buf.clear cap = .ok b) : b.Sound := by
  obtain ⟨hcap, hdepth, rfl⟩ := Buf.clear_eq_ok.1 h
  exact Buf.sound_of_cellsOk (Buf.cleared_cellsOk hcap hdepth) (Nat.zero_le _) hcap (Nat.zero_mod _).symm

theorem Buf.advWr_sound {b b' : Buf} {n : Nat} (hb : b.Sound) (h : b.advWr n = .ok b') : b'.Sound := by
  obtain ⟨hfit, rfl⟩ := Buf.advWr_eq_ok.1 h
  have hcells := hb.cellsOk
  obtain ⟨hcap, hdepth, hcnt, hrd, -, hwr, -, -⟩ := hb
  have hcnt' : (BitVec.ofNat 16 (b.cnt.toNat + n)).toNat = b.cnt.toNat + n := by
    rw [BitVec.toNat_ofNat, Nat.mod_eq_of_lt]
    simp only [Config.depthMax] at hdepth
    omega
  refine Buf.sound_of_cellsOk hcells (hcnt'.trans_le hfit) hrd ?_
  calc (b.advance b.wr n).toNat
      = ((b.rd.toNat + b.cnt.toNat) % b.cap.toNat + n) % b.cap.toNat := by rw [hcells.advance_toNat, hwr]
    _ = (b.rd.toNat + (b.cnt.toNat + n)) % b.cap.toNat := by rw [Nat.mod_add_mod, Nat.add_assoc]
    _ = (b.rd.toNat + (BitVec.ofNat 16 (b.cnt.toNat + n)).toNat) % b.cap.toNat := by rw [hcnt']

theorem Buf.advRd_sound {b b' : Buf} {n : Nat} (hb : b.Sound) (h : b.advRd n = .ok b') : b'.Sound := by
  obtain ⟨hle, rfl⟩ := Buf.advRd_eq_ok.1 h
  have hcells := hb.cellsOk
  obtain ⟨hcap, hdepth, hcnt, hrd, -, hwr, -, -⟩ := hb
  have hrd' := hcells.advance_toNat b.rd n
  have hcnt' : (BitVec.ofNat 16 (b.cnt.toNat - n)).toNat = b.cnt.toNat - n := by
    rw [BitVec.toNat_ofNat, Nat.mod_eq_of_lt]
    omega
  refine Buf.sound_of_cellsOk hcells (hcnt'.trans_le ((Nat.sub_le _ _).trans hcnt)) (hrd'.trans_lt (Nat.mod_lt _ hcap)) ?_
  calc b.wr.toNat
      = (b.rd.toNat + n + (b.cnt.toNat - n)) % b.cap.toNat := by rw [hwr]; congr 1; omega
    _ = ((b.advance b.rd n).toNat + (BitVec.ofNat 16 (b.cnt.toNat - n)).toNat) % b.cap.toNat := by
        rw [hrd', hcnt', Nat.mod_add_mod]

theorem Buf.writeCells_sound {b : Buf} (hb : b.Sound) (k : Nat) (v : List Word) : (b.writeCells k v).Sound :=
  hb.of_regs_eq (Buf.writeCells_cellsOk k v hb.cellsOk) (by simp) (by simp) (by simp) (by simp)

theorem Buf.takeCells_sound {b : Buf} (hb : b.Sound) (z : Bool) (k n : Nat) : (b.takeCells z k n).1.Sound :=
  hb.of_regs_eq (Buf.takeCells_cellsOk z k n hb.cellsOk) (by simp) (by simp) (by simp) (by simp)

theorem Buf.write_sound {b b' : Buf} {v : List Word} (hb : b.Sound) (h : b.write v = .ok b') : b'.Sound := by
  unfold Buf.write at h
  split at h
  · cases h
  · exact Buf.advWr_sound (Buf.writeCells_sound hb _ v) h

theorem Buf.read_sound {b b' : Buf} {n : Nat} {z : Bool} {r : List Word} (hb : b.Sound)
    (h : b.read n z = .ok (b', r)) : b'.Sound := by
  obtain ⟨hle, -, rfl⟩ := Buf.read_eq_ok.1 h
  refine Buf.advRd_sound (n := n) (Buf.takeCells_sound hb z b.rd.toNat n) (Buf.advRd_eq_ok.2 ⟨by simpa using hle, ?_⟩)
  simp [Buf.advance]

theorem Buf.accum_sound {p : Params} {b b' : Buf} {off : Nat} {v : List Word} (hb : b.Sound)
    (h : b.accum p off v = .ok b') : b'.Sound := by
  obtain ⟨-, rfl⟩ := Buf.accum_eq_ok.1 h
  exact hb.of_regs_eq (Buf.accumCells_cellsOk _ _ v hb.cellsOk) (by simp) (by simp) (by simp) (by simp)

/-- Both buffers are sound (R42). -/
abbrev State.BuffersSound (s : State) : Prop := s.ibuf.Sound ∧ s.obuf.Sound

theorem State.BuffersSound.buf {s : State} (h : s.BuffersSound) (i : BufId) : (s.buf i).Sound := by
  cases i
  · exact h.1
  · exact h.2

theorem State.BuffersSound.setBuf {s : State} (h : s.BuffersSound) (i : BufId) {b : Buf} (hb : b.Sound) :
    (s.setBuf i b).BuffersSound := by
  cases i
  · exact ⟨hb, h.2⟩
  · exact ⟨h.1, hb⟩

theorem State.BuffersSound.finishBuf {s t : State} (hs : s.BuffersSound) {i : BufId} {r : Except FaultCode Buf}
    (hr : ∀ b, r = .ok b → b.Sound) (h : s.finishBuf i r = .next t) : t.BuffersSound := by
  rcases s.finishBuf_cases i r with ⟨b, hb, hnext⟩ | ⟨c, -, hnext⟩
  · rw [hnext] at h; cases h; exact hs.setBuf i (hr b hb)
  · rw [hnext] at h; cases h; exact hs

theorem execRead_buffersSound {s t : State} (hs : s.BuffersSound) {b : BufId} {z : Bool} {n off : BitVec 16}
    (h : execRead b z n off s = .next t) : t.BuffersSound := by
  unfold execRead at h
  split at h
  next b' r hread => cases h; exact hs.setBuf b (Buf.read_sound (hs.buf b) hread)
  next c _ => cases h; exact hs

theorem execPeekWin_buffersSound {s t : State} (hs : s.BuffersSound) {b : BufId} {z : Bool} {off : BitVec 16}
    {win : List Word} (h : execPeekWin b z off win s = .next t) : t.BuffersSound := by
  unfold execPeekWin at h
  split at h <;> cases h <;> exact hs

/-- Settles O15: operation by operation; one that completes keeps its buffer sound, one that faults changes no buffer. -/
theorem bufTransactionsKeepBufferInvariants : Obligations.BufTransactionsKeepBufferInvariants := by
  intro id w din i s t hdec hib hob h
  have hs : s.BuffersSound := ⟨hib, hob⟩
  have hb := hs.buf id
  rcases decode_buf_cases hdec with ⟨z, cap, off, rfl⟩ | ⟨z, off, rfl⟩ | ⟨z, n, off, rfl⟩ | ⟨z, off, rfl⟩ | ⟨z, off, rfl⟩ |
    ⟨z, n, off, rfl⟩ | ⟨z, n, off, rfl⟩ | ⟨z, a, off, rfl⟩
  · exact hs.finishBuf (fun _ => Buf.clear_sound) h
  · exact hs.finishBuf (fun _ => Buf.write_sound hb) h
  · exact execRead_buffersSound (off := off) hs h
  · exact execPeekWin_buffersSound (z := z) hs h
  · exact hs.finishBuf (fun _ => Buf.accum_sound hb) h
  · exact hs.finishBuf (fun _ => Buf.advRd_sound hb) h
  · exact hs.finishBuf (fun _ => Buf.advWr_sound hb) h
  · cases h; exact hs

/-! ### The sticky FAULT (R45) -/

/-- FAULT and SEQ are the same in both states. -/
def State.SameFault (s t : State) : Prop := t.fault = s.fault ∧ t.seq = s.seq

/-- A fault was raised after steps that left FAULT and SEQ alone (60 R311). -/
def State.RaisedFrom (s t : State) : Prop := ∃ u c, s.SameFault u ∧ t = u.raise c

theorem State.SameFault.refl (s : State) : s.SameFault s := ⟨rfl, rfl⟩

theorem State.SameFault.trans {s t u : State} (hst : s.SameFault t) (htu : t.SameFault u) : s.SameFault u :=
  ⟨htu.1.trans hst.1, htu.2.trans hst.2⟩

theorem State.setBuf_sameFault (s : State) (i : BufId) (b : Buf) : s.SameFault (s.setBuf i b) := by
  cases i <;> exact ⟨rfl, rfl⟩

theorem State.raise_raisedFrom (s : State) (c : FaultCode) : s.RaisedFrom (s.raise c) := ⟨s, c, .refl s, rfl⟩

theorem State.RaisedFrom.seq_eq {s t : State} (h : s.RaisedFrom t) : t.seq = .faulted := by
  obtain ⟨u, c, -, rfl⟩ := h
  rfl

theorem State.RaisedFrom.fault_eq {s t : State} (h : s.RaisedFrom t) :
    ∃ c : FaultCode, t.fault = if s.fault = 0#4 then c.bits else s.fault := by
  obtain ⟨u, c, ⟨hfault, -⟩, rfl⟩ := h
  exact ⟨c, by rw [State.raise_fault, hfault]⟩

/-- What a step of a composite transaction does to FAULT and SEQ, `view` giving the state it completes in: nothing where it
completes, and one raise where it stops. -/
def State.FaultRule {α : Type} (s : State) (view : α → State) : Except State α → Prop
  | .ok a => s.SameFault (view a)
  | .error t => s.RaisedFrom t

theorem State.FaultRule.after {α : Type} {s t : State} {view : α → State} {r : Except State α} (hst : s.SameFault t)
    (h : t.FaultRule view r) : s.FaultRule view r := by
  cases r with
  | ok a => exact hst.trans h
  | error e =>
    obtain ⟨u, c, htu, he⟩ := h
    exact ⟨u, c, hst.trans htu, he⟩

theorem GrainSteps.sameFault {s t : State} (h : GrainSteps s t) : s.SameFault t := by
  rw [h.result]
  exact ⟨rfl, rfl⟩

theorem GrainStop.sameFault {s u : State} (h : GrainStop s u) : s.SameFault u := by
  rcases h with rfl | ⟨ib, -, rfl | ⟨g, y, -, -, rfl | ⟨sv, ob, -, rfl⟩⟩⟩ <;> exact ⟨rfl, rfl⟩

theorem State.grainCycle_faultRule (s : State) : s.FaultRule id s.grainCycle := by
  rcases s.grainCycle_cases with ⟨t, ht, ⟨hsteps⟩⟩ | ⟨u, c, hu, hstop⟩
  · rw [ht]; exact hsteps.sameFault
  · rw [hu]; exact ⟨u, c, hstop.sameFault, rfl⟩

theorem State.grainLoop_faultRule (fuel : Nat) (s : State) : s.FaultRule id (State.grainLoop fuel s) := by
  induction fuel generalizing s with
  | zero => exact .refl s
  | succ fuel ih =>
    have hcycle := s.grainCycle_faultRule
    unfold State.grainLoop
    split
    · generalize s.grainCycle = r at hcycle ⊢
      cases r with
      | error t => exact hcycle
      | ok t => exact (ih t).after hcycle
    · exact .refl s

theorem State.clearBoth_faultRule (s : State) (icap ocap : BitVec 16) : s.FaultRule id (s.clearBoth icap ocap) := by
  rcases s.clearBoth_cases icap ocap with h | h | h <;> rw [h]
  · exact ⟨rfl, rfl⟩
  · exact s.raise_raisedFrom _
  · exact ⟨{ s with ibuf := Buf.cleared icap }, _, ⟨rfl, rfl⟩, rfl⟩

theorem State.resetAction_faultRule (s : State) : s.FaultRule id s.resetAction := by
  have h := s.clearBoth_faultRule s.ibuf.cap s.obuf.cap
  unfold State.resetAction
  generalize s.clearBoth s.ibuf.cap s.obuf.cap = r at h ⊢
  cases r <;> exact h

theorem State.reconfigure_faultRule (s : State) (size : BitVec 13) : s.FaultRule id (s.reconfigure size) := by
  have h := State.clearBoth_faultRule { s with grainSize := size, hopSize := BitVec.ofNat 11 (size.toNat / 4) }
    (BitVec.ofNat 16 (8 * size.toNat)) (BitVec.ofNat 16 (8 * size.toNat))
  unfold State.reconfigure
  dsimp only
  generalize State.clearBoth _ _ _ = r at h ⊢
  cases r <;> exact h

theorem State.applyMailbox_faultRule (s : State) : s.FaultRule id s.applyMailbox := by
  have h : s.FaultRule id s.applySizing := by
    unfold State.applySizing
    split
    · exact s.reconfigure_faultRule _
    · split
      · exact s.resetAction_faultRule
      · exact .refl s
  unfold State.applyMailbox
  generalize s.applySizing = r at h ⊢
  cases r <;> exact h

theorem State.activeInput_faultRule (s : State) (ch0 : List Word) : s.FaultRule id (s.activeInput ch0) := by
  unfold State.activeInput
  cases s.ibuf.write ch0 with
  | error c => exact s.raise_raisedFrom c
  | ok b => exact (State.grainLoop_faultRule _ { s with ibuf := b }).after ⟨rfl, rfl⟩

theorem State.activeOutput_faultRule (s : State) : s.FaultRule Prod.fst s.activeOutput := by
  rcases s.activeOutput_cases with ⟨-, b, o, -, h⟩ | ⟨-, h⟩ | ⟨-, h⟩ <;> rw [h]
  · exact ⟨rfl, rfl⟩
  · exact s.raise_raisedFrom _
  · exact .refl s

theorem State.processBlock_faultRule (s : State) (ch0 : List Word) : s.FaultRule Prod.fst (s.processBlock ch0) := by
  have hmailbox := s.applyMailbox_faultRule
  cases ht : s.applyMailbox with
  | error t =>
    rw [ht] at hmailbox
    simp only [State.processBlock, ht]
    exact hmailbox
  | ok t =>
    rw [ht] at hmailbox
    refine State.FaultRule.after hmailbox ?_
    have hinput := t.activeInput_faultRule ch0
    rw [State.processBlock_eq ht]
    split
    · exact .refl t
    · generalize t.activeInput ch0 = r at hinput ⊢
      cases r with
      | error u => exact hinput
      | ok u => exact u.activeOutput_faultRule.after hinput

/-- PROCESS_BLOCK answers a next state only by its body (44 R261). -/
theorem execProcessBlock_next {inp : List (List Word)} {s t : State} (h : execProcessBlock inp s = .next t) :
    (∃ u o, s.processBlock (inp.headD []) = .ok (u, o) ∧
      t = { u with resp := .block (List.replicate s.params.channels o) }) ∨
    s.processBlock (inp.headD []) = .error t := by
  unfold execProcessBlock at h
  split at h
  · split at h
    · cases h
    · cases hp : s.processBlock (inp.headD []) with
      | ok r => rw [hp] at h; cases h; exact .inl ⟨r.1, r.2, rfl, rfl⟩
      | error u => rw [hp] at h; cases h; exact .inr rfl
  · cases h

theorem State.finishBuf_fault_cases {s t : State} {i : BufId} {r : Except FaultCode Buf} (h : s.finishBuf i r = .next t) :
    s.SameFault t ∨ s.RaisedFrom t := by
  rcases s.finishBuf_cases i r with ⟨b, -, hb⟩ | ⟨c, -, hc⟩
  · rw [hb] at h; cases h; exact .inl (s.setBuf_sameFault i b)
  · rw [hc] at h; cases h; exact .inr (s.raise_raisedFrom c)

/-- What an instruction that answers a next state does to FAULT and SEQ: nothing, or one raise. -/
theorem exec_fault_cases {i : Instr} {s t : State} (h : exec i s = .next t) : s.SameFault t ∨ s.RaisedFrom t := by
  cases i with
  | nop payload => cases h; exact .inl (.refl s)
  | setPitch payload =>
    simp only [exec, execSetPitch] at h
    split at h <;> cases h <;> exact .inl ⟨rfl, rfl⟩
  | setGrainSize payload =>
    simp only [exec, execSetGrainSize] at h
    split at h <;> cases h <;> exact .inl ⟨rfl, rfl⟩
  | reset payload => cases h; exact .inl ⟨rfl, rfl⟩
  | ctlReserved47 op payload => cases h; exact .inl (.refl s)
  | ctlReserved8F op payload => cases h; exact .inl (.refl s)
  | clear b z cap off => exact s.finishBuf_fault_cases h
  | write b z off din => exact s.finishBuf_fault_cases h
  | read b z n off =>
    simp only [exec, execRead] at h
    split at h
    · cases h; exact .inl (s.setBuf_sameFault b _)
    · cases h; exact .inr (s.raise_raisedFrom _)
  | peekWin b z off win =>
    simp only [exec, execPeekWin] at h
    split at h
    · cases h; exact .inl ⟨rfl, rfl⟩
    · cases h; exact .inr (s.raise_raisedFrom _)
  | accum b z off din => exact s.finishBuf_fault_cases h
  | advRd b z n off => exact s.finishBuf_fault_cases h
  | advWr b z n off => exact s.finishBuf_fault_cases h
  | bufReserved b z a off => cases h; exact .inr (s.raise_raisedFrom _)
  | lookup l k =>
    simp only [exec, execLookup] at h
    split at h
    · cases h; exact .inl ⟨rfl, rfl⟩
    · cases h; exact .inr (s.raise_raisedFrom _)
  | resample ratio x =>
    simp only [exec, execResample] at h
    split at h
    · cases h; exact .inl ⟨rfl, rfl⟩
    · cases h; exact .inr (s.raise_raisedFrom _)
  | grainCycle =>
    have hcycle := s.grainCycle_faultRule
    simp only [exec, execGrainCycle] at h
    generalize s.grainCycle = r at hcycle h
    cases r with
    | ok u => cases h; exact .inl hcycle
    | error u => cases h; exact .inr hcycle
  | processBlock inp =>
    have hblock := s.processBlock_faultRule (inp.headD [])
    rcases execProcessBlock_next h with ⟨u, o, hu, rfl⟩ | herr
    · rw [hu] at hblock; exact .inl hblock
    · rw [herr] at hblock; exact .inr hblock
  | statusRead addr => cases h; exact .inl ⟨rfl, rfl⟩

/-- A power-on event that is taken gives the power-on state, whatever state it meets (70 R340). -/
theorem step_powerOn_next {s t : State} {p : Params} {rest : List Event} (hs : s.inbox = .powerOn p :: rest)
    (h : step s = .next t) : t = (s.accept rest).powerOnReset p := by
  simp only [step, hs] at h
  split at h <;> cases h
  rfl

/-- Settles O18: an instruction leaves FAULT and SEQ alone or raises, and a raise keeps the first code. -/
theorem faultRegisterIsSticky : Obligations.FaultRegisterIsSticky := by
  refine ⟨fun _ => rfl, fun i s t hs h => ?_, fun i s t hs h => ?_, fun i s t hs h => ?_, fun s t p rest hs h => ?_⟩
  · rcases exec_fault_cases h with hsame | hraised
    · exact hsame.1
    · obtain ⟨c, hc⟩ := hraised.fault_eq
      rwa [if_neg hs] at hc
  · rcases exec_fault_cases h with hsame | hraised
    · exact .inl (hsame.1.trans hs)
    · obtain ⟨c, hc⟩ := hraised.fault_eq
      rw [if_pos hs] at hc
      exact .inr ⟨hraised.seq_eq, c, hc⟩
  · rcases exec_fault_cases h with hsame | hraised
    · exact hsame.2.trans hs
    · exact hraised.seq_eq
  · rw [step_powerOn_next hs h]
    exact ⟨rfl, rfl⟩

/-! ### The fields of STATUS (R47) -/

section StatusWord

variable (s : State)

theorem State.statusWord_primed : s.statusWord.getLsbD 0 = s.primed := by
  simp only [State.statusWord, BitVec.getLsbD_append]
  simp

theorem State.statusWord_bypass : s.statusWord.getLsbD 1 = s.bypass := by
  simp only [State.statusWord, BitVec.getLsbD_append]
  simp

theorem State.statusWord_gsCode : s.statusWord.extractLsb' 2 2 = gsCode s.grainSize := by
  simp (disch := decide) only [State.statusWord, BitVec.extractLsb'_append_eq_of_le, Nat.reduceSub,
    BitVec.extractLsb'_append_eq_right]

theorem State.statusWord_fault : s.statusWord.extractLsb' 4 4 = s.fault := by
  simp (disch := decide) only [State.statusWord, BitVec.extractLsb'_append_eq_of_le, Nat.reduceSub,
    BitVec.extractLsb'_append_eq_right]

theorem State.statusWord_pending : s.statusWord.getLsbD 8 = s.pending := by
  simp only [State.statusWord, BitVec.getLsbD_append]
  simp

theorem State.statusWord_high_zero : s.statusWord.extractLsb' 9 23 = 0#23 := by
  simp (disch := decide) only [State.statusWord, BitVec.extractLsb'_append_eq_of_le, Nat.reduceSub,
    BitVec.extractLsb'_eq_self]

end StatusWord

theorem gsCode_legal {g : BitVec 13} (h : legalGrainSize g.toNat = true) : g.toNat = 512 * 2 ^ (gsCode g).toNat := by
  rcases legalGrainSize_cases h with hg | hg | hg | hg <;> rw [gsCode, hg] <;> decide

theorem bypassRatio_one : bypassRatio Word.one = true := by decide

/-- Settles O48: field by field; the legal sizes are the four powers of two that GS_CODE tells apart. -/
theorem statusWordFields : Obligations.StatusWordFields := by
  refine ⟨fun s hs => ⟨s.statusWord_primed, s.statusWord_bypass, ?_, s.statusWord_fault, s.statusWord_pending,
    s.statusWord_high_zero⟩, fun p hp => ?_⟩
  · rw [s.statusWord_gsCode]
    exact gsCode_legal hs
  · simp only [State.statusWord, State.bypass, State.powerOn, State.pending, bypassRatio_one, hp]
    decide

/-! ### The tolerance of BYPASS (R38) -/

/-- A distance of less than a thousandth, cleared of its denominators. -/
theorem natAbs_lt_iff_rat (n : ℤ) {d : ℕ} (hd : 0 < d) :
    (n - d).natAbs * 1000 < d ↔ |(n : ℚ) / d - 1| < 1 / 1000 := by
  have hd' : (0 : ℚ) < d := by exact_mod_cast hd
  have hdist : |(n : ℚ) / d - 1| = ((n - d).natAbs : ℚ) / d := by
    rw [Nat.cast_natAbs, Int.cast_abs, Int.cast_sub, Int.cast_natCast, ← abs_of_pos hd', ← abs_div, abs_of_pos hd',
      sub_div, div_self hd'.ne']
  rw [hdist, div_lt_div_iff₀ hd' (by norm_num), one_mul]
  exact_mod_cast Iff.rfl

/-- Settles O49: the comparison of integers is the rational one, cleared of its denominators. -/
theorem bypassIsTheExactTolerance : Obligations.BypassIsTheExactTolerance := by
  refine ⟨fun s hfinite => ?_, fun p => bypassRatio_one⟩
  rw [State.bypass, bypassRatio, hfinite, Bool.true_and, decide_eq_true_eq]
  exact_mod_cast natAbs_lt_iff_rat (F32.scaled s.pitchRatio) (d := 2 ^ 149) (by positivity)

end Sys2Proof.Machine

/-! PROOFS. The family of 40_circular_sample_buffer.md: the two operations that move a cursor and leave the cells, ADV_RD (R145) and
ADV_WR (R146). -/

namespace Sys2Proof

/-! ### Their frames (30 R115 to R117) -/

theorem decode_bufWord_advRd (i : BufId) (z : Bool) (n off : BitVec 16) :
    decode (.buf i (bufWord 0b101#3 z n off) []) = .ok (.advRd i z n off) := by
  simp only [decode, decodeBuf, bufWord_op, bufWord_z, bufWord_a, bufWord_off]
  rfl

theorem decode_bufWord_advWr (i : BufId) (z : Bool) (n off : BitVec 16) :
    decode (.buf i (bufWord 0b110#3 z n off) []) = .ok (.advWr i z n off) := by
  simp only [decode, decodeBuf, bufWord_op, bufWord_z, bufWord_a, bufWord_off]
  rfl

end Sys2Proof

namespace Sys2Proof.Machine

/-! ### The result of a BUF operation without dout -/

theorem State.finishBuf_of_ok {s : State} {i : BufId} {r : Except FaultCode Buf} {b : Buf} (h : r = .ok b) :
    s.finishBuf i r = .next (s.setBuf i b) := by
  rw [h]; rfl

theorem State.finishBuf_of_error {s : State} {i : BufId} {r : Except FaultCode Buf} {c : FaultCode} (h : r = .error c) :
    s.finishBuf i r = .next (s.raise c) := by
  rw [h]; rfl

/-! ### The count after the move -/

/-- A count of at most CAP fits its register. -/
theorem Buf.count_toNat {b : Buf} {k : Nat} (h : k ≤ b.cap.toNat) : (BitVec.ofNat 16 k).toNat = k :=
  (BitVec.toNat_ofNat _ _).trans (Nat.mod_eq_of_lt (h.trans_lt b.cap.isLt))

theorem Buf.Sound.cnt_le_cap {b : Buf} (h : b.Sound) : b.cnt.toNat ≤ b.cap.toNat := by
  obtain ⟨-, -, hcnt, -, -, -, -, -⟩ := h
  exact hcnt

/-- Settles O12: with n samples unread, neither the new cursor nor the new count loses a bit in its register. -/
theorem advRdConsumesSamples : Obligations.AdvRdConsumesSamples := by
  intro i z n off s hs
  refine ⟨decode_bufWord_advRd i z n off, fun hunread => ?_, fun hfew => ?_⟩
  · refine ⟨_, State.finishBuf_of_ok (Buf.advRd_eq_ok.2 ⟨hunread, rfl⟩), rfl, ?_, ?_⟩
    · exact hs.cellsOk.advance_toNat _ _
    · exact Buf.count_toNat ((Nat.sub_le _ _).trans hs.cnt_le_cap)
  · exact State.finishBuf_of_error (Buf.advRd_eq_error.2 ⟨hfew, rfl⟩)

/-- Settles O13: with room for n samples, neither the new cursor nor the new count loses a bit in its register. -/
theorem advWrPublishesSamples : Obligations.AdvWrPublishesSamples := by
  intro i z n off s hs
  refine ⟨decode_bufWord_advWr i z n off, fun hroom => ?_, fun hfull => ?_⟩
  · refine ⟨_, State.finishBuf_of_ok (Buf.advWr_eq_ok.2 ⟨hroom, rfl⟩), rfl, ?_, ?_⟩
    · exact hs.cellsOk.advance_toNat _ _
    · exact Buf.count_toNat hroom
  · exact State.finishBuf_of_error (Buf.advWr_eq_error.2 ⟨hfull, rfl⟩)

end Sys2Proof.Machine

/-! PROOFS. The family of 41_hann_window_rom.md: the exact values, the symmetry and the range of the default ROM (R183). -/

namespace Sys2Proof.Machine

/-! ### Rounding keeps the bound 1.0 (R24) -/

/-- Rounding passes no integer. -/
theorem F32.roundShift_le {n sh q : Nat} (h : n ≤ q * 2 ^ sh) : F32.roundShift n sh ≤ q := by
  have hq : n / 2 ^ sh ≤ q := Nat.div_le_of_le_mul (by rwa [Nat.mul_comm])
  unfold F32.roundShift
  rcases hq.lt_or_eq with hlt | heq
  · dsimp only
    split <;> omega
  · have hdiv := Nat.div_add_mod' n (2 ^ sh)
    have hpos : 0 < 2 ^ sh := by positivity
    rw [heq] at hdiv ⊢
    have hr : n % 2 ^ sh = 0 := by omega
    rw [hr, if_neg (by omega)]

/-- A value n / 2^k of at most 1.0 rounds to at most 1.0: below 1.0 the significand may round up to 2^24, but then the exponent
is one less. -/
theorem F32.roundMag_le_one {n k : Nat} (h : n ≤ 2 ^ k) : F32.roundMag n k ≤ 0x3F800000 := by
  rcases Nat.eq_zero_or_pos n with rfl | hpos
  · simp [F32.roundMag]
  unfold F32.roundMag
  rw [if_neg hpos.ne']
  generalize hu : n.log2 + 126 - k = u
  suffices hm : u * 2 ^ 23 + F32.roundShift (n * 2 ^ 149) (k + u) ≤ 127 * 2 ^ 23 by
    dsimp only
    split <;> omega
  rcases h.lt_or_eq with hlt | rfl
  · have hlog : n.log2 < k := (Nat.log2_lt hpos.ne').2 hlt
    have hround : F32.roundShift (n * 2 ^ 149) (k + u) ≤ 2 ^ 24 := F32.roundShift_le <|
      calc n * 2 ^ 149 ≤ 2 ^ (n.log2 + 1) * 2 ^ 149 := Nat.mul_le_mul_right _ Nat.lt_log2_self.le
        _ = 2 ^ (n.log2 + 1 + 149) := (Nat.pow_add ..).symm
        _ ≤ 2 ^ (24 + (k + u)) := Nat.pow_le_pow_right (by decide) (by omega)
        _ = 2 ^ 24 * 2 ^ (k + u) := Nat.pow_add ..
    omega
  · obtain rfl : u = 126 := by rw [← hu, Nat.log2_two_pow, Nat.add_sub_cancel_left]
    have hround : F32.roundShift (2 ^ k * 2 ^ 149) (k + 126) ≤ 2 ^ 23 := F32.roundShift_le <| le_of_eq <|
      calc 2 ^ k * 2 ^ 149 = 2 ^ (23 + (k + 126)) := by rw [← Nat.pow_add]; congr 1; omega
        _ = 2 ^ 23 * 2 ^ (k + 126) := Nat.pow_add ..
    omega

/-! ### The default coefficient as a function of its angle (R21, R180) -/

theorem fixSin_le_one (x : Nat) : fixSin x ≤ fixOne := Nat.min_le_right _ _

/-- sin^2(x) of a fixed-point angle, rounded once. -/
def sinSquared (x : Nat) : Word := F32.pack false (F32.roundMag (fixSin x * fixSin x) 256)

theorem sinSquared_toNat_le (x : Nat) : (sinSquared x).toNat ≤ 0x3F800000 := by
  have hsq : fixSin x * fixSin x ≤ 2 ^ 256 :=
    calc fixSin x * fixSin x ≤ fixOne * fixOne := Nat.mul_le_mul (fixSin_le_one x) (fixSin_le_one x)
      _ = 2 ^ 256 := (Nat.pow_add 2 128 128).symm
  rw [sinSquared, F32.pack_toNat false ((F32.roundMag_le _ _).trans_lt (by decide)), if_neg Bool.false_ne_true]
  exact F32.roundMag_le_one hsq

theorem sinSquared_zero : sinSquared 0 = 0x00000000#32 := by decide +kernel
theorem sinSquared_pi_div_two : sinSquared (fixPi / 2) = 0x3F800000#32 := by decide +kernel
theorem sinSquared_pi_div_three : sinSquared (fixPi / 3) = 0x3F400000#32 := by decide +kernel
theorem sinSquared_pi_div_four : sinSquared (fixPi / 4) = 0x3F000000#32 := by decide +kernel
theorem sinSquared_pi_div_six : sinSquared (fixPi / 6) = 0x3E800000#32 := by decide +kernel

theorem hannStandard_eq_sinSquared (l i : Nat) :
    hannStandard l i = sinSquared (fixPi * min i (l - 1 - i) / (l - 1)) := rfl

theorem hannStandard_zero (l : Nat) : hannStandard l 0 = 0x00000000#32 := by
  rw [hannStandard_eq_sinSquared, Nat.zero_min, Nat.mul_zero, Nat.zero_div, sinSquared_zero]

theorem hannStandard_symm {l i : Nat} (hi : i < l) : hannStandard l i = hannStandard l (l - 1 - i) := by
  rw [hannStandard_eq_sinSquared, hannStandard_eq_sinSquared, Nat.sub_sub_self (by omega), Nat.min_comm]

/-- At the k-th part of the window the length cancels from the angle. -/
theorem hannStandard_of_part {l i k : Nat} (hl : 2 ≤ l) (hk : 2 ≤ k) (h : k * i = l - 1) :
    hannStandard l i = sinSquared (fixPi / k) := by
  have hi : 0 < i := Nat.pos_of_mul_pos_left (by omega : 0 < k * i)
  have hhalf : 2 * i ≤ k * i := Nat.mul_le_mul_right i hk
  rw [hannStandard_eq_sinSquared, Nat.min_eq_left (by omega), ← h, Nat.mul_div_mul_right _ _ hi]

/-- The k-th part from either end. -/
theorem hannStandard_of_part_or_mirror {l i k : Nat} (hl : 2 ≤ l) (hi : i < l) (hk : 2 ≤ k)
    (h : k * i = l - 1 ∨ k * i = (k - 1) * (l - 1)) : hannStandard l i = sinSquared (fixPi / k) := by
  rcases h with h | h
  · exact hannStandard_of_part hl hk h
  · rw [hannStandard_symm hi]
    refine hannStandard_of_part hl hk ?_
    have hle : l - 1 ≤ k * (l - 1) := Nat.le_mul_of_pos_left _ (by omega)
    rw [Nat.mul_sub, h, Nat.sub_one_mul, Nat.sub_sub_self hle]

/-! ### The default ROM -/

theorem hannRom_length_one (p : Params) (i : Nat) : hannRom p 1 i = 0x3F800000#32 := rfl

theorem hannRom_eq_hannStandard {p : Params} (hp : p.hannRom = .standard) {l : Nat} (hl : l ≠ 1) (i : Nat) :
    hannRom p l i = hannStandard l i := by
  rw [hannRom, if_neg hl, hp]

/-- Settles O22: each named point is a k-th part of the window from one end, so its angle is pi/k at every length; length 1 is the
constant 1.0. -/
theorem defaultHannExactValues : Obligations.DefaultHannExactValues := by
  intro p hp l i _ hi
  by_cases hone : l = 1
  · subst hone
    simp [hannRom_length_one]
  have hl : 2 ≤ l := by omega
  simp only [hannRom_eq_hannStandard hp hone]
  refine ⟨fun _ => ⟨hannStandard_zero l, ?_⟩, fun hodd => ?_, fun _ h => ?_, fun _ h => ?_, fun _ h => ?_,
    hannStandard_symm hi, sinSquared_toNat_le _⟩
  · exact (hannStandard_symm (by omega : 0 < l)).symm.trans (hannStandard_zero l)
  · exact (hannStandard_of_part hl le_rfl (by omega)).trans sinSquared_pi_div_two
  · exact (hannStandard_of_part_or_mirror hl hi (by decide) h).trans sinSquared_pi_div_four
  · exact (hannStandard_of_part_or_mirror hl hi (by decide) h).trans sinSquared_pi_div_three
  · exact (hannStandard_of_part_or_mirror hl hi (by decide) h).trans sinSquared_pi_div_six

end Sys2Proof.Machine

/-! PROOFS. The family of 42_cubic_resampler.md: the clamped neighbours (R203). -/

namespace Sys2Proof.Machine

/-! ### The clamped neighbours (R203) -/

/-- The truncated subtraction of `neighbour` is the clamp at 0, its minimum the clamp at the last sample. -/
theorem neighbour_index_eq_clamp {n : Nat} (hn : 0 < n) (srcIndex d : Nat) :
    ((min (srcIndex + d - 1) (n - 1) : Nat) : Int) =
      min (max ((srcIndex : Int) + ((d : Int) - 1)) 0) ((n : Int) - 1) := by
  have hlow : ((srcIndex + d - 1 : Nat) : Int) = max ((srcIndex : Int) + ((d : Int) - 1)) 0 := by omega
  have hhigh : ((n - 1 : Nat) : Int) = (n : Int) - 1 := by omega
  rw [Nat.cast_min, hlow, hhigh]

/-- A neighbour of a grain that is not empty is one of its samples, never the value `neighbour` has outside the grain. -/
theorem getElem?_eq_some_neighbour {x : List Word} (hx : x ≠ []) (srcIndex d : Nat) :
    x[min (srcIndex + d - 1) (x.length - 1)]? = some (neighbour x srcIndex d) := by
  have hpos : 0 < x.length := List.length_pos_iff.mpr hx
  have hlt : min (srcIndex + d - 1) (x.length - 1) < x.length := by omega
  rw [neighbour, List.getD_eq_getElem _ _ hlt, List.getElem?_eq_getElem hlt]

/-- Settles O27: the index `neighbour` reads is the clamped one, and it lies inside the grain. -/
theorem neighboursAreClamped : Obligations.NeighboursAreClamped := by
  intro x srcIndex d hx _
  exact ⟨min (srcIndex + d - 1) (x.length - 1),
    neighbour_index_eq_clamp (List.length_pos_iff.mpr hx) srcIndex d, getElem?_eq_some_neighbour hx srcIndex d⟩

end Sys2Proof.Machine

/-! PROOFS. The family of 44_pitch_shift_top.md: the reserved CTL words (R268), the mirrored output channels (R265), and the mailbox
against its messages applied one at a time (R274). -/

namespace Sys2Proof

/-! ### The decoder of CTL words (30 R111, R113) -/

/-- The instruction of a CTL word by the number in its OP field. -/
theorem decodeCtl_cases (w : BitVec 36) :
    (w.toNat / 2 ^ 32 = 0 ∧ ∃ payload, decodeCtl w = .nop payload) ∨
    (w.toNat / 2 ^ 32 = 1 ∧ ∃ payload, decodeCtl w = .setPitch payload) ∨
    (w.toNat / 2 ^ 32 = 2 ∧ ∃ payload, decodeCtl w = .setGrainSize payload) ∨
    (w.toNat / 2 ^ 32 = 3 ∧ ∃ payload, decodeCtl w = .reset payload) ∨
    (4 ≤ w.toNat / 2 ^ 32 ∧
      ((∃ op payload, decodeCtl w = .ctlReserved47 op payload) ∨ ∃ op payload, decodeCtl w = .ctlReserved8F op payload)) := by
  rw [← ctl_op_toNat, decodeCtl]
  split
  next h => exact .inl ⟨h, _, rfl⟩
  next h => exact .inr (.inl ⟨h, _, rfl⟩)
  next h => exact .inr (.inr (.inl ⟨h, _, rfl⟩))
  next h => exact .inr (.inr (.inr (.inl ⟨h, _, rfl⟩)))
  next h0 h1 h2 h3 =>
    simp only [imp_false] at h0 h1 h2 h3
    refine .inr (.inr (.inr (.inr ⟨by omega, ?_⟩)))
    split
    · exact .inr ⟨_, _, rfl⟩
    · exact .inl ⟨_, _, rfl⟩

end Sys2Proof

namespace Sys2Proof.Machine

/-! ### NOP and the reserved words (R268) -/

theorem exec_nop (payload : Word) (s : State) : exec (.nop payload) s = .next s := rfl

theorem exec_ctlReserved47 (op : BitVec 2) (payload : Word) (s : State) : exec (.ctlReserved47 op payload) s = .next s := rfl

theorem exec_ctlReserved8F (op : BitVec 3) (payload : Word) (s : State) : exec (.ctlReserved8F op payload) s = .next s := rfl

/-- Settles O1: OP 0 is NOP and OP 4 to F are the reserved words, by the cases of the decoder. -/
theorem nopAndReservedWordsChangeNothing : Obligations.NopAndReservedWordsChangeNothing := by
  refine ⟨fun w hop s => ⟨decodeCtl w, rfl, ?_⟩, exec_nop, exec_ctlReserved47, exec_ctlReserved8F⟩
  rcases decodeCtl_cases w with ⟨-, _, h⟩ | ⟨hone, -⟩ | ⟨htwo, -⟩ | ⟨hthree, -⟩ | ⟨-, ⟨_, _, h⟩ | ⟨_, _, h⟩⟩
  · rw [h, exec_nop]
  · omega
  · omega
  · omega
  · rw [h, exec_ctlReserved47]
  · rw [h, exec_ctlReserved8F]

/-! ### The output channels (R265) -/

/-- A raise leaves no response (60 R311). -/
theorem State.RaisedFrom.resp_eq {s t : State} (h : s.RaisedFrom t) : t.resp = .none := by
  obtain ⟨u, c, -, rfl⟩ := h
  rfl

/-- A block that PROCESS_BLOCK returns is one channel, repeated: a block that faults returns nothing. -/
theorem exec_processBlock_block {inp out : List (List Word)} {s t : State} (h : exec (.processBlock inp) s = .next t)
    (hout : t.resp = .block out) : ∃ o, out = List.replicate s.params.channels o := by
  rcases execProcessBlock_next h with ⟨u, o, -, rfl⟩ | herr
  · exact ⟨o, (Response.block.inj hout).symm⟩
  · have hraised := s.processBlock_faultRule (inp.headD [])
    rw [herr] at hraised
    rw [hraised.resp_eq] at hout
    cases hout

theorem eq_headD_of_mem_replicate {α : Type} {n : Nat} {a b d : α} (h : b ∈ List.replicate n a) :
    b = (List.replicate n a).headD d := by
  obtain ⟨hn, rfl⟩ := List.mem_replicate.1 h
  obtain ⟨k, rfl⟩ := Nat.exists_eq_succ_of_ne_zero hn
  rfl

/-- PROCESS_BLOCK of a block of the right shape reads its channel 0 alone. -/
theorem exec_processBlock_congr {inp inp' : List (List Word)} {s : State} (h : s.params.blockShape inp = true)
    (h' : s.params.blockShape inp' = true) (hch0 : inp.headD [] = inp'.headD []) :
    exec (.processBlock inp) s = exec (.processBlock inp') s := by
  simp only [exec, execProcessBlock, h, h', hch0]

/-- Settles O36: the response is one channel repeated, and past the shape of the block only its channel 0 is read. -/
theorem outputMirrorsChannelZero : Obligations.OutputMirrorsChannelZero := by
  refine ⟨fun inp s t out h hout => ?_, fun inp inp' s => exec_processBlock_congr⟩
  obtain ⟨o, rfl⟩ := exec_processBlock_block h hout
  exact ⟨List.length_replicate, fun ch hch => eq_headD_of_mem_replicate hch⟩

/-! ### What a CTL word posts (R268 to R271) -/

/-- What an accepted CTL word puts into the mailbox (`exec_decodeCtl`). -/
inductive Posting where
  /-- NOP, a reserved word, or a SET_PITCH or SET_GRAIN_SIZE whose payload is not legal. -/
  | nothing
  /-- A legal SET_PITCH. -/
  | ratio (payload : Word)
  /-- A SET_GRAIN_SIZE of a legal size. -/
  | size (g : BitVec 13)
  /-- RESET. -/
  | reset

/-- A posted size is one of R8. -/
def Posting.Legal : Posting → Prop
  | .size g => legalGrainSize g.toNat = true
  | _ => True

/-- The state with a posting in its mailbox, over what the mailbox held of the same kind. -/
def State.post (s : State) : Posting → State
  | .nothing => s
  | .ratio payload => { s with pendPitchV := true, pendRatio := pitchExp2 s.params payload }
  | .size g => { s with pendGsV := true, pendGs := g }
  | .reset => { s with pendRst := true }

theorem exec_setGrainSize_of_legal {payload : Word} (s : State) (h : legalSizePayload payload = true) :
    exec (.setGrainSize payload) s = .next { s with pendGsV := true, pendGs := payload.setWidth 13 } :=
  if_pos h

theorem exec_setGrainSize_of_illegal {payload : Word} (s : State) (h : ¬ legalSizePayload payload = true) :
    exec (.setGrainSize payload) s = .next s :=
  if_neg h

/-- A legal size loses no bit in PEND_GS. -/
theorem legalGrainSize_setWidth {payload : Word} (h : legalSizePayload payload = true) :
    legalGrainSize (payload.setWidth 13).toNat = true := by
  have hcases := legalGrainSize_cases h
  rwa [BitVec.toNat_setWidth, Nat.mod_eq_of_lt (by omega)]

/-- A CTL word posts the same in every state, and only what is legal. -/
theorem exec_decodeCtl (w : BitVec 36) : ∃ m : Posting, m.Legal ∧ ∀ s, exec (decodeCtl w) s = .next (s.post m) := by
  rcases decodeCtl_cases w with ⟨-, _, h⟩ | ⟨-, payload, h⟩ | ⟨-, payload, h⟩ | ⟨-, _, h⟩ | ⟨-, ⟨_, _, h⟩ | ⟨_, _, h⟩⟩ <;>
    rw [h]
  · exact ⟨.nothing, trivial, exec_nop _⟩
  · by_cases hlegal : legalSemitones payload = true
    · exact ⟨.ratio payload, trivial, fun s => exec_setPitch_of_legal s hlegal⟩
    · exact ⟨.nothing, trivial, fun s => exec_setPitch_of_illegal s hlegal⟩
  · by_cases hlegal : legalSizePayload payload = true
    · exact ⟨.size _, legalGrainSize_setWidth hlegal, fun s => exec_setGrainSize_of_legal s hlegal⟩
    · exact ⟨.nothing, trivial, fun s => exec_setGrainSize_of_illegal s hlegal⟩
  · exact ⟨.reset, trivial, fun _ => rfl⟩
  · exact ⟨.nothing, trivial, exec_ctlReserved47 _ _⟩
  · exact ⟨.nothing, trivial, exec_ctlReserved8F _ _⟩

/-! ### The mailbox's application as a function (R273) -/

/-- What a reconfigure that completes leaves (`State.reconfigure_ok`). -/
def State.reconfigured (s : State) (size : BitVec 13) : State :=
  { s with
    grainSize := size, hopSize := BitVec.ofNat 11 (size.toNat / 4),
    ibuf := Buf.cleared (BitVec.ofNat 16 (8 * size.toNat)), obuf := Buf.cleared (BitVec.ofNat 16 (8 * size.toNat)),
    synthLen := size.setWidth 15, primed := false }

/-- What a RESET that completes leaves (`State.resetAction_ok`). -/
def State.resetDone (s : State) : State :=
  { s with ibuf := Buf.cleared s.ibuf.cap, obuf := Buf.cleared s.obuf.cap, primed := false }

/-- What the mailbox's application leaves where none of its CLEARs faults (`State.Settles.applyMailbox`). -/
def State.settled (s : State) : State :=
  State.applyPitch (if s.pendGsV then s.reconfigured s.pendGs else if s.pendRst then s.resetDone else s)

/-- No CLEAR of the mailbox's application can fault: both capacities are in range, and so is a pending size. -/
def State.Settles (s : State) : Prop :=
  s.ibuf.CellsOk ∧ s.obuf.CellsOk ∧ (s.pendGsV = true → legalGrainSize s.pendGs.toNat = true)

theorem State.Sound.settles {s : State} (h : s.Sound) : s.Settles := by
  obtain ⟨-, hi, ho, -, -, -, -, -, -, -, -, hgs⟩ := h
  exact ⟨hi.cellsOk, ho.cellsOk, hgs⟩

theorem State.Settles.applyMailbox {s : State} (h : s.Settles) : s.applyMailbox = .ok s.settled := by
  obtain ⟨hi, ho, hgs⟩ := h
  have hsizing : s.applySizing =
      .ok (if s.pendGsV then s.reconfigured s.pendGs else if s.pendRst then s.resetDone else s) := by
    unfold State.applySizing
    split
    next hsize => exact State.reconfigure_ok (hgs hsize)
    next =>
      split
      · exact State.resetAction_ok hi ho
      · rfl
  rw [State.applyMailbox, hsizing]
  rfl

theorem State.MailboxEmpty.settled_eq {s : State} (hs : s.Settles) (h : s.MailboxEmpty) : s.settled = s :=
  Except.ok.inj (hs.applyMailbox.symm.trans (State.applyMailbox_empty h))

/-! ### What posting and applying keep -/

theorem State.Settles.post {s : State} (h : s.Settles) {m : Posting} (hm : m.Legal) : (s.post m).Settles := by
  obtain ⟨hi, ho, hgs⟩ := h
  cases m with
  | nothing => exact ⟨hi, ho, hgs⟩
  | ratio payload => exact ⟨hi, ho, hgs⟩
  | size g => exact ⟨hi, ho, fun _ => hm⟩
  | reset => exact ⟨hi, ho, hgs⟩

/-- The buffers of a legal size, 8 grains long, are empty and in order. -/
theorem Buf.cleared_eightGrains_cellsOk {size : BitVec 13} (h : legalGrainSize size.toNat = true) :
    (Buf.cleared (BitVec.ofNat 16 (8 * size.toNat))).CellsOk := by
  have hcases := legalGrainSize_cases h
  have hcap : (BitVec.ofNat 16 (8 * size.toNat)).toNat = 8 * size.toNat := by
    rw [BitVec.toNat_ofNat, Nat.mod_eq_of_lt (by omega)]
  exact Buf.cleared_cellsOk (by omega) (by rw [hcap, Config.depthMax]; omega)

theorem State.Settles.settled {s : State} (h : s.Settles) : s.settled.Settles := by
  obtain ⟨hi, ho, hgs⟩ := h
  have hempty : s.settled.pendGsV = true → legalGrainSize s.settled.pendGs.toNat = true := fun hv => nomatch hv
  suffices hbufs : s.settled.ibuf.CellsOk ∧ s.settled.obuf.CellsOk from ⟨hbufs.1, hbufs.2, hempty⟩
  simp only [State.settled, State.applyPitch_ibuf, State.applyPitch_obuf]
  split
  next hsize => exact ⟨Buf.cleared_eightGrains_cellsOk (hgs hsize), Buf.cleared_eightGrains_cellsOk (hgs hsize)⟩
  next =>
    split
    · exact ⟨Buf.cleared_cellsOk hi.1 hi.2.1, Buf.cleared_cellsOk ho.1 ho.2.1⟩
    · exact ⟨hi, ho⟩

/-! ### The mailbox against its messages one at a time (R274) -/

/-- Applying the mailbox before a message is accepted changes nothing of what applying it afterwards leaves: a later size or ratio
replaces the earlier one, and a RESET clears what a reconfigure has cleared. -/
theorem State.settled_post_settled (s : State) (m : Posting) : (s.settled.post m).settled = (s.post m).settled := by
  obtain ⟨params, seq, fault, grainSize, hopSize, pitchRatio, primed, synthLen, ibuf, obuf, pitchV, ratio, gsV, gs, rst, resp,
    inbox⟩ := s
  cases gsV <;> cases rst <;> cases m <;> rfl

/-- Messages accepted one after another and applied once at the end, against each applied after it is accepted. -/
theorem State.acceptAll_settled (ws : List (BitVec 36)) : ∀ s : State, s.Settles →
    ∃ t, State.acceptAll ws s = .next t ∧ t.Settles ∧ State.acceptAndApplyEach ws s.settled = .ok t.settled := by
  induction ws with
  | nil => exact fun s hs => ⟨s, rfl, hs, rfl⟩
  | cons w rest ih =>
    intro s hs
    obtain ⟨m, hm, hexec⟩ := exec_decodeCtl w
    obtain ⟨t, hall, ht, heach⟩ := ih (s.post m) (hs.post hm)
    have happly := (hs.settled.post hm).applyMailbox
    rw [State.settled_post_settled] at happly
    refine ⟨t, ?_, ht, ?_⟩
    · simpa only [State.acceptAll, hexec] using hall
    · simpa only [State.acceptAndApplyEach, hexec, happly] using heach

/-- Settles O41, by induction on the words: at each one the mailbox's application may be moved past the acceptance. -/
theorem mailboxEqualsMessagesOneAtATime : Obligations.MailboxEqualsMessagesOneAtATime := by
  intro ws s hs hempty
  obtain ⟨t, hall, ht, heach⟩ := State.acceptAll_settled ws s hs.settles
  rw [hempty.settled_eq hs.settles] at heach
  exact ⟨t, t.settled, hall, ht.applyMailbox, heach⟩

end Sys2Proof.Machine

/-! PROOFS. The family of 60_exceptions.md: control input that is rejected is no fault (R316). -/

namespace Sys2Proof

/-! ### The payload SET_PITCH and SET_GRAIN_SIZE carry (30 R111) -/

theorem decodeCtl_of_op_one {w : BitVec 36} (h : w.toNat / 2 ^ 32 = 1) : decodeCtl w = .setPitch (w.extractLsb' 0 32) := by
  simp only [decodeCtl, ctl_op_toNat, h]

theorem decodeCtl_of_op_two {w : BitVec 36} (h : w.toNat / 2 ^ 32 = 2) : decodeCtl w = .setGrainSize (w.extractLsb' 0 32) := by
  simp only [decodeCtl, ctl_op_toNat, h]

/-- The magnitude bits of the payload are the low 31 bits of the whole word. -/
theorem ctl_payload_low31 (w : BitVec 36) : (w.extractLsb' 0 32).toNat % 2 ^ 31 = w.toNat % 2 ^ 31 := by
  rw [ctl_payload_toNat, Nat.mod_mod_of_dvd _ (Nat.pow_dvd_pow 2 (by decide))]

end Sys2Proof

namespace Sys2Proof.Machine

/-! ### Rejected control input (R316) -/

theorem mem_of_legalSizePayload {payload : Word} (h : legalSizePayload payload = true) :
    payload.toNat ∈ [512, 1024, 2048, 4096] := by
  simpa using legalGrainSize_cases h

theorem exec_setPitch_out_of_range {w : BitVec 36} (hop : w.toNat / 2 ^ 32 = 1) (hrange : 0x41C00000 < w.toNat % 2 ^ 31)
    (s : State) : exec (decodeCtl w) s = .next s := by
  rw [← ctl_payload_low31] at hrange
  rw [decodeCtl_of_op_one hop]
  exact (setPitchPostsLegalSemitones _ s).2 hrange

theorem exec_setGrainSize_unsupported {w : BitVec 36} (hop : w.toNat / 2 ^ 32 = 2)
    (hsize : w.toNat % 2 ^ 32 ∉ [512, 1024, 2048, 4096]) (s : State) : exec (decodeCtl w) s = .next s := by
  rw [← ctl_payload_toNat] at hsize
  rw [decodeCtl_of_op_two hop]
  exact exec_setGrainSize_of_illegal s fun hlegal => hsize (mem_of_legalSizePayload hlegal)

/-- Settles O5, one lemma for each kind of rejected word; the reserved opcodes are those of R268. -/
theorem rejectedControlInputHasNoEffect : Obligations.RejectedControlInputHasNoEffect := by
  rintro w s (⟨hop, hrange⟩ | ⟨hop, hsize⟩ | hreserved)
  · exact ⟨decodeCtl w, rfl, exec_setPitch_out_of_range hop hrange s⟩
  · exact ⟨decodeCtl w, rfl, exec_setGrainSize_unsupported hop hsize s⟩
  · exact nopAndReservedWordsChangeNothing.1 w (.inr hreserved) s

end Sys2Proof.Machine

/-! PROOFS. The family of 30_encoding.md: the decoder and the encoder are inverse (R110 to R124), and the words written out from the
field tables (R125). -/

namespace Sys2Proof

/-! ### CTL words (R111, R113) -/

theorem ctl_op_top (w : BitVec 36) : w.getLsbD 35 = (w.extractLsb' 32 4).getLsbD 3 := by
  simp

theorem ctl_op_low2 (w : BitVec 36) : w.extractLsb' 32 2 = (w.extractLsb' 32 4).extractLsb' 0 2 := by
  ext i hi
  have hi4 : i < 4 := by omega
  simp [hi4]

theorem ctl_op_low3 (w : BitVec 36) : w.extractLsb' 32 3 = (w.extractLsb' 32 4).extractLsb' 0 3 := by
  ext i hi
  have hi4 : i < 4 := by omega
  simp [hi4]

/-- A CTL word with a reserved OP: its top bit tells the two rows apart, the bits below it are kept. -/
theorem decodeCtl_of_reserved {w : BitVec 36} (h : 4 ≤ (w.extractLsb' 32 4).toNat) :
    decodeCtl w =
      if (w.extractLsb' 32 4).getLsbD 3 then .ctlReserved8F ((w.extractLsb' 32 4).extractLsb' 0 3) (w.extractLsb' 0 32)
      else .ctlReserved47 ((w.extractLsb' 32 4).extractLsb' 0 2) (w.extractLsb' 0 32) := by
  rw [decodeCtl, ctl_op_top, ctl_op_low2, ctl_op_low3]
  split
  · omega
  · omega
  · omega
  · omega
  · rfl

/-- The OPs of the row 0x4 to 0x7: above the four messages, top bit clear, the low two bits kept. -/
theorem ctlReserved47_op (op : BitVec 2) :
    4 ≤ (0b01#2 ++ op).toNat ∧ (0b01#2 ++ op).getLsbD 3 = false ∧ (0b01#2 ++ op).extractLsb' 0 2 = op := by
  revert op; decide

/-- The OPs of the row 0x8 to 0xF: top bit set, the low three bits kept. -/
theorem ctlReserved8F_op (op : BitVec 3) :
    4 ≤ (0b1#1 ++ op).toNat ∧ (0b1#1 ++ op).getLsbD 3 = true ∧ (0b1#1 ++ op).extractLsb' 0 3 = op := by
  revert op; decide

theorem decodeCtl_ctlReserved47 (op : BitVec 2) (payload : Word) :
    decodeCtl (ctlWord (0b01#2 ++ op) payload) = .ctlReserved47 op payload := by
  obtain ⟨hop, htop, hlow⟩ := ctlReserved47_op op
  rw [decodeCtl_of_reserved (by rwa [ctlWord_op]), ctlWord_op, ctlWord_payload, htop, hlow]
  rfl

theorem decodeCtl_ctlReserved8F (op : BitVec 3) (payload : Word) :
    decodeCtl (ctlWord (0b1#1 ++ op) payload) = .ctlReserved8F op payload := by
  obtain ⟨hop, htop, hlow⟩ := ctlReserved8F_op op
  rw [decodeCtl_of_reserved (by rwa [ctlWord_op]), ctlWord_op, ctlWord_payload, htop, hlow]
  rfl

/-- The kept bits under the row's fixed top bits are the whole OP. -/
theorem ctlReserved47_op_eta (op : BitVec 4) (h : 4 ≤ op.toNat) (htop : op.getLsbD 3 = false) :
    0b01#2 ++ op.extractLsb' 0 2 = op := by
  revert op; decide

theorem ctlReserved8F_op_eta (op : BitVec 4) (htop : op.getLsbD 3 = true) : 0b1#1 ++ op.extractLsb' 0 3 = op := by
  revert op; decide

theorem ctlWord_of_op_eq {w : BitVec 36} {op : BitVec 4} (h : (w.extractLsb' 32 4).toNat = op.toNat) :
    ctlWord op (w.extractLsb' 0 32) = w := by
  rw [← BitVec.eq_of_toNat_eq h, ctlWord_eta]

theorem encode_decodeCtl (w : BitVec 36) : encode (decodeCtl w) = .ctl w := by
  by_cases hop : 4 ≤ (w.extractLsb' 32 4).toNat
  · rw [decodeCtl_of_reserved hop]
    split
    next htop => rw [encode, ctlReserved8F_op_eta _ htop, ctlWord_eta]
    next htop => rw [encode, ctlReserved47_op_eta _ hop (Bool.not_eq_true _ ▸ htop), ctlWord_eta]
  · rw [decodeCtl]
    split
    next h => exact congrArg Frame.ctl (ctlWord_of_op_eq h)
    next h => exact congrArg Frame.ctl (ctlWord_of_op_eq h)
    next h => exact congrArg Frame.ctl (ctlWord_of_op_eq h)
    next h => exact congrArg Frame.ctl (ctlWord_of_op_eq h)
    next h0 h1 h2 h3 =>
      simp only [imp_false] at h0 h1 h2 h3
      omega

theorem decodeCtl_encodable (w : BitVec 36) : (decodeCtl w).encodable = true := by
  rcases decodeCtl_cases w with ⟨-, _, h⟩ | ⟨-, _, h⟩ | ⟨-, _, h⟩ | ⟨-, _, h⟩ | ⟨-, ⟨_, _, h⟩ | ⟨_, _, h⟩⟩ <;> rw [h] <;> rfl

/-! ### BUF words (R115 to R117) -/

/-- A BUF word whose OP is known is that OP with the word's Z, A and B. -/
theorem bufWord_of_op_eq {w : BitVec 36} {op : BitVec 3} (h : w.extractLsb' 33 3 = op) :
    bufWord op (w.getLsbD 32) (w.extractLsb' 16 16) (w.extractLsb' 0 16) = w := by
  rw [← h, bufWord_eta]

/-- A side bus as long as the count A says gives that count back, and it fits. -/
theorem busCount_eq {din : List Word} {a : BitVec 16} (h : din.length = a.toNat) :
    busCount din = a ∧ din.length < 2 ^ 16 := by
  rw [busCount, h, BitVec.ofNat_toNat, BitVec.setWidth_eq]
  exact ⟨rfl, a.isLt⟩

/-- What an accepted frame says about its side bus. -/
theorem ite_ok_iff {c : Prop} [Decidable c] {e : DecodeError} {i j : Instr} :
    (if c then .ok i else .error e : Except DecodeError Instr) = .ok j ↔ c ∧ i = j := by
  split <;> simp_all

/-- An accepted BUF frame without samples is the word of its fields with an empty side bus. -/
theorem bufFrame_noBus {b : BufId} {w : BitVec 36} {din : List Word} (op : BitVec 3)
    (hop : (w.extractLsb' 33 3).toNat = op.toNat) (hbus : din.length = 0) :
    Frame.buf b (bufWord op (w.getLsbD 32) (w.extractLsb' 16 16) (w.extractLsb' 0 16)) [] = .buf b w din := by
  rw [bufWord_of_op_eq (BitVec.eq_of_toNat_eq hop), List.eq_nil_of_length_eq_zero hbus]

/-- An accepted BUF frame with samples is the word of its fields and the count of its side bus. -/
theorem bufFrame_withBus {b : BufId} {w : BitVec 36} {din : List Word} (op : BitVec 3)
    (hop : (w.extractLsb' 33 3).toNat = op.toNat) (hbus : din.length = (w.extractLsb' 16 16).toNat) :
    Frame.buf b (bufWord op (w.getLsbD 32) (busCount din) (w.extractLsb' 0 16)) din = .buf b w din ∧
      decide (din.length < 2 ^ 16) = true := by
  obtain ⟨hcount, hfits⟩ := busCount_eq hbus
  rw [hcount, bufWord_of_op_eq (BitVec.eq_of_toNat_eq hop)]
  exact ⟨rfl, decide_eq_true hfits⟩

theorem encode_of_decodeBuf {b : BufId} {w : BitVec 36} {din : List Word} {i : Instr}
    (h : decodeBuf b w din = .ok i) : encode i = .buf b w din ∧ i.encodable = true := by
  have hlt := (w.extractLsb' 33 3).isLt
  unfold decodeBuf at h
  simp only at h
  split at h <;> obtain ⟨hbus, rfl⟩ := ite_ok_iff.1 h
  next hop => exact ⟨bufFrame_noBus 0b000#3 hop hbus, rfl⟩
  next hop => exact bufFrame_withBus 0b001#3 hop hbus
  next hop => exact ⟨bufFrame_noBus 0b010#3 hop hbus, rfl⟩
  next hop => exact bufFrame_withBus 0b011#3 hop hbus
  next hop => exact bufFrame_withBus 0b100#3 hop hbus
  next hop => exact ⟨bufFrame_noBus 0b101#3 hop hbus, rfl⟩
  next hop => exact ⟨bufFrame_noBus 0b110#3 hop hbus, rfl⟩
  next h0 h1 h2 h3 h4 h5 h6 =>
    simp only [imp_false] at h0 h1 h2 h3 h4 h5 h6
    exact ⟨bufFrame_noBus 0b111#3 (by simp only [BitVec.toNat_ofNat]; omega) hbus, rfl⟩

/-! ### ROM and RSMP words (R119, R120) -/

theorem append_extractLsb'_self {m n : Nat} (w : BitVec (m + n)) : w.extractLsb' n m ++ w.extractLsb' 0 n = w := by
  rw [BitVec.extractLsb'_append_extractLsb'_eq_extractLsb' (by omega)]
  simp

theorem append_high {m n : Nat} (l : BitVec m) (i : BitVec n) : (l ++ i).extractLsb' n m = l := by
  rw [BitVec.extractLsb'_append_eq_left]

theorem append_low {m n : Nat} (l : BitVec m) (i : BitVec n) : (l ++ i).extractLsb' 0 n = i := by
  rw [BitVec.extractLsb'_append_eq_right]

theorem encode_of_decodeRsmp {w : BitVec 45} {x : List Word} {i : Instr} (h : decodeRsmp w x = .ok i) :
    encode i = .rsmp w x ∧ i.encodable = true := by
  unfold decodeRsmp at h
  obtain ⟨hbus, rfl⟩ := ite_ok_iff.1 h
  have hfits : x.length < 2 ^ 13 := hbus ▸ (w.extractLsb' 32 13).isLt
  refine ⟨?_, decide_eq_true hfits⟩
  rw [encode, hbus, BitVec.ofNat_toNat, BitVec.setWidth_eq, append_extractLsb'_self (m := 13) (n := 32)]

/-- Settles O55: field by field; the constant OP of each row selects the row again. -/
theorem decodeInvertsEncode : Obligations.DecodeInvertsEncode := by
  intro i hi
  cases i with
  | nop payload => simp only [encode, decode, decodeCtl, ctlWord_op, ctlWord_payload]; rfl
  | setPitch payload => simp only [encode, decode, decodeCtl, ctlWord_op, ctlWord_payload]; rfl
  | setGrainSize payload => simp only [encode, decode, decodeCtl, ctlWord_op, ctlWord_payload]; rfl
  | reset payload => simp only [encode, decode, decodeCtl, ctlWord_op, ctlWord_payload]; rfl
  | ctlReserved47 op payload => exact congrArg Except.ok (decodeCtl_ctlReserved47 op payload)
  | ctlReserved8F op payload => exact congrArg Except.ok (decodeCtl_ctlReserved8F op payload)
  | clear b z cap off => simp only [encode, decode, decodeBuf, bufWord_op, bufWord_z, bufWord_a, bufWord_off]; rfl
  | write b z off din =>
    have hcount := busCount_toNat (of_decide_eq_true hi)
    simp only [encode, decode, decodeBuf, bufWord_op, bufWord_z, bufWord_a, bufWord_off, hcount]; rfl
  | read b z n off => simp only [encode, decode, decodeBuf, bufWord_op, bufWord_z, bufWord_a, bufWord_off]; rfl
  | peekWin b z off win =>
    have hcount := busCount_toNat (of_decide_eq_true hi)
    simp only [encode, decode, decodeBuf, bufWord_op, bufWord_z, bufWord_a, bufWord_off, hcount]; rfl
  | accum b z off din =>
    have hcount := busCount_toNat (of_decide_eq_true hi)
    simp only [encode, decode, decodeBuf, bufWord_op, bufWord_z, bufWord_a, bufWord_off, hcount]; rfl
  | advRd b z n off => exact decode_bufWord_advRd b z n off
  | advWr b z n off => exact decode_bufWord_advWr b z n off
  | bufReserved b z a off => simp only [encode, decode, decodeBuf, bufWord_op, bufWord_z, bufWord_a, bufWord_off]; rfl
  | lookup l k => simp only [encode, decode, append_high, append_low]
  | resample ratio x =>
    have hlen : x.length = (BitVec.ofNat 13 x.length).toNat :=
      (BitVec.toNat_ofNat _ _ |>.trans (Nat.mod_eq_of_lt (of_decide_eq_true hi))).symm
    simp only [encode, decode, decodeRsmp, append_high, append_low, if_pos hlen]
  | grainCycle => rfl
  | processBlock inp => rfl
  | statusRead addr => rfl

/-- Settles O56: port by port; the OP of an accepted word is the constant of its row, the other fields are kept. -/
theorem encodeInvertsDecode : Obligations.EncodeInvertsDecode := by
  intro f i h
  cases f with
  | ctl w =>
    obtain rfl := Except.ok.inj h
    exact ⟨encode_decodeCtl w, decodeCtl_encodable w⟩
  | aud block =>
    obtain rfl := Except.ok.inj h
    exact ⟨rfl, rfl⟩
  | sts addr =>
    obtain rfl := Except.ok.inj h
    exact ⟨rfl, rfl⟩
  | buf b w din => exact encode_of_decodeBuf h
  | rom w =>
    obtain rfl := Except.ok.inj h
    exact ⟨congrArg Frame.rom (append_extractLsb'_self (m := 15) (n := 15) w), rfl⟩
  | rsmp w x => exact encode_of_decodeRsmp h
  | grain =>
    obtain rfl := Except.ok.inj h
    exact ⟨rfl, rfl⟩

/-- Settles O57, by running the decoder on the five words. -/
theorem writtenOutWordsDecode : Obligations.WrittenOutWordsDecode := by
  unfold Obligations.WrittenOutWordsDecode
  decide

end Sys2Proof

/-! PROOFS. What one transaction does outside the buffers: the acceptance of SET_GRAIN_SIZE and RESET (R270, R271, R267), a raise (R311),
the ports while FAULTED (R313), the shape of a block (R346), the status map (R46), power-on (R51), and one step (R28). -/

namespace Sys2Proof.Machine

/-! ### CTL acceptance (R267, R270, R271) -/

theorem legalSizePayload_iff (payload : Word) :
    legalSizePayload payload = true ↔ payload.toNat ∈ [512, 1024, 2048, 4096] := by
  simp [legalSizePayload, legalGrainSize, or_assoc]

/-- A size the message lists fits PEND_GS. -/
theorem toNat_setWidth_of_listed {payload : Word} (h : payload.toNat ∈ [512, 1024, 2048, 4096]) :
    (payload.setWidth 13).toNat = payload.toNat := by
  have hcases := legalGrainSize_cases ((legalSizePayload_iff payload).2 h)
  rw [BitVec.toNat_setWidth, Nat.mod_eq_of_lt (by omega)]

/-- Settles O3: the listed sizes are the legal payloads, and none loses a bit in PEND_GS. -/
theorem setGrainSizePostsLegalSizes : Obligations.SetGrainSizePostsLegalSizes := by
  intro payload s
  refine ⟨fun h => ?_, fun h => ?_⟩
  · exact ⟨_, exec_setGrainSize_of_legal s ((legalSizePayload_iff payload).2 h), toNat_setWidth_of_listed h, rfl⟩
  · exact exec_setGrainSize_of_illegal s fun hl => h ((legalSizePayload_iff payload).1 hl)

/-- Settles O4: the meaning of RESET. -/
theorem resetPostsItsBit : Obligations.ResetPostsItsBit := fun _ _ => rfl

/-- A transaction whose frame decodes runs its instruction, the frame taken and no response standing (00 R28). -/
theorem step_of_decode {s : State} {f : Frame} {rest : List Event} {i : Instr} (hs : s.inbox = .transaction f :: rest)
    (hf : decode f = .ok i) : step s = exec i (s.accept rest) := by
  simp only [step, hs, hf]

/-- A posting changes nothing but the mailbox. -/
theorem State.post_frame (s : State) (m : Posting) :
    s.post m = { s with
      pendPitchV := (s.post m).pendPitchV, pendRatio := (s.post m).pendRatio, pendGsV := (s.post m).pendGsV,
      pendGs := (s.post m).pendGs, pendRst := (s.post m).pendRst } := by
  cases m <;> rfl

/-- Settles O6: a CTL word posts, and a posting changes the mailbox alone. -/
theorem controlWordsChangeOnlyTheMailbox : Obligations.ControlWordsChangeOnlyTheMailbox := by
  intro w s rest hs
  obtain ⟨m, -, hexec⟩ := exec_decodeCtl w
  exact ⟨(s.accept rest).post m, (step_of_decode hs rfl).trans (hexec _), (s.accept rest).post_frame m⟩

/-! ### Faults and stops (R311, R313, R346) -/

/-- Settles O14: OP 111 is the reserved row, whose meaning is the raise. -/
theorem reservedBufOpRaisesIllegal : Obligations.ReservedBufOpRaisesIllegal := by
  intro i z a off s
  exact ⟨decodeInvertsEncode (.bufReserved i z a off) rfl, rfl⟩

/-- Settles O17: the pseudocode of a raise, with FAULT empty and with a code standing. -/
theorem raiseRecordsTheFirstCode : Obligations.RaiseRecordsTheFirstCode := by
  intro s c
  refine ⟨fun h => ?_, fun h => ?_, rfl, rfl, rfl, rfl⟩
  · rw [State.raise_fault, if_pos h]
  · rw [State.raise_fault, if_neg h]

theorem exec_processBlock_faulted {inp : List (List Word)} {s : State} (hs : s.params.blockShape inp = true)
    (hf : s.seq = .faulted) : exec (.processBlock inp) s = .fault .blockWhileFaulted := by
  simp only [exec, execProcessBlock, hs, hf, if_true]

theorem State.post_sameFault (s : State) (m : Posting) : s.SameFault (s.post m) := by
  cases m <;> exact ⟨rfl, rfl⟩

/-- Settles O19: the SEQ test stops a block, CTL posts without touching FAULT and SEQ, and STATUS_READ tests nothing. -/
theorem faultedBlockIsStuckAndPortsStayOpen : Obligations.FaultedBlockIsStuckAndPortsStayOpen := by
  intro s hs
  refine ⟨fun inp hshape => exec_processBlock_faulted hshape hs, fun w => ?_, fun addr => rfl⟩
  obtain ⟨m, -, hexec⟩ := exec_decodeCtl w
  obtain ⟨hfault, hseq⟩ := s.post_sameFault m
  exact ⟨decodeCtl w, s.post m, rfl, hexec s, hseq.trans hs, hfault⟩

/-- The shape of a block in words: the channels, and the samples of each. -/
theorem blockShape_iff {p : Params} {block : List (List Word)} :
    p.blockShape block = true ↔ block.length = p.channels ∧ ∀ ch ∈ block, ch.length = p.blockSize := by
  simp [Params.blockShape]

/-- Settles O20: the shape is tested before anything else. -/
theorem blockOfAnotherShapeIsRefused : Obligations.BlockOfAnotherShapeIsRefused := by
  intro inp s h
  have hshape : ¬ s.params.blockShape inp = true := by
    rw [blockShape_iff]
    rintro ⟨hchannels, hsamples⟩
    rcases h with hne | ⟨ch, hmem, hne⟩
    · exact hne hchannels
    · exact hne (hsamples ch hmem)
  exact if_neg hshape

/-! ### NUMERICS and the status map (R20, R46) -/

/-- Settles O32: each operation's case of the default NUMERICS. -/
theorem defaultNumericsAreBinary32 : Obligations.DefaultNumericsAreBinary32 := by
  intro p a b c hp
  simp only [windowProduct, accumulate, synthesize, resampledSample, hp, and_self, implies_true]

/-- Settles O47, address by address; a register narrower than a word is extended with zeros. -/
theorem statusReadFollowsTheMap : Obligations.StatusReadFollowsTheMap := by
  intro addr s
  have hlt := addr.isLt
  have hmap : s.statusMap addr =
      [s.statusWord, s.pitchRatio, BitVec.ofNat 32 s.grainSize.toNat, BitVec.ofNat 32 s.hopSize.toNat,
        BitVec.ofNat 32 s.ibuf.cnt.toNat, BitVec.ofNat 32 s.obuf.cnt.toNat, BitVec.ofNat 32 s.synthLen.toNat,
        0x3F000000#32, BitVec.ofNat 32 s.ibuf.rd.toNat, BitVec.ofNat 32 s.ibuf.wr.toNat,
        BitVec.ofNat 32 s.obuf.rd.toNat, BitVec.ofNat 32 s.obuf.wr.toNat, BitVec.ofNat 32 s.ibuf.cap.toNat,
        BitVec.ofNat 32 s.obuf.cap.toNat, 0#32, 0#32].getD addr.toNat 0#32 := by
    unfold State.statusMap
    simp only [BitVec.ofNat_toNat]
    generalize addr.toNat = a at hlt
    interval_cases a <;> rfl
  rw [← hmap]
  rfl

/-! ### Power-on (R51, R340, R342) -/

section PowerOn

variable {p : Params}

theorem Params.legal_iff : p.legal = true ↔
    ((legalBlockSize p.blockSize = true ∧ 1 ≤ p.channels) ∧ 1 ≤ p.sampleRate) ∧ legalGrainSize p.initGrainSize.toNat = true := by
  simp [Params.legal]

/-- The hop of a legal size, a quarter of it, fits HOP_SIZE. -/
theorem hop_toNat {g : BitVec 13} (h : legalGrainSize g.toNat = true) :
    (BitVec.ofNat 11 (g.toNat / 4)).toNat = g.toNat / 4 := by
  have hcases := legalGrainSize_cases h
  rw [BitVec.toNat_ofNat, Nat.mod_eq_of_lt (by omega)]

/-- The capacity of a legal size, eight grains, fits CAP. -/
theorem eightGrains_toNat {g : BitVec 13} (h : legalGrainSize g.toNat = true) :
    (BitVec.ofNat 16 (8 * g.toNat)).toNat = 8 * g.toNat := by
  have hcases := legalGrainSize_cases h
  rw [BitVec.toNat_ofNat, Nat.mod_eq_of_lt (by omega)]

theorem synthLen_toNat (g : BitVec 13) : (g.setWidth 15).toNat = g.toNat := by
  have := g.isLt
  rw [BitVec.toNat_setWidth, Nat.mod_eq_of_lt (by omega)]

theorem State.powerOn_buf (p : Params) (i : BufId) :
    (State.powerOn p).buf i = Buf.cleared (BitVec.ofNat 16 (8 * p.initGrainSize.toNat)) := by
  cases i <;> rfl

/-- Settles O51: field by field; with a legal size no register loses a bit. -/
theorem powerOnValues : Obligations.PowerOnValues := by
  intro p hp
  obtain ⟨-, hsize⟩ := Params.legal_iff.1 hp
  refine ⟨rfl, rfl, hop_toNat hsize, rfl, rfl, rfl, rfl, synthLen_toNat _, fun i => ?_, rfl, rfl, rfl, rfl, rfl, rfl⟩
  rw [State.powerOn_buf]
  exact ⟨eightGrains_toNat hsize, rfl, rfl, rfl, fun _ => rfl⟩

theorem Buf.cleared_sound {cap : BitVec 16} (h : 1 ≤ cap.toNat) (h' : cap.toNat ≤ Config.depthMax) :
    (Buf.cleared cap).Sound :=
  Buf.clear_sound (Buf.clear_eq_ok.2 ⟨h, h', rfl⟩)

theorem Buf.cleared_eightGrains_sound {g : BitVec 13} (h : legalGrainSize g.toNat = true) :
    (Buf.cleared (BitVec.ofNat 16 (8 * g.toNat))).Sound := by
  obtain ⟨hcap, hdepth, -, -⟩ := Buf.cleared_eightGrains_cellsOk h
  exact Buf.cleared_sound hcap hdepth

/-- The power-on state of a legal parameter set is sound. -/
theorem State.powerOn_sound (hp : p.legal = true) : (State.powerOn p).Sound := by
  obtain ⟨-, hsize⟩ := Params.legal_iff.1 hp
  have hcases := legalGrainSize_cases hsize
  have hbuf := Buf.cleared_eightGrains_sound hsize
  have hhop : (State.powerOn p).hopSize.toNat = p.initGrainSize.toNat / 4 := hop_toNat hsize
  have hsynth : (State.powerOn p).synthLen.toNat = p.initGrainSize.toNat := synthLen_toNat _
  have hratio : legalRatio Word.one := by decide
  refine ⟨hp, hbuf, hbuf, hsize, ?_, hratio, ?_, ?_, by simp [State.powerOn], by simp [State.powerOn],
    (fun h => nomatch h), (fun h => nomatch h)⟩
  · show (State.powerOn p).hopSize.toNat * 4 = p.initGrainSize.toNat
    omega
  · omega
  · rw [hsynth, Config.lmax]
    omega

end PowerOn

/-- Settles O54: reset is the power-on state of the default parameters. -/
theorem powerOnIsSound : Obligations.PowerOnIsSound :=
  ⟨State.powerOn_sound (by decide), fun _ => State.powerOn_sound⟩

/-! ### One step (R28, R321) -/

/-- Settles O52: the cases of the inbox. -/
theorem stepTakesTheNextEvent : Obligations.StepTakesTheNextEvent := by
  refine ⟨fun s hs => ?_, fun s p rest hs hp => ?_, fun s f i rest hs hf => step_of_decode hs hf⟩
  · simp only [step, hs]
  · simp only [step, hs, hp, if_true]
    rfl

/-! ### The words in Bypass (R16, R38) -/

/-- The exact tolerance on a magnitude, and on the sign: no negative value is near 1. -/
theorem bypassRatio_iff_mag (w : Word) : bypassRatio w = true ↔
    F32.isFinite w = true ∧ F32.sign w = false ∧ 999 * 2 ^ 149 < F32.mag w * 1000 ∧ F32.mag w * 1000 < 1001 * 2 ^ 149 := by
  rw [bypassRatio, Bool.and_eq_true, decide_eq_true_eq, F32.scaled]
  refine and_congr_right fun _ => ?_
  cases F32.sign w
  · simp only [Bool.false_eq_true, if_false, true_and]
    omega
  · simp only [if_true, Bool.true_eq_false, false_and, iff_false]
    omega

/-- The smallest and the largest word in Bypass, each between two neighbours of the tolerance's bound. -/
theorem bypass_bounds :
    F32.mag 0x3F7FBE76#32 * 1000 ≤ 999 * 2 ^ 149 ∧ 999 * 2 ^ 149 < F32.mag 0x3F7FBE77#32 * 1000 ∧
    F32.mag 0x3F8020C4#32 * 1000 < 1001 * 2 ^ 149 ∧ 1001 * 2 ^ 149 ≤ F32.mag 0x3F8020C5#32 * 1000 := by decide

/-- Settles O50: magnitudes are ordered as their words, so the tolerance is a range of words. -/
theorem bypassRatioWords : Obligations.BypassRatioWords := by
  intro w
  obtain ⟨hbelow, hlow, hhigh, habove⟩ := bypass_bounds
  have hlt := w.isLt
  rw [bypassRatio_iff_mag]
  constructor
  · rintro ⟨-, hsign, hgt, hlt'⟩
    have hpos : w.toNat < 2 ^ 31 := by simpa [F32.sign] using hsign
    have h1 : ¬ F32.mag w ≤ F32.mag 0x3F7FBE76#32 := by omega
    have h2 : ¬ F32.mag 0x3F8020C5#32 ≤ F32.mag w := by omega
    rw [F32.mag_le_mag_iff, Nat.mod_eq_of_lt hpos] at h1 h2
    simp only [BitVec.toNat_ofNat] at h1 h2
    omega
  · rintro ⟨hge, hle⟩
    have hmod : w.toNat % 2 ^ 31 = w.toNat := Nat.mod_eq_of_lt (by omega)
    have h1 : F32.mag 0x3F7FBE77#32 ≤ F32.mag w := by
      rw [F32.mag_le_mag_iff, hmod]
      exact hge
    have h2 : F32.mag w ≤ F32.mag 0x3F8020C4#32 := by
      rw [F32.mag_le_mag_iff, hmod]
      exact hle
    refine ⟨F32.isFinite_of_low31_lt (by omega), ?_, hlow.trans_le (Nat.mul_le_mul_right _ h1),
      (Nat.mul_le_mul_right _ h2).trans_lt hhigh⟩
    simp only [F32.sign, decide_eq_false_iff_not]
    omega

end Sys2Proof.Machine

/-! PROOFS. Rounding to nearest, ties to even (R20, R24): what `F32.roundMag` is of a value n / 2^k, and from it the two operations fadd
and fmul. -/

namespace Sys2Proof.Machine

/-! ### Rounding a quotient to an integer -/

/-- The rounded quotient is within half a unit, and even at a tie. -/
theorem F32.roundShift_spec (n sh : Nat) :
    2 * n ≤ (2 * F32.roundShift n sh + 1) * 2 ^ sh ∧ 2 * F32.roundShift n sh * 2 ^ sh ≤ 2 * n + 2 ^ sh ∧
    (2 * n = (2 * F32.roundShift n sh + 1) * 2 ^ sh ∨ 2 * F32.roundShift n sh * 2 ^ sh = 2 * n + 2 ^ sh →
      F32.roundShift n sh % 2 = 0) := by
  have hdiv := Nat.div_add_mod' n (2 ^ sh)
  have hlt : n % 2 ^ sh < 2 ^ sh := Nat.mod_lt _ (by positivity)
  unfold F32.roundShift
  generalize n / 2 ^ sh = q at hdiv ⊢
  generalize n % 2 ^ sh = r at hdiv hlt ⊢
  generalize 2 ^ sh = d at hdiv hlt ⊢
  subst hdiv
  dsimp only
  split
  next hup =>
    have e1 : (2 * (q + 1) + 1) * d = 2 * (q * d) + 3 * d := by ring
    have e2 : 2 * (q + 1) * d = 2 * (q * d) + 2 * d := by ring
    rw [e1, e2]
    refine ⟨by omega, by omega, fun h => ?_⟩
    omega
  next hdown =>
    have e1 : (2 * q + 1) * d = 2 * (q * d) + d := by ring
    have e2 : 2 * q * d = 2 * (q * d) := by ring
    rw [e1, e2]
    refine ⟨by omega, by omega, fun h => ?_⟩
    omega

/-! ### The rounding of n / 2^k (R24) -/

/-- The value n / 2^k rounds to q units of 2^(u - 149): the unit is the smallest that leaves q at most 24 bits, and q is the nearest
count of units, even at a tie. -/
structure F32.Rounding (n k u q : Nat) : Prop where
  lt : n * 2 ^ 149 < 2 ^ 24 * 2 ^ (k + u)
  ge : u = 0 ∨ 2 ^ 23 * 2 ^ (k + u) ≤ n * 2 ^ 149
  below : 2 * (n * 2 ^ 149) ≤ (2 * q + 1) * 2 ^ (k + u)
  above : 2 * q * 2 ^ (k + u) ≤ 2 * (n * 2 ^ 149) + 2 ^ (k + u)
  even : 2 * (n * 2 ^ 149) = (2 * q + 1) * 2 ^ (k + u) ∨ 2 * q * 2 ^ (k + u) = 2 * (n * 2 ^ 149) + 2 ^ (k + u) → q % 2 = 0

/-- `F32.roundMag` packs the unit and the count of a rounding, or is infinity past the largest of them. -/
theorem F32.roundMag_rounding (n k : Nat) :
    ∃ u q, F32.Rounding n k u q ∧
      F32.roundMag n k = if u * 2 ^ 23 + q < 0x7F800000 then u * 2 ^ 23 + q else 0x7F800000 := by
  by_cases hn : n = 0
  · subst hn
    refine ⟨0, 0, ⟨by simp, .inl rfl, by simp, by simp, fun _ => rfl⟩, by simp [F32.roundMag]⟩
  · obtain ⟨hbelow, habove, heven⟩ := F32.roundShift_spec (n * 2 ^ 149) (k + (n.log2 + 126 - k))
    refine ⟨n.log2 + 126 - k, _, ⟨?_, ?_, hbelow, habove, heven⟩, by simp only [F32.roundMag, if_neg hn]⟩
    · calc n * 2 ^ 149 < 2 ^ (n.log2 + 1) * 2 ^ 149 := Nat.mul_lt_mul_of_pos_right Nat.lt_log2_self (by positivity)
        _ = 2 ^ (n.log2 + 1 + 149) := (Nat.pow_add ..).symm
        _ ≤ 2 ^ (24 + (k + (n.log2 + 126 - k))) := Nat.pow_le_pow_right (by decide) (by omega)
        _ = 2 ^ 24 * 2 ^ (k + (n.log2 + 126 - k)) := Nat.pow_add ..
    · rcases Nat.eq_zero_or_pos (n.log2 + 126 - k) with hu | hu
      · exact .inl hu
      · refine .inr ?_
        calc 2 ^ 23 * 2 ^ (k + (n.log2 + 126 - k))
            = 2 ^ (n.log2 + 149) := by rw [← Nat.pow_add]; congr 1; omega
          _ = 2 ^ n.log2 * 2 ^ 149 := Nat.pow_add ..
          _ ≤ n * 2 ^ 149 := Nat.mul_le_mul_right _ (Nat.log2_self_le hn)

section Rounding

variable {n k u q : Nat}

theorem F32.Rounding.count_le (h : F32.Rounding n k u q) : q ≤ 2 ^ 24 := by
  have hlt := h.lt
  have habove := h.above
  have hpos : 0 < 2 ^ (k + u) := by positivity
  by_contra hgt
  have : (2 ^ 24 + 1) * 2 ^ (k + u) ≤ q * 2 ^ (k + u) := Nat.mul_le_mul_right _ (by omega)
  rw [Nat.mul_assoc] at habove
  omega

theorem F32.Rounding.le_count (h : F32.Rounding n k u q) : u = 0 ∨ 2 ^ 23 ≤ q := by
  refine h.ge.imp_right fun hge => ?_
  have hbelow := h.below
  have hpos : 0 < 2 ^ (k + u) := by positivity
  by_contra hlt
  have : (2 * q + 1) * 2 ^ (k + u) ≤ (2 ^ 24 - 1) * 2 ^ (k + u) := Nat.mul_le_mul_right _ (by omega)
  omega

/-- The word of a unit and a count has the magnitude they say, also where the count has rounded up to the next unit. -/
theorem F32.mag_pack {u q : Nat} (neg : Bool) (hq : q ≤ 2 ^ 24) (hu : u = 0 ∨ 2 ^ 23 ≤ q)
    (hlt : u * 2 ^ 23 + q < 2 ^ 31) : F32.mag (F32.pack neg (u * 2 ^ 23 + q)) = q * 2 ^ u := by
  rw [F32.mag, F32.expField_pack neg hlt, F32.fracField_pack neg hlt]
  rcases Nat.lt_or_ge q (2 ^ 23) with hsub | hnorm
  · obtain rfl : u = 0 := hu.resolve_right (by omega)
    rw [if_pos (by omega)]
    omega
  · rcases hq.lt_or_eq with hlt24 | rfl
    · have he : (u * 2 ^ 23 + q) / 2 ^ 23 = u + 1 := by omega
      have hf : (u * 2 ^ 23 + q) % 2 ^ 23 + 2 ^ 23 = q := by omega
      rw [he, hf, if_neg (by omega), Nat.add_sub_cancel]
    · have he : (u * 2 ^ 23 + 2 ^ 24) / 2 ^ 23 = u + 2 := by omega
      have hf : (u * 2 ^ 23 + 2 ^ 24) % 2 ^ 23 + 2 ^ 23 = 2 ^ 23 := by omega
      rw [he, hf, if_neg (by omega), show u + 2 - 1 = u + 1 by omega]
      ring

/-- At the last finite unit, the values that round to less than 2^24 counts are those below half a unit under it. -/
theorem F32.count_lt_iff_of_last_unit {a d q : Nat} (hd : 0 < d) (hq : q ≤ 2 ^ 24)
    (hbelow : 2 * a ≤ (2 * q + 1) * (2 * d)) (habove : 2 * q * (2 * d) ≤ 2 * a + 2 * d)
    (heven : 2 * a = (2 * q + 1) * (2 * d) ∨ 2 * q * (2 * d) = 2 * a + 2 * d → q % 2 = 0) :
    q < 2 ^ 24 ↔ a < (2 ^ 25 - 1) * d := by
  rcases (show q ≤ 2 ^ 24 - 2 ∨ q = 2 ^ 24 - 1 ∨ q = 2 ^ 24 by omega) with hlt | rfl | rfl
  · refine iff_of_true (by omega) ?_
    have : (2 * q + 1) * (2 * d) ≤ (2 * (2 ^ 24 - 2) + 1) * (2 * d) := Nat.mul_le_mul_right _ (by omega)
    omega
  · refine iff_of_true (by omega) ?_
    have hodd : ¬ 2 * a = (2 * (2 ^ 24 - 1) + 1) * (2 * d) := fun htie => absurd (heven (.inl htie)) (by omega)
    omega
  · exact iff_of_false (by omega) (by omega)

/-- Past 253 units of exponent nothing is finite, and at 253 the count must stay below 2^24: together the overflow threshold. -/
theorem F32.Rounding.finite_iff (h : F32.Rounding n k u q) :
    u * 2 ^ 23 + q < 0x7F800000 ↔ n * 2 ^ 149 < (2 ^ 25 - 1) * 2 ^ (252 + k) := by
  have hq := h.count_le
  have hle := h.le_count
  rcases Nat.lt_trichotomy u 253 with hu | rfl | hu
  · refine iff_of_true (by omega) (h.lt.trans_le ?_)
    calc 2 ^ 24 * 2 ^ (k + u) ≤ 2 ^ 24 * 2 ^ (252 + k) :=
          Nat.mul_le_mul_left _ (Nat.pow_le_pow_right (by decide) (by omega))
      _ ≤ (2 ^ 25 - 1) * 2 ^ (252 + k) := Nat.mul_le_mul_right _ (by decide)
  · have hunit : 2 ^ (k + 253) = 2 * 2 ^ (252 + k) := by rw [← Nat.pow_succ']; congr 1; omega
    have hbelow := h.below
    have habove := h.above
    have heven := h.even
    rw [hunit] at hbelow habove heven
    rw [← F32.count_lt_iff_of_last_unit (by positivity) hq hbelow habove heven]
    omega
  · refine iff_of_false (by omega) (not_lt.2 ?_)
    have hge := h.ge.resolve_left (by omega)
    calc (2 ^ 25 - 1) * 2 ^ (252 + k) ≤ 2 ^ 25 * 2 ^ (252 + k) := Nat.mul_le_mul_right _ (by decide)
      _ = 2 ^ (277 + k) := by rw [← Nat.pow_add]; congr 1; omega
      _ ≤ 2 ^ (23 + (k + u)) := Nat.pow_le_pow_right (by decide) (by omega)
      _ = 2 ^ 23 * 2 ^ (k + u) := Nat.pow_add ..
      _ ≤ n * 2 ^ 149 := hge

end Rounding

/-! ### The nearest value -/

/-- Among the multiples of d, one within d/2 of a, and even at a tie, is nearest to a, and only an odd one could be equalled. -/
theorem natAbs_mul_sub_le {a d q c : Nat} (hbelow : 2 * a ≤ (2 * q + 1) * d) (habove : 2 * q * d ≤ 2 * a + d)
    (heven : 2 * a = (2 * q + 1) * d ∨ 2 * q * d = 2 * a + d → q % 2 = 0) :
    ((q * d : Nat) - (a : Int)).natAbs ≤ ((c * d : Nat) - (a : Int)).natAbs ∧
    (((q * d : Nat) - (a : Int)).natAbs = ((c * d : Nat) - (a : Int)).natAbs → c = q ∨ q % 2 = 0) := by
  have e1 : (2 * q + 1) * d = 2 * (q * d) + d := by ring
  have e2 : 2 * q * d = 2 * (q * d) := by ring
  rw [e1] at hbelow heven
  rw [e2] at habove heven
  rcases Nat.lt_trichotomy c q with hc | rfl | hc
  · have hstep : c * d + d ≤ q * d := by rw [← Nat.succ_mul]; exact Nat.mul_le_mul_right d hc
    refine ⟨by omega, fun h => .inr (heven ?_)⟩
    omega
  · exact ⟨le_rfl, fun _ => .inl rfl⟩
  · have hstep : q * d + d ≤ c * d := by rw [← Nat.succ_mul]; exact Nat.mul_le_mul_right d hc
    refine ⟨by omega, fun h => .inr (heven ?_)⟩
    omega

/-- A magnitude is a count of any unit, or less than 2^23 of it. -/
theorem F32.mag_count (w : Word) (u : Nat) : (∃ c, F32.mag w = c * 2 ^ u) ∨ F32.mag w < 2 ^ 23 * 2 ^ u := by
  have hf := F32.fracField_lt w
  have hpos : 0 < 2 ^ u := by positivity
  by_cases he : F32.expField w = 0
  · rw [F32.mag, if_pos he]
    exact .inr (hf.trans_le (Nat.le_mul_of_pos_right _ hpos))
  · rw [F32.mag, if_neg he]
    rcases Nat.lt_or_ge (F32.expField w - 1) u with hlt | hge
    · refine .inr ?_
      calc (F32.fracField w + 2 ^ 23) * 2 ^ (F32.expField w - 1)
          < 2 ^ 24 * 2 ^ (F32.expField w - 1) := Nat.mul_lt_mul_of_pos_right (by omega) (by positivity)
        _ = 2 ^ 23 * 2 ^ (F32.expField w - 1 + 1) := by ring
        _ ≤ 2 ^ 23 * 2 ^ u := Nat.mul_le_mul_left _ (Nat.pow_le_pow_right (by decide) hlt)
    · obtain ⟨e, he'⟩ := Nat.exists_eq_add_of_le hge
      refine .inl ⟨(F32.fracField w + 2 ^ 23) * 2 ^ e, ?_⟩
      rw [he', Nat.pow_add]
      ring

/-- A rounding is the nearest magnitude to n / 2^k: counts of its unit by the rounding of the quotient, and any other magnitude is
smaller than the least count the unit leaves. -/
theorem F32.Rounding.nearest {n k u q : Nat} (h : F32.Rounding n k u q) (w : Word) :
    ((q * 2 ^ u * 2 ^ k : Nat) - ((n * 2 ^ 149 : Nat) : Int)).natAbs ≤
      ((F32.mag w * 2 ^ k : Nat) - ((n * 2 ^ 149 : Nat) : Int)).natAbs ∧
    (((q * 2 ^ u * 2 ^ k : Nat) - ((n * 2 ^ 149 : Nat) : Int)).natAbs =
      ((F32.mag w * 2 ^ k : Nat) - ((n * 2 ^ 149 : Nat) : Int)).natAbs → F32.mag w = q * 2 ^ u ∨ q % 2 = 0) := by
  have hunit : ∀ c : Nat, c * 2 ^ u * 2 ^ k = c * 2 ^ (k + u) := fun c => by rw [Nat.add_comm, Nat.pow_add, Nat.mul_assoc]
  have hcount := fun c : Nat => natAbs_mul_sub_le (c := c) h.below h.above h.even
  rw [hunit]
  rcases F32.mag_count w u with ⟨c, hc⟩ | hlt
  · rw [hc, hunit]
    refine ⟨(hcount c).1, fun heq => ((hcount c).2 heq).imp_left fun hcq => by rw [hcq]⟩
  · rcases h.ge with rfl | hge
    · rw [← hunit, pow_zero, Nat.mul_one]
      have := hcount (F32.mag w)
      rw [Nat.add_zero] at this
      exact ⟨this.1, fun heq => this.2 heq⟩
    · have hfar : F32.mag w * 2 ^ k < 2 ^ 23 * 2 ^ (k + u) := by
        rw [← hunit]
        exact Nat.mul_lt_mul_of_pos_right hlt (by positivity)
      have hnear := (hcount (2 ^ 23)).1
      constructor
      · omega
      · intro heq
        omega

/-- The integer with the sign and the magnitude given. -/
def signedInt (neg : Bool) (n : Nat) : Int := if neg then -(n : Int) else n

theorem F32.scaled_eq_signedInt (w : Word) : F32.scaled w = signedInt (F32.sign w) (F32.mag w) := rfl

theorem F32.isFinite_pack {m : Nat} (neg : Bool) (h : m ≤ 0x7F800000) :
    F32.isFinite (F32.pack neg m) = true ↔ m < 0x7F800000 := by
  simp only [F32.isFinite, F32.expField_pack neg (show m < 2 ^ 31 by omega), bne_iff_ne]
  omega

/-- What the packed rounding of n / 2^k is when it is finite. -/
theorem F32.pack_roundMag_finite {n k : Nat} {neg : Bool} (h : F32.isFinite (F32.pack neg (F32.roundMag n k)) = true) :
    ∃ u q, F32.Rounding n k u q ∧ F32.sign (F32.pack neg (F32.roundMag n k)) = neg ∧
      F32.mag (F32.pack neg (F32.roundMag n k)) = q * 2 ^ u ∧ (F32.pack neg (F32.roundMag n k)).toNat % 2 = q % 2 := by
  rw [F32.isFinite_pack neg (F32.roundMag_le n k)] at h
  obtain ⟨u, q, hr, hm⟩ := F32.roundMag_rounding n k
  have hlt : u * 2 ^ 23 + q < 0x7F800000 := by
    by_contra hge
    rw [hm, if_neg hge] at h
    exact lt_irrefl _ h
  rw [hm, if_pos hlt]
  have hlt31 : u * 2 ^ 23 + q < 2 ^ 31 := hlt.trans (by decide)
  refine ⟨u, q, hr, F32.sign_pack neg hlt31, F32.mag_pack neg hr.count_le hr.le_count hlt31, ?_⟩
  rw [F32.pack_toNat neg hlt31]
  split <;> omega

/-- The packed rounding of n / 2^k is finite below the overflow threshold. -/
theorem F32.isFinite_pack_roundMag (n k : Nat) (neg : Bool) :
    F32.isFinite (F32.pack neg (F32.roundMag n k)) = true ↔ n * 2 ^ 149 < (2 ^ 25 - 1) * 2 ^ (252 + k) := by
  obtain ⟨u, q, hr, hm⟩ := F32.roundMag_rounding n k
  rw [F32.isFinite_pack neg (F32.roundMag_le n k), ← hr.finite_iff, hm]
  split
  next hlt => exact iff_of_true hlt hlt
  next hge => exact iff_of_false (lt_irrefl _) hge

/-- A magnitude r as near to a as 0 and m are is, with a's sign, as near to a as m with either sign. -/
theorem natAbs_signedInt_le {r m a : Nat} {neg sign : Bool} (hzero : ((r : Int) - a).natAbs ≤ a)
    (hle : ((r : Int) - a).natAbs ≤ ((m : Int) - a).natAbs) :
    (signedInt neg r - signedInt neg a).natAbs ≤ (signedInt sign m - signedInt neg a).natAbs ∧
    ((signedInt neg r - signedInt neg a).natAbs = (signedInt sign m - signedInt neg a).natAbs →
      ((r : Int) - a).natAbs = ((m : Int) - a).natAbs ∧ (sign = neg ∨ m = 0)) := by
  unfold signedInt
  cases neg <;> cases sign <;> simp only [Bool.false_eq_true, Bool.true_eq_false, eq_self, true_or, false_or, and_true, if_false, if_true] <;>
    omega

theorem signedInt_zero (neg : Bool) : signedInt neg 0 = 0 := by
  cases neg <;> rfl

theorem signedInt_mul (neg : Bool) (n c : Nat) : signedInt neg (n * c) = signedInt neg n * c := by
  cases neg <;> simp [signedInt]

/-- The packed rounding of a signed value n / 2^k is a nearest finite value to it, and even at a tie: a value of the other sign is
no nearer than its mirror image. -/
theorem F32.pack_roundMag_nearest {n k : Nat} {neg : Bool}
    (h : F32.isFinite (F32.pack neg (F32.roundMag n k)) = true) (w : Word) :
    (F32.scaled (F32.pack neg (F32.roundMag n k)) * 2 ^ k - signedInt neg n * 2 ^ 149).natAbs ≤
      (F32.scaled w * 2 ^ k - signedInt neg n * 2 ^ 149).natAbs ∧
    ((F32.scaled (F32.pack neg (F32.roundMag n k)) * 2 ^ k - signedInt neg n * 2 ^ 149).natAbs =
      (F32.scaled w * 2 ^ k - signedInt neg n * 2 ^ 149).natAbs →
      F32.scaled w = F32.scaled (F32.pack neg (F32.roundMag n k)) ∨ (F32.pack neg (F32.roundMag n k)).toNat % 2 = 0) := by
  obtain ⟨u, q, hr, hsign, hmag, hpar⟩ := F32.pack_roundMag_finite h
  have hpos : 0 < 2 ^ k := by positivity
  have hzero := (hr.nearest 0#32).1
  rw [F32.mag_zero, Nat.zero_mul, Nat.cast_zero, zero_sub, Int.natAbs_neg, Int.natAbs_natCast] at hzero
  obtain ⟨hle, htie⟩ := hr.nearest w
  obtain ⟨hle', htie'⟩ := natAbs_signedInt_le (neg := neg) (sign := F32.sign w) hzero hle
  simp only [signedInt_mul, Nat.cast_pow, Nat.cast_ofNat] at hle' htie'
  rw [F32.scaled_eq_signedInt, F32.scaled_eq_signedInt w, hsign, hmag, hpar, signedInt_mul]
  push_cast at hle' htie' ⊢
  refine ⟨hle', fun heq => ?_⟩
  obtain ⟨hdist, hsame⟩ := htie' heq
  refine (htie hdist).imp_left fun hmw => ?_
  have hw : F32.sign w = neg ∨ F32.mag w = 0 := hsame.imp_right fun h0 => (Nat.mul_eq_zero.1 h0).resolve_right hpos.ne'
  rcases hw with hw | hw
  · rw [hw, hmw, signedInt_mul]
    push_cast
    rfl
  · have hq : signedInt neg q * 2 ^ u = 0 := by
      have := signedInt_mul neg q (2 ^ u)
      rw [← hmw, hw, signedInt_zero] at this
      exact_mod_cast this.symm
    rw [hw, signedInt_zero, hq]

/-! ### fadd and fmul (R24) -/

theorem F32.isNaN_of_isFinite {w : Word} (h : F32.isFinite w = true) : F32.isNaN w = false := by
  simp_all [F32.isFinite, F32.isNaN]

theorem F32.isInf_of_isFinite {w : Word} (h : F32.isFinite w = true) : F32.isInf w = false := by
  simp_all [F32.isFinite, F32.isInf]

theorem signedInt_decide_natAbs (v : Int) : signedInt (decide (v < 0)) v.natAbs = v := by
  unfold signedInt
  split
  next h => have := of_decide_eq_true h; omega
  next h => have : ¬ v < 0 := fun hv => h (decide_eq_true hv); omega

/-- The sum of finite words is the rounding of the exact sum, with its sign, or with the sign rule of IEEE 754 where it is zero. -/
theorem F32.sum_finite {a b : Word} (nan : Word) (ha : F32.isFinite a = true) (hb : F32.isFinite b = true) :
    ∃ neg, F32.sum nan a b = F32.pack neg (F32.roundMag (F32.scaled a + F32.scaled b).natAbs 149) ∧
      signedInt neg (F32.scaled a + F32.scaled b).natAbs = F32.scaled a + F32.scaled b := by
  unfold F32.sum
  rw [F32.isNaN_of_isFinite ha, F32.isNaN_of_isFinite hb, F32.isInf_of_isFinite ha, F32.isInf_of_isFinite hb]
  simp only [Bool.or_self, Bool.false_eq_true, if_false]
  generalize F32.scaled a + F32.scaled b = v
  by_cases hv : v = 0
  · rw [if_pos hv, hv]
    exact ⟨F32.sign a && F32.sign b, rfl, by cases F32.sign a && F32.sign b <;> rfl⟩
  · rw [if_neg hv]
    exact ⟨decide (v < 0), rfl, signedInt_decide_natAbs v⟩

/-- The product of finite words is the rounding of the exact product with the sign of the two. -/
theorem fmul_finite {a b : Word} (ha : F32.isFinite a = true) (hb : F32.isFinite b = true) :
    fmul a b = F32.pack (F32.sign a != F32.sign b) (F32.roundMag (F32.mag a * F32.mag b) 298) ∧
      signedInt (F32.sign a != F32.sign b) (F32.mag a * F32.mag b) = F32.scaled a * F32.scaled b := by
  constructor
  · unfold fmul
    rw [F32.isNaN_of_isFinite ha, F32.isNaN_of_isFinite hb, F32.isInf_of_isFinite ha, F32.isInf_of_isFinite hb]
    rfl
  · simp only [F32.scaled_eq_signedInt, signedInt]
    cases F32.sign a <;> cases F32.sign b <;> simp

/-- Settles O58: the sum is the rounding of the exact sum, whose unit is already 2^-149. -/
theorem faddIsRoundedToNearestEven : Obligations.FaddIsRoundedToNearestEven := by
  intro a b ha hb
  obtain ⟨neg, hsum, hv⟩ := F32.sum_finite (F32.nan .add a b) ha hb
  rw [fadd, hsum]
  constructor
  · rw [F32.isFinite_pack_roundMag]
    omega
  · intro hfin w _
    have hnear := F32.pack_roundMag_nearest hfin w
    simp only [hv, ← sub_mul, Int.natAbs_mul] at hnear
    exact ⟨Nat.le_of_mul_le_mul_right hnear.1 (by decide), fun heq => hnear.2 (by rw [heq])⟩

/-- Settles O59: the product is the rounding of the exact product, whose unit is 2^-298. -/
theorem fmulIsRoundedToNearestEven : Obligations.FmulIsRoundedToNearestEven := by
  intro a b ha hb
  obtain ⟨hmul, hx⟩ := fmul_finite ha hb
  have habs : (F32.scaled a * F32.scaled b).natAbs = F32.mag a * F32.mag b := by
    rw [Int.natAbs_mul, F32.scaled_natAbs, F32.scaled_natAbs]
  rw [hmul, habs]
  constructor
  · rw [F32.isFinite_pack_roundMag]
    omega
  · intro hfin w _
    have hnear := F32.pack_roundMag_nearest hfin w
    rw [show (2 : Int) ^ 298 = 2 ^ 149 * 2 ^ 149 from pow_add 2 149 149] at hnear
    simp only [hx, ← mul_assoc, ← sub_mul, Int.natAbs_mul _ (2 ^ 149)] at hnear
    exact ⟨Nat.le_of_mul_le_mul_right hnear.1 (by decide), fun heq => hnear.2 (by rw [heq])⟩

end Sys2Proof.Machine

/-! PROOFS. The BUF operations (R140 to R144): what CLEAR, WRITE, READ, PEEK_WIN and ACCUM leave in each cell and register, and the sign
of a zero that ACCUM never makes (R238). -/

namespace Sys2Proof.Machine

/-- Settles O7: a capacity in range clears, any other raises. -/
theorem clearSetsCapacityAndSilencesCells : Obligations.ClearSetsCapacityAndSilencesCells := by
  intro i z cap off s
  refine ⟨fun ⟨hpos, hdepth⟩ => ?_, fun hout => ?_⟩
  · exact ⟨Buf.cleared cap, State.finishBuf_of_ok (Buf.clear_eq_ok.2 ⟨hpos, hdepth, rfl⟩), rfl, rfl, rfl, rfl, fun _ => rfl⟩
  · exact State.finishBuf_of_error (Buf.clear_eq_error.2 ⟨hout, rfl⟩)

/-- Settles O8: the loop of WRITE fills its span and nothing else, and no register loses a bit. -/
theorem writeAppendsItsSamples : Obligations.WriteAppendsItsSamples := by
  intro i z off din s hs
  have hcells := hs.cellsOk
  refine ⟨fun hroom => ?_, fun hfull => State.finishBuf_of_error (Buf.write_eq_error.2 ⟨hfull, rfl⟩)⟩
  refine ⟨_, State.finishBuf_of_ok (Buf.write_eq_ok.2 ⟨hroom, rfl⟩), ?_, ?_, ?_, ?_, fun j hj => ?_, fun c hc => ?_⟩
  · exact Buf.writeCells_cap _ _ _
  · exact Buf.writeCells_rd _ _ _
  · exact hcells.advance_toNat _ _
  · exact Buf.count_toNat hroom
  · have hread := Buf.writeCells_read (s.buf i) hcells (s.buf i).wr.toNat din (by omega) j hj
    rwa [Buf.memRead, Buf.writeCells_cap] at hread
  · exact Buf.writeCells_read_outside _ _ _ _ hc

theorem exec_read_of_ok {i : BufId} {z : Bool} {n : BitVec 16} (off : BitVec 16) {s : State} {b : Buf} {r : List Word}
    (h : (s.buf i).read n.toNat z = .ok (b, r)) :
    exec (.read i z n off) s = .next { s.setBuf i b with resp := .samples r } := by
  simp only [exec, execRead, h]

theorem exec_peekWin_of_ok {i : BufId} (z : Bool) {off : BitVec 16} {win : List Word} {s : State} {r : List Word}
    (h : (s.buf i).peekWin s.params off.toNat win = .ok r) :
    exec (.peekWin i z off win) s = .next { s with resp := .samples r } := by
  simp only [exec, execPeekWin, h]

/-- Settles O9: READ's loop sees every cell before it zeroes it, and zeroes its span alone. -/
theorem readRemovesItsSamples : Obligations.ReadRemovesItsSamples := by
  intro i z n off s hs
  have hcells := hs.cellsOk
  have hcap := hs.cnt_le_cap
  constructor
  · intro hunread
    refine ⟨_, _, exec_read_of_ok off (Buf.read_eq_ok.2 ⟨hunread, rfl, rfl⟩), Buf.takeCells_length _ _ _ _, fun j hj => ?_, Buf.takeCells_cap _ _ _ _, Buf.takeCells_wr _ _ _ _,
      hcells.advance_toNat _ _, Buf.count_toNat ((Nat.sub_le _ _).trans hcap), fun c hc => ?_, fun c hc => ?_⟩
    · simp only [Buf.takeCells_samples z (s.buf i) hcells _ _ (hunread.trans hcap), Buf.readCells_getElem]
      rfl
    · exact (Buf.takeCells_read z (s.buf i) hcells _ _ c).trans (if_pos hc)
    · exact (Buf.takeCells_read z (s.buf i) hcells _ _ c).trans (if_neg hc)
  · intro hfew
    simp only [exec, execRead, Buf.read_eq_error.2 ⟨hfew, rfl⟩]

/-- Settles O10: sample by sample; PEEK_WIN has no buffer to leave. -/
theorem peekWinReturnsWindowedCells : Obligations.PeekWinReturnsWindowedCells := by
  intro i z off win s
  constructor
  · intro hunread
    refine ⟨_, exec_peekWin_of_ok z (Buf.peekWin_eq_ok.2 ⟨hunread, rfl⟩), by simp, fun j hj hj' => ?_⟩
    have hprod : (List.zipWith (windowProduct s.params)
        ((s.buf i).readCells ((s.buf i).rd.toNat + off.toNat) win.length) win)[j] =
        windowProduct s.params
          (Memory.read (s.buf i).data (((s.buf i).rd.toNat + off.toNat + j) % (s.buf i).cap.toNat)) win[j] := by
      simp only [List.getElem_zipWith, Buf.readCells_getElem]
      rfl
    refine ⟨hprod, fun hnum => hprod.trans ?_⟩
    simp only [windowProduct, hnum]
  · intro hfew
    simp only [exec, execPeekWin, Buf.peekWin_eq_error.2 ⟨hfew, rfl⟩]

/-- A buffer of which only the cells differ. -/
theorem Buf.eq_with_data {b b' : Buf} (hcap : b'.cap = b.cap) (hrd : b'.rd = b.rd) (hwr : b'.wr = b.wr)
    (hcnt : b'.cnt = b.cnt) : b' = { b with data := b'.data } := by
  cases b
  cases b'
  simp_all

/-- ACCUM with room adds into the cells of its span and leaves everything else (40 R144). -/
theorem Buf.accum_cells {p : Params} {b : Buf} {off : Nat} {v : List Word} (hb : b.CellsOk)
    (hroom : b.cnt.toNat + off + v.length ≤ b.cap.toNat) :
    ∃ b', b.accum p off v = .ok b' ∧ b' = { b with data := b'.data } ∧
      (∀ (j : Nat) (h : j < v.length),
        Memory.read b'.data ((b.wr.toNat + off + j) % b.cap.toNat) =
          accumulate p (Memory.read b.data ((b.wr.toNat + off + j) % b.cap.toNat)) v[j]) ∧
      (∀ c, (∀ j < v.length, c ≠ (b.wr.toNat + off + j) % b.cap.toNat) →
        Memory.read b'.data c = Memory.read b.data c) := by
  refine ⟨_, Buf.accum_eq_ok.2 ⟨hroom, rfl⟩, Buf.eq_with_data ?_ ?_ ?_ ?_, fun j hj => ?_, fun c hc => ?_⟩
  · exact Buf.accumCells_cap _ _ _ _
  · exact Buf.accumCells_rd _ _ _ _
  · exact Buf.accumCells_wr _ _ _ _
  · exact Buf.accumCells_cnt _ _ _ _
  · have hread := Buf.accumCells_read (accumulate p) b hb (b.wr.toNat + off) v (by omega) j hj
    rwa [Buf.memRead, Buf.accumCells_cap] at hread
  · exact Buf.accumCells_read_outside _ _ _ _ _ hc

theorem accumulate_standard {p : Params} (hp : p.numerics = .standard) : accumulate p = fadd := by
  funext old v
  simp only [accumulate, hp]

/-- Settles O11, by what ACCUM leaves in each cell. -/
theorem accumAddsIntoItsCells : Obligations.AccumAddsIntoItsCells := by
  intro i z off din s hs
  refine ⟨fun hroom => ?_, fun hfull => State.finishBuf_of_error (Buf.accum_eq_error.2 ⟨hfull, rfl⟩)⟩
  obtain ⟨b, hok, hregs, hin, hout⟩ := Buf.accum_cells (p := s.params) hs.cellsOk hroom
  refine ⟨b, State.finishBuf_of_ok hok, hregs, fun j hj => ⟨hin j hj, fun hnum => ?_⟩, hout⟩
  rw [hin j hj, accumulate_standard hnum]

/-! ### The sign of a zero sum (R238) -/

/-- A sum that is not zero does not round to zero: 2^-149 itself is as near. -/
theorem F32.roundMag_pos {n : Nat} (hn : n ≠ 0) : F32.roundMag n 149 ≠ 0 := by
  intro hzero
  have hfin : F32.isFinite (F32.pack false (F32.roundMag n 149)) = true := by rw [hzero]; decide
  have hnear := (F32.pack_roundMag_nearest hfin 1#32).1
  have hscaled : F32.scaled (F32.pack false 0) = 0 := by decide
  have hone : F32.scaled 1#32 = 1 := by decide
  rw [hzero, hscaled, hone, signedInt] at hnear
  simp only [Bool.false_eq_true, if_false] at hnear
  omega

theorem F32.nan_ne_negZero (op : FpOp) (a b : Word) : F32.nan op a b ≠ 0x80000000#32 := by
  have hlt := (Config.nanPayload op a b).isLt
  intro h
  have hnat := congrArg BitVec.toNat h
  simp only [F32.nan, BitVec.toNat_ofNat] at hnat
  omega

theorem F32.isInf_ne_negZero {w : Word} (h : F32.isInf w = true) : w ≠ 0x80000000#32 := by
  rintro rfl
  exact absurd h (by decide)

theorem F32.eq_negZero {w : Word} (hsign : F32.sign w = true) (hmag : F32.mag w = 0) : w = 0x80000000#32 := by
  have hlt := w.isLt
  have hle : F32.mag w ≤ F32.mag 0#32 := by rw [hmag, F32.mag_zero]
  rw [F32.mag_le_mag_iff] at hle
  simp only [F32.sign, decide_eq_true_eq] at hsign
  refine BitVec.eq_of_toNat_eq ?_
  simp only [BitVec.toNat_ofNat] at hle ⊢
  omega

theorem F32.pack_ne_negZero {neg : Bool} {m : Nat} (hm : m ≤ 0x7F800000) (h : m ≠ 0) :
    F32.pack neg m ≠ 0x80000000#32 := by
  intro heq
  have hnat := congrArg BitVec.toNat heq
  rw [F32.pack_toNat neg (by omega)] at hnat
  simp only [BitVec.toNat_ofNat] at hnat
  split at hnat <;> omega

/-- A sum is -0.0 only where both operands are (IEEE 754, log 13): an exact zero sum with both signs set has no other operands. -/
theorem fadd_ne_negZero {a : Word} (b : Word) (ha : a ≠ 0x80000000#32) : fadd a b ≠ 0x80000000#32 := by
  unfold fadd F32.sum
  split
  · exact F32.nan_ne_negZero _ _ _
  split
  · split
    · exact F32.nan_ne_negZero _ _ _
    · exact ha
  split
  next hb => exact F32.isInf_ne_negZero hb
  dsimp only
  split
  next hv =>
    cases hsa : F32.sign a
    · simp only [Bool.false_and]
      decide
    · cases hsb : F32.sign b
      · simp only [Bool.and_false]
        decide
      · have hmag : F32.mag a ≠ 0 := fun h => ha (F32.eq_negZero hsa h)
        simp only [F32.scaled, hsa, hsb, if_true] at hv
        omega
  next hv => exact F32.pack_ne_negZero (F32.roundMag_le _ _) (F32.roundMag_pos (by omega))

/-- Settles O16: a cell of the span holds a sum whose old value was not -0.0, any other its old value. -/
theorem accumNeverMakesNegativeZero : Obligations.AccumNeverMakesNegativeZero := by
  intro i z off din s t hnum hs hold h c
  rcases s.finishBuf_cases i ((s.buf i).accum s.params off.toNat din) with ⟨b', hb', hnext⟩ | ⟨e, -, hnext⟩
  · obtain rfl : s.setBuf i b' = t := Host.Outcome.next.inj (hnext.symm.trans h)
    obtain ⟨b, hb, -, hin, hout⟩ := Buf.accum_cells (p := s.params) hs.cellsOk (Buf.accum_eq_ok.1 hb').1
    obtain rfl : b' = b := Except.ok.inj (hb'.symm.trans hb)
    rw [State.buf_setBuf]
    by_cases hspan : ∀ j < din.length, c ≠ ((s.buf i).wr.toNat + off.toNat + j) % (s.buf i).cap.toNat
    · rw [hout c hspan]
      exact hold c
    · push Not at hspan
      obtain ⟨j, hj, rfl⟩ := hspan
      rw [hin j hj, accumulate_standard hnum]
      exact fadd_ne_negZero _ (hold _)
  · obtain rfl : s.raise e = t := Host.Outcome.next.inj (hnext.symm.trans h)
    rw [State.raise_buf]
    exact hold c

end Sys2Proof.Machine

/-! PROOFS. The ROM and the resampler as transactions (R180 to R182, R200 to R205), and the ranges of HANN_ROM and PITCH_EXP2 (R21, R36). -/

namespace Sys2Proof.Machine

/-! ### LOOKUP and the range of a coefficient (R180 to R182, R21) -/

theorem exec_lookup_of_ok {l i : BitVec 15} {s : State} {w : Word} (h : romLookup s.params l.toNat i.toNat = .ok w) :
    exec (.lookup l i) s = .next { s with resp := .coefficient w } := by
  simp only [exec, execLookup, h]

/-- Settles O21: the address decides, and length 1 is the constant. -/
theorem lookupReturnsItsCoefficient : Obligations.LookupReturnsItsCoefficient := by
  intro l i s
  refine ⟨fun ⟨hpos, hmax, hi⟩ => ⟨exec_lookup_of_ok (romLookup_eq_ok.2 ⟨hpos, hmax, hi, rfl⟩), fun hone => ?_⟩, fun hout => ?_⟩
  · rw [hone, hannRom_length_one]
  · have hfault : romLookup s.params l.toNat i.toNat = .error .romRange :=
      romLookup_eq_error.2 ⟨hout.imp_left Nat.lt_one_iff.2, rfl⟩
    simp only [exec, execLookup, hfault]

theorem hannCustom_range (l i : Nat) : (hannCustom l i).toNat ≤ 0x3F800000 ∨ hannCustom l i = 0x80000000#32 := by
  unfold hannCustom
  dsimp only
  split
  next h => exact h
  next => exact .inl le_rfl

/-- Settles O23: the default is a square of a sine, a custom coefficient is clamped. -/
theorem everyRomCoefficientLiesInUnitInterval : Obligations.EveryRomCoefficientLiesInUnitInterval := by
  intro p l i
  unfold hannRom
  split
  · exact .inl le_rfl
  · split
    · exact .inl (sinSquared_toNat_le _)
    · exact hannCustom_range l i

/-! ### Rounding passes no representable value (R24) -/

theorem F32.mag_maxFinite : F32.mag 0x7F7FFFFF#32 = (2 ^ 24 - 1) * 2 ^ 253 := by decide

/-- A positive word is its magnitude bits. -/
theorem low31_of_lt {w : Word} (h : w.toNat < 0x7F800000) : w.toNat % 2 ^ 31 = w.toNat := Nat.mod_eq_of_lt (by omega)

/-- A value up to that of a finite word stays below the overflow threshold. -/
theorem F32.lt_threshold {n k : Nat} {w : Word} (hw : w.toNat % 2 ^ 31 < 0x7F800000)
    (h : n * 2 ^ 149 ≤ F32.mag w * 2 ^ k) : n * 2 ^ 149 < (2 ^ 25 - 1) * 2 ^ (252 + k) := by
  have hmax : F32.mag w ≤ F32.mag 0x7F7FFFFF#32 := by
    rw [F32.mag_le_mag_iff]
    simp only [BitVec.toNat_ofNat]
    omega
  rw [F32.mag_maxFinite] at hmax
  calc n * 2 ^ 149 ≤ F32.mag w * 2 ^ k := h
    _ ≤ (2 ^ 24 - 1) * 2 ^ 253 * 2 ^ k := Nat.mul_le_mul_right _ hmax
    _ = (2 ^ 25 - 2) * 2 ^ (252 + k) := by
        rw [Nat.pow_add, ← Nat.mul_assoc, show (2 ^ 24 - 1) * 2 ^ 253 = (2 ^ 25 - 2) * 2 ^ 252 by decide]
    _ < (2 ^ 25 - 1) * 2 ^ (252 + k) := Nat.mul_lt_mul_of_pos_right (by decide) (by positivity)

/-- The rounding of n / 2^k as a nearest magnitude. -/
theorem F32.mag_pack_roundMag_nearest {n k : Nat} {neg : Bool} (h : n * 2 ^ 149 < (2 ^ 25 - 1) * 2 ^ (252 + k)) (w : Word) :
    ((F32.mag (F32.pack neg (F32.roundMag n k)) * 2 ^ k : Nat) - ((n * 2 ^ 149 : Nat) : Int)).natAbs ≤
      ((F32.mag w * 2 ^ k : Nat) - ((n * 2 ^ 149 : Nat) : Int)).natAbs := by
  obtain ⟨u, q, hr, -, hmag, -⟩ := F32.pack_roundMag_finite ((F32.isFinite_pack_roundMag n k neg).2 h)
  rw [hmag]
  exact (hr.nearest w).1

/-- Rounding passes no representable value above. -/
theorem F32.mag_pack_roundMag_le {n k : Nat} (neg : Bool) {w : Word} (hw : w.toNat % 2 ^ 31 < 0x7F800000)
    (h : n * 2 ^ 149 ≤ F32.mag w * 2 ^ k) : F32.mag (F32.pack neg (F32.roundMag n k)) ≤ F32.mag w := by
  have hnear := F32.mag_pack_roundMag_nearest (neg := neg) (F32.lt_threshold hw h) w
  refine Nat.le_of_mul_le_mul_right ?_ (by positivity : 0 < 2 ^ k)
  omega

/-- Rounding passes no representable value below. -/
theorem F32.le_mag_pack_roundMag {n k : Nat} (neg : Bool) {w : Word}
    (hfin : n * 2 ^ 149 < (2 ^ 25 - 1) * 2 ^ (252 + k)) (h : F32.mag w * 2 ^ k ≤ n * 2 ^ 149) :
    F32.mag w ≤ F32.mag (F32.pack neg (F32.roundMag n k)) := by
  have hnear := F32.mag_pack_roundMag_nearest (neg := neg) hfin w
  refine Nat.le_of_mul_le_mul_right ?_ (by positivity : 0 < 2 ^ k)
  omega

/-- A value between those of two finite words rounds to a word between them. -/
theorem F32.roundMag_between {n k : Nat} {v w : Word} (hv : v.toNat < 0x7F800000) (hw : w.toNat < 0x7F800000)
    (hlow : F32.mag v * 2 ^ k ≤ n * 2 ^ 149) (hhigh : n * 2 ^ 149 ≤ F32.mag w * 2 ^ k) :
    v.toNat ≤ (F32.pack false (F32.roundMag n k)).toNat ∧ (F32.pack false (F32.roundMag n k)).toNat ≤ w.toNat := by
  have hw' : w.toNat % 2 ^ 31 < 0x7F800000 := (low31_of_lt hw).trans_lt hw
  have hle := F32.le_mag_pack_roundMag false (F32.lt_threshold hw' hhigh) hlow
  have hge := F32.mag_pack_roundMag_le false hw' hhigh
  have hround := F32.roundMag_le n k
  have hpack : (F32.pack false (F32.roundMag n k)).toNat = F32.roundMag n k := by
    rw [F32.pack_toNat false (by omega), if_neg Bool.false_ne_true]
  rw [F32.mag_le_mag_iff, hpack, low31_of_lt hv, Nat.mod_eq_of_lt (show F32.roundMag n k < 2 ^ 31 by omega)] at hle
  rw [F32.mag_le_mag_iff, hpack, low31_of_lt hw, Nat.mod_eq_of_lt (show F32.roundMag n k < 2 ^ 31 by omega)] at hge
  rw [hpack]
  exact ⟨hle, hge⟩

/-! ### The range of PITCH_EXP2 (R36) -/

theorem le_expSeries (x terms n : Nat) : 2 ^ 128 ≤ expSeries x terms n := by
  cases terms with
  | zero => exact le_rfl
  | succ terms => exact Nat.le_add_right _ _

theorem expSeries_zero (terms n : Nat) : expSeries 0 terms n = 2 ^ 128 := by
  cases terms with
  | zero => rfl
  | succ terms => simp [expSeries]

/-- The fixed-point power of two of a fraction f / unit, as `pitchExp2Standard` computes it. -/
def fixExp2 (f : Nat) : Nat := min (expSeries (f * fixLn2 / (12 * 2 ^ 149)) 48 1) (2 ^ 129)

theorem pitchExp2Standard_eq (s : Word) :
    pitchExp2Standard s = F32.pack false (F32.roundMag (fixExp2 (F32.scaled s % (12 * 2 ^ 149)).toNat)
      (128 - F32.scaled s / (12 * 2 ^ 149)).toNat) := rfl

theorem fixExp2_bounds (f : Nat) : 2 ^ 128 ≤ fixExp2 f ∧ fixExp2 f ≤ 2 ^ 129 :=
  ⟨le_min (le_expSeries _ _ _) (by decide), min_le_right _ _⟩

theorem fixExp2_zero : fixExp2 0 = 2 ^ 128 := by
  rw [fixExp2, Nat.zero_mul, Nat.zero_div, expSeries_zero]
  decide

/-- A legal semitone value is at most two octaves either way: two up exactly, or its fraction is on top of at most one. -/
theorem octaves_of_legalSemitones {s : Word} (h : legalSemitones s = true) :
    -2 ≤ F32.scaled s / (12 * 2 ^ 149) ∧ (F32.scaled s / (12 * 2 ^ 149) ≤ 1 ∨
      F32.scaled s / (12 * 2 ^ 149) = 2 ∧ (F32.scaled s % (12 * 2 ^ 149)).toNat = 0) := by
  have hmag := (F32.within_neg_iff (n := 24)).1 h
  have habs := F32.scaled_natAbs s
  omega

theorem F32.mag_four : F32.mag 0x40800000#32 = 2 ^ 151 := by decide

/-- Before its rounding the default PITCH_EXP2 is at most 4.0: the fraction adds at most one octave. -/
theorem fixExp2_le_four {whole : Int} {f : Nat} (h : whole ≤ 1 ∨ whole = 2 ∧ f = 0) :
    fixExp2 f * 2 ^ 149 ≤ F32.mag 0x40800000#32 * 2 ^ (128 - whole).toNat := by
  rw [F32.mag_four]
  rcases h with hone | ⟨rfl, rfl⟩
  · calc fixExp2 f * 2 ^ 149 ≤ 2 ^ 129 * 2 ^ 149 := Nat.mul_le_mul_right _ (fixExp2_bounds f).2
      _ = 2 ^ 151 * 2 ^ 127 := by decide
      _ ≤ 2 ^ 151 * 2 ^ (128 - whole).toNat := Nat.mul_le_mul_left _ (Nat.pow_le_pow_right (by decide) (by omega))
  · rw [fixExp2_zero]
    decide

theorem pitchExp2Standard_legal {s : Word} (h : legalSemitones s = true) : legalRatio (pitchExp2Standard s) := by
  obtain ⟨hlow, hhigh⟩ := octaves_of_legalSemitones h
  rw [pitchExp2Standard_eq]
  have hfour := fixExp2_le_four hhigh
  generalize F32.scaled s / (12 * 2 ^ 149) = whole at hlow hfour ⊢
  generalize (F32.scaled s % (12 * 2 ^ 149)).toNat = f at hfour ⊢
  refine F32.roundMag_between (v := 0x3E800000#32) (w := 0x40800000#32) (by decide) (by decide) ?_ hfour
  calc F32.mag 0x3E800000#32 * 2 ^ (128 - whole).toNat
      ≤ 2 ^ 147 * 2 ^ 130 := by
        rw [show F32.mag 0x3E800000#32 = 2 ^ 147 by decide]
        exact Nat.mul_le_mul_left _ (Nat.pow_le_pow_right (by decide) (by omega))
    _ = 2 ^ 128 * 2 ^ 149 := by decide
    _ ≤ fixExp2 f * 2 ^ 149 := Nat.mul_le_mul_right _ (fixExp2_bounds f).1

theorem pitchExp2Custom_legal (s : Word) : legalRatio (pitchExp2Custom s) := by
  unfold pitchExp2Custom
  dsimp only
  split
  · decide
  split
  · decide
  · exact ⟨by omega, by omega⟩

/-- PITCH_EXP2 of a legal value keeps PITCH_RATIO legal, whatever the parameter. -/
theorem pitchExp2_legal (p : Params) {s : Word} (h : legalSemitones s = true) : legalRatio (pitchExp2 p s) := by
  unfold pitchExp2
  split
  · exact pitchExp2Standard_legal h
  · exact pitchExp2Custom_legal s

/-- Settles O26: rounding passes neither 0.25 nor 4.0, which are representable; a custom ratio is clamped. -/
theorem pitchRatioStaysLegal : Obligations.PitchRatioStaysLegal := fun p _ h => pitchExp2_legal p h

/-! ### RESAMPLE and its domain (R200 to R205) -/

/-- The domain of RESAMPLE in words: 1 to 4096 samples, a finite positive ratio, at most 16384 outputs. -/
theorem resampleDomain_iff {n : Nat} {r : Word} : resampleDomain n r = true ↔
    n ≠ 0 ∧ n ≤ 4096 ∧ 0 < r.toNat ∧ r.toNat < 0x7F800000 ∧ n * 2 ^ 149 < 16385 * F32.mag r := by
  have hlow := F32.low31 r
  have hexp := F32.expField_lt r
  have hfrac := F32.fracField_lt r
  have hsign : F32.sign r = false ↔ r.toNat < 2 ^ 31 := by simp [F32.sign]
  have hfin : F32.isFinite r = true ↔ F32.expField r ≠ 255 := by simp [F32.isFinite]
  have hpos : F32.mag r ≠ 0 ↔ 0 < r.toNat % 2 ^ 31 := by
    rw [← not_iff_not, not_not, ← Nat.le_zero, not_lt, ← F32.mag_zero, F32.mag_le_mag_iff]
    rfl
  have hout : F32.mag r ≠ 0 → (outLen n r ≤ Config.lmax ↔ n * 2 ^ 149 < 16385 * F32.mag r) := fun hne => by
    rw [outLen, ← Nat.lt_succ_iff, Nat.div_lt_iff_lt_mul (Nat.pos_of_ne_zero hne)]
    rfl
  simp only [resampleDomain, Bool.and_eq_true, decide_eq_true_eq, Bool.not_eq_true', and_assoc, hsign, hfin, hpos]
  constructor
  · rintro ⟨h1, h2, h3, h4, h5, h6⟩
    exact ⟨h1, h2, by omega, by omega, (hout (hpos.2 h5)).1 h6⟩
  · rintro ⟨h1, h2, h3, h4, h5⟩
    have h6 : 0 < r.toNat % 2 ^ 31 := by omega
    exact ⟨h1, h2, by omega, by omega, h6, (hout (hpos.2 h6)).2 h5⟩

/-- OUTLEN is the floor of the exact quotient (R201). -/
theorem outLen_floor (n : Nat) {r : Word} (h : F32.mag r ≠ 0) :
    outLen n r * F32.mag r ≤ n * 2 ^ 149 ∧ n * 2 ^ 149 < (outLen n r + 1) * F32.mag r :=
  ⟨Nat.div_mul_le_self _ _, by rw [Nat.mul_comm (outLen n r + 1)]; exact Nat.lt_mul_div_succ _ (Nat.pos_of_ne_zero h)⟩

theorem exec_resample_of_ok {r : Word} {x y : List Word} {s : State} (h : resampleGrain s.params x r = .ok y) :
    exec (.resample r x) s = .next { s with resp := .resampled (BitVec.ofNat 15 y.length) y } := by
  simp only [exec, execResample, h]

/-- Settles O28: in its domain the grain is the list of its samples, each by the rule of its NUMERICS. -/
theorem resampleReturnsItsSamples : Obligations.ResampleReturnsItsSamples := by
  intro r x s hpos hmax hr hr' hout
  have hmag : F32.mag r ≠ 0 := fun h0 => by rw [h0] at hout; omega
  obtain ⟨hle, hlt⟩ := outLen_floor x.length hmag
  have hok := resampleGrain_eq_ok (p := s.params).2 ⟨resampleDomain_iff.2 ⟨by omega, hmax, hr, hr', hout⟩, rfl⟩
  refine ⟨_, exec_resample_of_ok hok, ?_, ?_, fun i hi => ?_⟩
  · rwa [List.length_map, List.length_range]
  · rwa [List.length_map, List.length_range]
  · simp only [List.getElem_map, List.getElem_range]
    refine ⟨trivial, fun hnum => ⟨_, _, _, rfl, rfl, rfl, ?_⟩⟩
    simp only [resampledSample, hnum]
    rfl

/-- Settles O29: each clause denies one conjunct of the domain. -/
theorem resampleOutsideItsDomainFaults : Obligations.ResampleOutsideItsDomainFaults := by
  intro r x s h
  have hdomain : resampleDomain x.length r = false := by
    rw [← Bool.not_eq_true, resampleDomain_iff]
    omega
  have hfault := resampleGrain_eq_error (p := s.params).2 ⟨hdomain, rfl⟩
  simp only [exec, execResample, hfault]

end Sys2Proof.Machine

/-! PROOFS. What a grain cycle needs and leaves (R230 to R238): when each step completes, the counters after it, and all that no grain
cycle changes. -/

namespace Sys2Proof.Machine

/-! ### The registers a sound state bounds -/

/-- A legal ratio in units of 2^-149: from 0.25 to 4.0. -/
theorem legalRatio_mag {w : Word} (h : legalRatio w) : 2 ^ 147 ≤ F32.mag w ∧ F32.mag w ≤ 2 ^ 151 := by
  obtain ⟨hlow, hhigh⟩ := h
  have hquarter : F32.mag 0x3E800000#32 = 2 ^ 147 := by decide
  have hfour : F32.mag 0x40800000#32 = 2 ^ 151 := by decide
  rw [← hquarter, ← hfour, F32.mag_le_mag_iff, F32.mag_le_mag_iff, Nat.mod_eq_of_lt (show w.toNat < 2 ^ 31 by omega)]
  exact ⟨hlow, hhigh⟩

/-- A grain of a legal size at a legal ratio is in the domain of RESAMPLE, and comes out at most four grains long. -/
theorem resample_legal {n : Nat} {r : Word} (hn : legalGrainSize n = true) (hr : legalRatio r) :
    resampleDomain n r = true ∧ 1 ≤ outLen n r ∧ outLen n r ≤ 4 * n := by
  have hcases := legalGrainSize_cases hn
  obtain ⟨hmag, hmag'⟩ := legalRatio_mag hr
  obtain ⟨hlow, hhigh⟩ := hr
  have hpos : 0 < F32.mag r := lt_of_lt_of_le (by positivity) hmag
  refine ⟨resampleDomain_iff.2 ⟨by omega, by omega, by omega, by omega, by omega⟩, ?_, ?_⟩
  · rw [outLen, Nat.le_div_iff_mul_le hpos]
    omega
  · rw [outLen, ← Nat.lt_succ_iff, Nat.div_lt_iff_lt_mul hpos]
    calc n * 2 ^ 149 < (4 * n + 1) * 2 ^ 147 := by omega
      _ ≤ (4 * n + 1) * F32.mag r := Nat.mul_le_mul_left _ hmag

/-- What a sound state says about its registers. -/
structure State.Registers (s : State) : Prop where
  blockSize : legalBlockSize s.params.blockSize = true
  grainSize : legalGrainSize s.grainSize.toNat = true
  hop : s.hopSize.toNat * 4 = s.grainSize.toNat
  ratio : legalRatio s.pitchRatio

theorem State.Sound.registers {s : State} (h : s.Sound) : s.Registers := by
  obtain ⟨hp, -, -, hg, hh, hr, -⟩ := h
  obtain ⟨⟨⟨hb, -⟩, -⟩, -⟩ := Params.legal_iff.1 hp
  exact ⟨hb, hg, hh, hr⟩

theorem State.Sound.ibuf {s : State} (h : s.Sound) : s.ibuf.Sound := by
  obtain ⟨-, hi, -⟩ := h
  exact hi

theorem State.Sound.obuf {s : State} (h : s.Sound) : s.obuf.Sound := by
  obtain ⟨-, -, ho, -⟩ := h
  exact ho

/-! ### What no grain cycle changes -/

/-- What the steps of grain cycles keep; PRIMED can only be set. -/
structure State.GrainKept (s t : State) : Prop where
  params : t.params = s.params
  seq : t.seq = s.seq
  fault : t.fault = s.fault
  grainSize : t.grainSize = s.grainSize
  hopSize : t.hopSize = s.hopSize
  pitchRatio : t.pitchRatio = s.pitchRatio
  icap : t.ibuf.cap = s.ibuf.cap
  ocap : t.obuf.cap = s.obuf.cap
  ord : t.obuf.rd = s.obuf.rd
  pendPitchV : t.pendPitchV = s.pendPitchV
  pendGsV : t.pendGsV = s.pendGsV
  pendRst : t.pendRst = s.pendRst
  primed : s.primed = true → t.primed = true

theorem State.GrainKept.refl (s : State) : s.GrainKept s :=
  ⟨rfl, rfl, rfl, rfl, rfl, rfl, rfl, rfl, rfl, rfl, rfl, rfl, id⟩

theorem State.GrainKept.trans {s t u : State} (h : s.GrainKept t) (h' : t.GrainKept u) : s.GrainKept u where
  params := h'.params.trans h.params
  seq := h'.seq.trans h.seq
  fault := h'.fault.trans h.fault
  grainSize := h'.grainSize.trans h.grainSize
  hopSize := h'.hopSize.trans h.hopSize
  pitchRatio := h'.pitchRatio.trans h.pitchRatio
  icap := h'.icap.trans h.icap
  ocap := h'.ocap.trans h.ocap
  ord := h'.ord.trans h.ord
  pendPitchV := h'.pendPitchV.trans h.pendPitchV
  pendGsV := h'.pendGsV.trans h.pendGsV
  pendRst := h'.pendRst.trans h.pendRst
  primed := h'.primed ∘ h.primed

theorem Buf.advRd_cap {b b' : Buf} {n : Nat} (h : b.advRd n = .ok b') : b'.cap = b.cap := by
  obtain ⟨-, rfl⟩ := Buf.advRd_eq_ok.1 h
  rfl

theorem Buf.advWr_kept {b b' : Buf} {n : Nat} (h : b.advWr n = .ok b') : b'.cap = b.cap ∧ b'.rd = b.rd := by
  obtain ⟨-, rfl⟩ := Buf.advWr_eq_ok.1 h
  exact ⟨rfl, rfl⟩

theorem Buf.accum_kept {p : Params} {b b' : Buf} {off : Nat} {v : List Word} (h : b.accum p off v = .ok b') :
    b'.cap = b.cap ∧ b'.rd = b.rd ∧ b'.wr = b.wr ∧ b'.cnt = b.cnt := by
  obtain ⟨-, rfl⟩ := Buf.accum_eq_ok.1 h
  exact Buf.accumCells_regs _ _ _ _

theorem GrainSteps.kept {s t : State} (h : GrainSteps s t) : s.GrainKept t := by
  obtain ⟨hcap, hrd, -, -⟩ := Buf.accum_kept h.accum
  obtain ⟨hcap', hrd'⟩ := Buf.advWr_kept h.advWr
  rw [h.result]
  exact ⟨rfl, rfl, rfl, rfl, rfl, rfl, Buf.advRd_cap h.advRd, hcap'.trans hcap, hrd'.trans hrd, rfl, rfl, rfl,
    fun hp => by simp [hp]⟩

theorem GrainStop.kept {s u : State} (h : GrainStop s u) : s.GrainKept u := by
  rcases h with rfl | ⟨ib, hib, rfl | ⟨g, y, -, -, rfl | ⟨sv, ob, hob, rfl⟩⟩⟩
  · exact .refl u
  · exact { State.GrainKept.refl s with icap := Buf.advRd_cap hib }
  · exact { State.GrainKept.refl s with icap := Buf.advRd_cap hib }
  · obtain ⟨hcap, hrd, -, -⟩ := Buf.accum_kept hob
    exact { State.GrainKept.refl s with icap := Buf.advRd_cap hib, ocap := hcap, ord := hrd }

theorem State.grainCycle_kept {s t : State} (h : s.grainCycle = .ok t) : s.GrainKept t := by
  obtain ⟨hsteps⟩ := State.grainCycle_ok_steps h
  exact hsteps.kept

theorem State.grainCycle_error_kept {s t : State} (h : s.grainCycle = .error t) :
    ∃ u c, s.GrainKept u ∧ t = u.raise c := by
  obtain ⟨u, c, rfl, hstop⟩ := State.grainCycle_error_stop h
  exact ⟨u, c, hstop.kept, rfl⟩

theorem State.grainLoop_kept {fuel : Nat} {s t : State} (h : State.grainLoop fuel s = .ok t) : s.GrainKept t :=
  State.grainLoop_induction (P := fun u => s.GrainKept u) (fun _ _ hs hc => hs.trans (State.grainCycle_kept hc)) (.refl s) h

theorem State.grainLoop_error_kept {fuel : Nat} {s t : State} (h : State.grainLoop fuel s = .error t) :
    ∃ u c, s.GrainKept u ∧ t = u.raise c := by
  obtain ⟨u, hu, -, herr⟩ := State.grainLoop_error (P := fun u => s.GrainKept u)
    (fun _ _ hs hc => hs.trans (State.grainCycle_kept hc)) (.refl s) h
  obtain ⟨v, c, hv, rfl⟩ := State.grainCycle_error_kept herr
  exact ⟨v, c, hu.trans hv, rfl⟩

/-! ### When a grain cycle completes -/

/-- The steps determine the cycle. -/
theorem GrainSteps.grainCycle_eq {s t : State} (h : GrainSteps s t) : s.grainCycle = .ok t := by
  have hsynth : ∀ u : State, u.params = s.params → u.grainSynthesis h.y = .ok h.sv := fun u hu => by
    rw [h.synth, ← hu]
    exact u.grainSynthesis_of_short (resampleGrain_length h.resample).2
  rw [h.result]
  simp [State.grainCycle, h.extract, State.grainAdvanceRead, h.advRd, State.grainResample, h.resample, hsynth,
    State.grainOverlapAdd, h.accum, State.grainAdvanceWrite, h.advWr, bind, Except.bind, pure, Except.pure,
    State.primeCheck]

theorem grainExtract_length {s : State} {g : List Word} (h : s.grainExtract = .ok g) : g.length = s.grainSize.toNat := by
  obtain ⟨-, -, rfl⟩ := State.grainExtract_eq_ok.1 h
  simp

theorem GrainSteps.length_sv {s t : State} (h : GrainSteps s t) :
    h.y.length = outLen s.grainSize.toNat s.pitchRatio ∧ h.sv.length = h.y.length := by
  have hlen := (resampleGrain_length h.resample).1
  rw [grainExtract_length h.extract] at hlen
  refine ⟨hlen, ?_⟩
  rw [h.synth]
  simp

/-- With a grain of input, and room for the longest resampled grain, a cycle of a sound state completes (R347). -/
theorem State.grainCycle_completes {s : State} (hs : s.Sound) (hin : s.grainSize.toNat ≤ s.ibuf.cnt.toNat)
    (hroom : s.obuf.cnt.toNat + 4 * s.grainSize.toNat ≤ s.obuf.cap.toNat) :
    ∃ t, s.grainCycle = .ok t ∧ Nonempty (GrainSteps s t) := by
  have hreg := hs.registers
  have hhop := hreg.hop
  obtain ⟨hdomain, -, hlen⟩ := resample_legal hreg.grainSize hreg.ratio
  have hsize : s.grainSize.toNat ≤ Config.lmax := by
    have := s.grainSize.isLt
    rw [Config.lmax]
    omega
  obtain ⟨g, hg⟩ : ∃ g, s.grainExtract = .ok g := ⟨_, State.grainExtract_eq_ok.2 ⟨hsize, hin, rfl⟩⟩
  obtain ⟨ib, hib⟩ : ∃ ib, s.ibuf.advRd s.hopSize.toNat = .ok ib := ⟨_, Buf.advRd_eq_ok.2 ⟨by omega, rfl⟩⟩
  have hglen := grainExtract_length hg
  obtain ⟨y, hy⟩ : ∃ y, resampleGrain s.params g s.pitchRatio = .ok y :=
    ⟨_, resampleGrain_eq_ok.2 ⟨hglen.symm ▸ hdomain, rfl⟩⟩
  have hylen := (resampleGrain_length hy).1
  rw [hglen] at hylen
  obtain ⟨sv, hsv⟩ : ∃ sv, sv = List.zipWith (fun yi c => synthesize s.params yi c Word.half) y
      ((List.range y.length).map (hannRom s.params y.length)) := ⟨_, rfl⟩
  have hsvlen : sv.length = y.length := by simp [hsv]
  obtain ⟨ob1, hob1⟩ : ∃ ob1, s.obuf.accum s.params 0 sv = .ok ob1 := ⟨_, Buf.accum_eq_ok.2 ⟨by omega, rfl⟩⟩
  obtain ⟨hcap, -, -, hcnt⟩ := Buf.accum_kept hob1
  obtain ⟨ob2, hob2⟩ : ∃ ob2, ob1.advWr s.hopSize.toNat = .ok ob2 :=
    ⟨_, Buf.advWr_eq_ok.2 ⟨by rw [hcap, hcnt]; omega, rfl⟩⟩
  have hsteps : GrainSteps s _ := ⟨g, y, sv, ib, ob1, ob2, hg, hib, hy, hsv, hob1, hob2, rfl⟩
  exact ⟨_, hsteps.grainCycle_eq, ⟨hsteps⟩⟩

/-! ### The counters after a grain cycle (R232, R236, R237) -/

theorem Buf.advRd_cnt {b b' : Buf} {n : Nat} (h : b.advRd n = .ok b') : b'.cnt.toNat + n = b.cnt.toNat := by
  obtain ⟨hle, rfl⟩ := Buf.advRd_eq_ok.1 h
  have hlt := b.cnt.isLt
  simp only [BitVec.toNat_ofNat]
  omega

theorem Buf.advWr_cnt {b b' : Buf} {n : Nat} (h : b.advWr n = .ok b') : b'.cnt.toNat = b.cnt.toNat + n := by
  obtain ⟨hle, rfl⟩ := Buf.advWr_eq_ok.1 h
  exact Buf.count_toNat hle

section Counters

variable {s t : State} (h : GrainSteps s t)

include h

theorem GrainSteps.icnt : t.ibuf.cnt.toNat + s.hopSize.toNat = s.ibuf.cnt.toNat := by
  rw [h.result]
  exact Buf.advRd_cnt h.advRd

theorem GrainSteps.ocnt : t.obuf.cnt.toNat = s.obuf.cnt.toNat + s.hopSize.toNat := by
  obtain ⟨-, -, -, hcnt⟩ := Buf.accum_kept h.accum
  rw [h.result]
  exact (Buf.advWr_cnt h.advWr).trans (by rw [hcnt])

theorem GrainSteps.primed_eq : t.primed = (s.primed || decide (s.grainSize.toNat ≤ t.obuf.cnt.toNat)) := by
  rw [h.result]

end Counters

/-- Settles O33: the LOOKUPs of the window do not fault, so PEEK_WIN's underrun is the first (R312). -/
theorem grainCycleWithoutInputUnderruns : Obligations.GrainCycleWithoutInputUnderruns := by
  intro s hfew
  have hextract : s.grainExtract = .error (s.raise .bufUnderrun) := by
    cases he : s.grainExtract with
    | ok g =>
      obtain ⟨-, hin, -⟩ := State.grainExtract_eq_ok.1 he
      omega
    | error t => rw [(State.grainExtract_eq_error he).2]
  simp only [exec, execGrainCycle, State.grainCycle, hextract, bind, Except.bind]

end Sys2Proof.Machine

/-! PROOFS. What a completed grain cycle leaves, cell by cell and register by register (R231 to R238). -/

namespace Sys2Proof.Machine

/-- A buffer of which the capacity and the read side are those of another. -/
theorem Buf.eq_with_write_side {b b' : Buf} (hcap : b'.cap = b.cap) (hrd : b'.rd = b.rd) :
    b' = { b with wr := b'.wr, cnt := b'.cnt, data := b'.data } := by
  cases b
  cases b'
  simp_all

section Steps

variable {s t : State} (h : GrainSteps s t)

include h

/-- The extracted grain is the windowed grain of the statement. -/
theorem GrainSteps.g_eq : h.g = s.windowedGrain := by
  obtain ⟨-, -, hg⟩ := State.grainExtract_eq_ok.1 h.extract
  rw [hg]
  refine List.ext_getElem (by simp [State.windowedGrain]) fun j hj hj' => ?_
  simp only [State.windowedGrain, List.getElem_zipWith, List.getElem_map, List.getElem_range, Buf.readCells_getElem]

/-- Synthesis sample i is the resampled sample, its coefficient and the gain multiplied. -/
theorem GrainSteps.sv_getElem (i : Nat) (hi : i < h.sv.length) :
    h.sv[i] = s.synthesisSample (outLen s.grainSize.toNat s.pitchRatio) i := by
  obtain ⟨-, hy⟩ := resampleGrain_eq_ok.1 h.resample
  obtain ⟨hylen, -⟩ := h.length_sv
  have hyi : ∀ hi', h.y[i]'hi' = resampledSample s.params s.windowedGrain s.pitchRatio i := fun hi' => by
    simp only [hy, h.g_eq, List.getElem_map, List.getElem_range]
  simp only [h.synth, List.getElem_zipWith, List.getElem_map, List.getElem_range, hyi, State.synthesisSample, hylen,
    State.normGain_eq]

theorem GrainSteps.ibuf : t.ibuf = h.ib := congrArg State.ibuf h.result

theorem GrainSteps.obuf : t.obuf = h.ob2 := congrArg State.obuf h.result

theorem GrainSteps.ibuf_frame : t.ibuf = { s.ibuf with rd := t.ibuf.rd, cnt := t.ibuf.cnt } := by
  obtain ⟨-, hib⟩ := Buf.advRd_eq_ok.1 h.advRd
  rw [h.ibuf, hib]

theorem GrainSteps.obuf_frame : t.obuf = { s.obuf with wr := t.obuf.wr, cnt := t.obuf.cnt, data := t.obuf.data } :=
  Buf.eq_with_write_side h.kept.ocap h.kept.ord

theorem GrainSteps.ird (hs : s.Sound) :
    t.ibuf.rd.toNat = (s.ibuf.rd.toNat + s.hopSize.toNat) % s.ibuf.cap.toNat := by
  obtain ⟨-, hib⟩ := Buf.advRd_eq_ok.1 h.advRd
  rw [h.ibuf, hib]
  exact hs.ibuf.cellsOk.advance_toNat _ _

theorem GrainSteps.owr (hs : s.Sound) :
    t.obuf.wr.toNat = (s.obuf.wr.toNat + s.hopSize.toNat) % s.obuf.cap.toNat := by
  obtain ⟨hcap, -, hwr, -⟩ := Buf.accum_kept h.accum
  obtain ⟨-, hob⟩ := Buf.advWr_eq_ok.1 h.advWr
  rw [h.obuf, hob, ← hcap, ← hwr]
  exact (Buf.accum_sound hs.obuf h.accum).cellsOk.advance_toNat _ _

/-- ADV_WR leaves the cells that ACCUM filled. -/
theorem GrainSteps.odata : t.obuf.data = h.ob1.data := by
  obtain ⟨-, hob⟩ := Buf.advWr_eq_ok.1 h.advWr
  rw [h.obuf, hob]

/-- The whole next state of the cycle's transaction. -/
theorem GrainSteps.done_frame :
    { t with resp := .done } = { s with
      ibuf := { s.ibuf with rd := t.ibuf.rd, cnt := t.ibuf.cnt },
      obuf := { s.obuf with wr := t.obuf.wr, cnt := t.obuf.cnt, data := t.obuf.data },
      synthLen := BitVec.ofNat 15 (outLen s.grainSize.toNat s.pitchRatio),
      primed := s.primed || decide (s.grainSize.toNat ≤ s.obuf.cnt.toNat + s.hopSize.toNat),
      resp := .done } := by
  obtain ⟨hylen, -⟩ := h.length_sv
  refine (congrArg (fun u : State => { u with resp := .done }) h.result).trans ?_
  rw [← h.ibuf_frame, ← h.obuf_frame, ← h.ocnt, ← hylen, h.ibuf, h.obuf]

/-- The cells of OBUF: each synthesis sample added to its own, the others as they were. -/
theorem GrainSteps.obuf_cells (hs : s.Sound) :
    (∀ i < outLen s.grainSize.toNat s.pitchRatio,
      Memory.read t.obuf.data ((s.obuf.wr.toNat + i) % s.obuf.cap.toNat) =
        accumulate s.params (Memory.read s.obuf.data ((s.obuf.wr.toNat + i) % s.obuf.cap.toNat))
          (s.synthesisSample (outLen s.grainSize.toNat s.pitchRatio) i)) ∧
    (∀ c, (∀ i < outLen s.grainSize.toNat s.pitchRatio, c ≠ (s.obuf.wr.toNat + i) % s.obuf.cap.toNat) →
      Memory.read t.obuf.data c = Memory.read s.obuf.data c) := by
  obtain ⟨hylen, hsvlen⟩ := h.length_sv
  obtain ⟨hroom, -⟩ := Buf.accum_eq_ok.1 h.accum
  obtain ⟨b, hb, -, hin, hout⟩ := Buf.accum_cells (p := s.params) hs.obuf.cellsOk hroom
  obtain rfl : h.ob1 = b := Except.ok.inj (h.accum.symm.trans hb)
  rw [h.odata]
  rw [hsvlen, hylen] at hout
  refine ⟨fun i hi => ?_, hout⟩
  have hread := hin i (by omega)
  rwa [h.sv_getElem] at hread

end Steps

theorem exec_grainCycle_of_ok {s t : State} (h : s.grainCycle = .ok t) :
    exec .grainCycle s = .next { t with resp := .done } := by
  simp only [exec, execGrainCycle, h]

/-- Settles O31: a cycle with input and room completes, and its steps say what it leaves. -/
theorem grainCycleCompletes : Obligations.GrainCycleCompletes := by
  intro s hs hin hroom
  obtain ⟨t, ht, ⟨h⟩⟩ := State.grainCycle_completes hs hin hroom
  have hreg := hs.registers
  have hmag : F32.mag s.pitchRatio ≠ 0 := by
    obtain ⟨hlow, -⟩ := legalRatio_mag hreg.ratio
    omega
  obtain ⟨hle, hlt⟩ := outLen_floor s.grainSize.toNat hmag
  obtain ⟨hcells, hothers⟩ := h.obuf_cells hs
  obtain ⟨hylen, -⟩ := h.length_sv
  exact ⟨{ t with resp := .done }, outLen s.grainSize.toNat s.pitchRatio, exec_grainCycle_of_ok ht, hle, hlt, h.done_frame,
    h.ird hs, Nat.eq_sub_of_add_eq h.icnt, h.owr hs, h.ocnt, hcells, hothers⟩

end Sys2Proof.Machine

/-! PROOFS. The invariant every step keeps (R31 to R45, R42): operation by operation, and by induction along the grain loop. -/

namespace Sys2Proof.Machine

/-! ### Updates that keep a state sound -/

/-- A synthesis length the register can hold (R39). -/
abbrev LegalSynthLen (n : BitVec 15) : Prop := 1 ≤ n.toNat ∧ n.toNat ≤ Config.lmax

theorem State.Sound.synthLen {s : State} (h : s.Sound) : LegalSynthLen s.synthLen := by
  obtain ⟨-, -, -, -, -, -, hpos, hmax, -⟩ := h
  exact ⟨hpos, hmax⟩

/-- A step of a composite transaction leaves a state with the property, `view` giving the state it completes in. -/
def State.Leaves {α : Type} (P : State → Prop) (view : α → State) : Except State α → Prop
  | .ok a => P (view a)
  | .error t => P t

theorem FaultCode.bits_le (c : FaultCode) : c.bits.toNat ≤ 5 := by cases c <;> decide

section Updates

variable {s : State} (h : s.Sound)

include h

/-- Soundness is a matter of each register alone: new sound buffers, a legal synthesis length, and any PRIMED, response and inbox. -/
theorem State.Sound.update {ib ob : Buf} (hi : ib.Sound) (ho : ob.Sound) {n : BitVec 15} (hn : LegalSynthLen n) (primed : Bool)
    (resp : Response) (inbox : List Event) :
    { s with ibuf := ib, obuf := ob, synthLen := n, primed := primed, resp := resp, inbox := inbox }.Sound := by
  obtain ⟨hp, -, -, hg, hh, hr, -, -, hf, hc, hpp, hpg⟩ := h
  obtain ⟨hpos, hmax⟩ := hn
  exact ⟨hp, hi, ho, hg, hh, hr, hpos, hmax, hf, hc, hpp, hpg⟩

theorem State.Sound.accept (rest : List Event) : (s.accept rest).Sound := h.update h.ibuf h.obuf h.synthLen _ _ _

theorem State.Sound.respond (resp : Response) : { s with resp := resp }.Sound := h.update h.ibuf h.obuf h.synthLen _ _ _

theorem State.Sound.buf (i : BufId) : (s.buf i).Sound := by
  cases i
  · exact h.ibuf
  · exact h.obuf

theorem State.Sound.setBuf (i : BufId) {b : Buf} (hb : b.Sound) : (s.setBuf i b).Sound := by
  cases i
  · exact h.update hb h.obuf h.synthLen _ _ _
  · exact h.update h.ibuf hb h.synthLen _ _ _

theorem State.Sound.raise (c : FaultCode) : (s.raise c).Sound := by
  obtain ⟨hp, hi, ho, hg, hh, hr, hpos, hmax, -, hc, hpp, hpg⟩ := h
  refine ⟨hp, hi, ho, hg, hh, hr, hpos, hmax, iff_of_true rfl (s.raise_fault_ne c), ?_, hpp, hpg⟩
  rw [State.raise_fault]
  split
  · exact c.bits_le
  · exact hc

theorem State.Sound.postRatio {w : Word} (hw : legalRatio w) : { s with pendPitchV := true, pendRatio := w }.Sound := by
  obtain ⟨hp, hi, ho, hg, hh, hr, hpos, hmax, hf, hc, -, hpg⟩ := h
  exact ⟨hp, hi, ho, hg, hh, hr, hpos, hmax, hf, hc, fun _ => hw, hpg⟩

theorem State.Sound.postSize {g : BitVec 13} (hg' : legalGrainSize g.toNat = true) :
    { s with pendGsV := true, pendGs := g }.Sound := by
  obtain ⟨hp, hi, ho, hg, hh, hr, hpos, hmax, hf, hc, hpp, -⟩ := h
  exact ⟨hp, hi, ho, hg, hh, hr, hpos, hmax, hf, hc, hpp, fun _ => hg'⟩

theorem State.Sound.postReset : { s with pendRst := true }.Sound := by
  obtain ⟨hp, hi, ho, hg, hh, hr, hpos, hmax, hf, hc, hpp, hpg⟩ := h
  exact ⟨hp, hi, ho, hg, hh, hr, hpos, hmax, hf, hc, hpp, hpg⟩

/-! ### The mailbox's application -/

theorem State.Sound.reconfigured {g : BitVec 13} (hg' : legalGrainSize g.toNat = true) : (s.reconfigured g).Sound := by
  have hcases := legalGrainSize_cases hg'
  have hbuf := Buf.cleared_eightGrains_sound hg'
  have hhop := hop_toNat hg'
  have hsynth := synthLen_toNat g
  obtain ⟨hp, -, -, -, -, hr, -, -, hf, hc, hpp, hpg⟩ := h
  refine ⟨hp, hbuf, hbuf, hg', ?_, hr, ?_, ?_, hf, hc, hpp, hpg⟩
  · show (BitVec.ofNat 11 (g.toNat / 4)).toNat * 4 = g.toNat
    omega
  · show 1 ≤ (g.setWidth 15).toNat
    omega
  · show (g.setWidth 15).toNat ≤ 16384
    omega

theorem State.Sound.resetDone : s.resetDone.Sound := by
  obtain ⟨hicap, hidepth, -⟩ := h.ibuf
  obtain ⟨hocap, hodepth, -⟩ := h.obuf
  exact h.update (Buf.cleared_sound hicap hidepth) (Buf.cleared_sound hocap hodepth) h.synthLen _ _ _

theorem State.Sound.applyPitch : s.applyPitch.Sound := by
  obtain ⟨hp, hi, ho, hg, hh, hr, hpos, hmax, hf, hc, hpp, -⟩ := h
  refine ⟨hp, hi, ho, hg, hh, ?_, hpos, hmax, hf, hc, (fun h' => nomatch h'), (fun h' => nomatch h')⟩
  rw [State.applyPitch_pitchRatio]
  split
  next hv => exact hpp hv
  next => exact hr

theorem State.Sound.settled : s.settled.Sound := by
  obtain ⟨-, -, hgs⟩ := h.settles
  unfold State.settled
  split
  next hv => exact (h.reconfigured (hgs hv)).applyPitch
  next =>
    split
    · exact h.resetDone.applyPitch
    · exact h.applyPitch

theorem State.Sound.applyMailbox_eq : s.applyMailbox = .ok s.settled := h.settles.applyMailbox

/-! ### The grain cycle and its loop -/

theorem State.Sound.legalSynthLen_of_resample {g y : List Word} (hg : s.grainExtract = .ok g)
    (hy : resampleGrain s.params g s.pitchRatio = .ok y) : LegalSynthLen (BitVec.ofNat 15 y.length) := by
  have hreg := h.registers
  obtain ⟨-, hpos, -⟩ := resample_legal hreg.grainSize hreg.ratio
  obtain ⟨hlen, hmax⟩ := resampleGrain_length hy
  rw [grainExtract_length hg] at hlen
  have hfits : (BitVec.ofNat 15 y.length).toNat = y.length := by
    rw [BitVec.toNat_ofNat, Nat.mod_eq_of_lt (hmax.trans_lt (by decide))]
  rw [LegalSynthLen, hfits]
  exact ⟨by omega, hmax⟩

theorem State.Sound.grainCycle {t : State} (hc : s.grainCycle = .ok t) : t.Sound := by
  obtain ⟨hsteps⟩ := State.grainCycle_ok_steps hc
  rw [hsteps.result]
  exact h.update (Buf.advRd_sound h.ibuf hsteps.advRd) (Buf.advWr_sound (Buf.accum_sound h.obuf hsteps.accum) hsteps.advWr)
    (h.legalSynthLen_of_resample hsteps.extract hsteps.resample) _ _ _

theorem State.Sound.grainStop {u : State} (hu : GrainStop s u) : u.Sound := by
  rcases hu with rfl | ⟨ib, hib, rfl | ⟨g, y, hg, hy, rfl | ⟨sv, ob, hob, rfl⟩⟩⟩
  · exact h
  · exact h.update (Buf.advRd_sound h.ibuf hib) h.obuf h.synthLen _ _ _
  · exact h.update (Buf.advRd_sound h.ibuf hib) h.obuf (h.legalSynthLen_of_resample hg hy) _ _ _
  · exact h.update (Buf.advRd_sound h.ibuf hib) (Buf.accum_sound h.obuf hob) (h.legalSynthLen_of_resample hg hy) _ _ _

theorem State.Sound.grainCycle_error {t : State} (hc : s.grainCycle = .error t) : t.Sound := by
  obtain ⟨u, c, rfl, hu⟩ := State.grainCycle_error_stop hc
  exact (h.grainStop hu).raise c

theorem State.Sound.grainLoop {fuel : Nat} {t : State} (hl : State.grainLoop fuel s = .ok t) : t.Sound :=
  State.grainLoop_induction (P := State.Sound) (fun _ _ hs => hs.grainCycle) h hl

theorem State.Sound.grainLoop_error {fuel : Nat} {t : State} (hl : State.grainLoop fuel s = .error t) : t.Sound := by
  obtain ⟨u, hu, -, herr⟩ := State.grainLoop_error (P := State.Sound) (fun _ _ hs => hs.grainCycle) h hl
  exact hu.grainCycle_error herr

/-! ### PROCESS_BLOCK -/

theorem State.Sound.activeInput (ch0 : List Word) : State.Leaves State.Sound id (s.activeInput ch0) := by
  unfold State.activeInput
  cases hb : s.ibuf.write ch0 with
  | error c => exact h.raise c
  | ok b =>
    have hs : { s with ibuf := b }.Sound := h.update (Buf.write_sound h.ibuf hb) h.obuf h.synthLen _ _ _
    dsimp only [State.orRaise_ok]
    cases hl : State.grainLoop s.maxGrains { s with ibuf := b } with
    | ok t => exact hs.grainLoop hl
    | error t => exact hs.grainLoop_error hl

theorem State.Sound.activeOutput : State.Leaves State.Sound Prod.fst s.activeOutput := by
  rcases s.activeOutput_cases with ⟨-, b, o, hb, hout⟩ | ⟨-, hout⟩ | ⟨-, hout⟩ <;> rw [hout]
  · exact h.update h.ibuf (Buf.read_sound h.obuf hb) h.synthLen _ _ _
  · exact h.raise _
  · exact h

theorem State.Sound.processBlock (ch0 : List Word) : State.Leaves State.Sound Prod.fst (s.processBlock ch0) := by
  rw [State.processBlock_eq h.applyMailbox_eq]
  split
  · exact h.settled
  · have hin := h.settled.activeInput ch0
    generalize s.settled.activeInput ch0 = r at hin ⊢
    cases r with
    | error u => exact hin
    | ok u => exact State.Sound.activeOutput hin

/-! ### Every instruction -/

theorem State.Sound.finishBuf {t : State} {i : BufId} {r : Except FaultCode Buf} (hr : ∀ b, r = .ok b → b.Sound)
    (ht : s.finishBuf i r = .next t) : t.Sound := by
  rcases s.finishBuf_cases i r with ⟨b, hb, hnext⟩ | ⟨c, -, hnext⟩
  · rw [hnext] at ht; cases ht; exact h.setBuf i (hr b hb)
  · rw [hnext] at ht; cases ht; exact h.raise c

/-- Every instruction that answers a next state keeps it sound. -/
theorem State.Sound.exec {i : Instr} {t : State} (ht : exec i s = .next t) : t.Sound := by
  cases i with
  | nop payload => cases ht; exact h
  | setPitch payload =>
    by_cases hlegal : legalSemitones payload = true
    · rw [exec_setPitch_of_legal s hlegal] at ht; cases ht; exact h.postRatio (pitchExp2_legal _ hlegal)
    · rw [exec_setPitch_of_illegal s hlegal] at ht; cases ht; exact h
  | setGrainSize payload =>
    by_cases hlegal : legalSizePayload payload = true
    · rw [exec_setGrainSize_of_legal s hlegal] at ht; cases ht; exact h.postSize (legalGrainSize_setWidth hlegal)
    · rw [exec_setGrainSize_of_illegal s hlegal] at ht; cases ht; exact h
  | reset payload => cases ht; exact h.postReset
  | ctlReserved47 op payload => cases ht; exact h
  | ctlReserved8F op payload => cases ht; exact h
  | clear b z cap off => exact h.finishBuf (fun _ => Buf.clear_sound) ht
  | write b z off din => exact h.finishBuf (fun _ => Buf.write_sound (h.buf b)) ht
  | read b z n off =>
    simp only [Machine.exec, execRead] at ht
    split at ht
    next b' r hread => cases ht; exact (h.setBuf b (Buf.read_sound (h.buf b) hread)).respond _
    next c _ => cases ht; exact h.raise c
  | peekWin b z off win =>
    simp only [Machine.exec, execPeekWin] at ht
    split at ht
    · cases ht; exact h.respond _
    · cases ht; exact h.raise _
  | accum b z off din => exact h.finishBuf (fun _ => Buf.accum_sound (h.buf b)) ht
  | advRd b z n off => exact h.finishBuf (fun _ => Buf.advRd_sound (h.buf b)) ht
  | advWr b z n off => exact h.finishBuf (fun _ => Buf.advWr_sound (h.buf b)) ht
  | bufReserved b z a off => cases ht; exact h.raise _
  | lookup l k =>
    simp only [Machine.exec, execLookup] at ht
    split at ht
    · cases ht; exact h.respond _
    · cases ht; exact h.raise _
  | resample ratio x =>
    simp only [Machine.exec, execResample] at ht
    split at ht
    · cases ht; exact h.respond _
    · cases ht; exact h.raise _
  | grainCycle =>
    simp only [Machine.exec, execGrainCycle] at ht
    split at ht
    next u hc => cases ht; exact (h.grainCycle hc).respond _
    next u hc => cases ht; exact h.grainCycle_error hc
  | processBlock inp =>
    have hblock := h.processBlock (inp.headD [])
    rcases execProcessBlock_next ht with ⟨u, o, hu, rfl⟩ | herr
    · rw [hu] at hblock; exact State.Sound.respond hblock _
    · rw [herr] at hblock; exact hblock
  | statusRead addr => cases ht; exact h.respond _

end Updates

/-- Settles O53: a power-on gives a sound state from any; a transaction keeps soundness, instruction by instruction. -/
theorem stepKeepsTheStateSound : Obligations.StepKeepsTheStateSound := by
  intro s t hs ht
  rcases step_cases s with ⟨-, hidle⟩ | ⟨p, rest, -, hpower⟩ | ⟨f, rest, i, -, -, hexec⟩ | ⟨f, rest, e, -, -, hrefused⟩
  · rw [hidle] at ht; cases ht; exact hs
  · rw [hpower] at ht
    split at ht
    next hp =>
      cases ht
      have hon := State.powerOn_sound hp
      exact hon.update hon.ibuf hon.obuf hon.synthLen _ _ _
    next => cases ht
  · exact (hs.accept rest).exec (hexec.symm.trans ht)
  · rw [hrefused] at ht; cases ht

end Sys2Proof.Machine

/-! PROOFS. The mailbox's application and PROCESS_BLOCK (R261 to R280): what the mailbox leaves, the two paths of a block, the shape of
its output, and the mode registers it may change. -/

namespace Sys2Proof.Machine

/-! ### What the mailbox's application leaves (R271 to R273) -/

section Settled

variable {s : State}

theorem State.settled_of_size (h : s.pendGsV = true) : s.settled = (s.reconfigured s.pendGs).applyPitch := by
  simp only [State.settled, h, if_true]

theorem State.settled_of_reset (h : s.pendGsV = false) (h' : s.pendRst = true) : s.settled = s.resetDone.applyPitch := by
  simp only [State.settled, h, h', if_true, Bool.false_eq_true, if_false]

theorem State.settled_of_neither (h : s.pendGsV = false) (h' : s.pendRst = false) : s.settled = s.applyPitch := by
  simp only [State.settled, h, h', Bool.false_eq_true, if_false]

/-- What no message of the mailbox touches. -/
theorem State.settled_frame (s : State) : s.settled = { s with
    grainSize := s.settled.grainSize, hopSize := s.settled.hopSize, pitchRatio := s.settled.pitchRatio,
    primed := s.settled.primed, synthLen := s.settled.synthLen, ibuf := s.settled.ibuf, obuf := s.settled.obuf,
    pendPitchV := false, pendGsV := false, pendRst := false } := by
  cases hgs : s.pendGsV with
  | true => rw [State.settled_of_size hgs]; rfl
  | false =>
    cases hrst : s.pendRst with
    | true => rw [State.settled_of_reset hgs hrst]; rfl
    | false => rw [State.settled_of_neither hgs hrst]; rfl

@[simp] theorem State.settled_params : s.settled.params = s.params := by
  have h := congrArg State.params s.settled_frame
  exact h

@[simp] theorem State.settled_seq : s.settled.seq = s.seq := by
  have h := congrArg State.seq s.settled_frame
  exact h

theorem State.settled_mailboxEmpty : s.settled.MailboxEmpty := ⟨rfl, rfl, rfl⟩

theorem State.settled_pitchRatio : s.settled.pitchRatio = if s.pendPitchV then s.pendRatio else s.pitchRatio := by
  cases hgs : s.pendGsV with
  | true => rw [State.settled_of_size hgs]; rfl
  | false =>
    cases hrst : s.pendRst with
    | true => rw [State.settled_of_reset hgs hrst]; rfl
    | false => rw [State.settled_of_neither hgs hrst]; rfl

end Settled

/-- Settles O40: the three cases of the sizing, each read off the state it leaves. -/
theorem mailboxApplicationEffects : Obligations.MailboxApplicationEffects := by
  intro s hs
  obtain ⟨-, -, hlegal⟩ := hs.settles
  refine ⟨s.settled, hs.applyMailbox_eq, State.settled_mailboxEmpty, State.settled_pitchRatio, fun hgs => ?_,
    fun hgs hrst => ?_, fun hgs hrst => ?_, s.settled_frame⟩
  · have hcap := eightGrains_toNat (hlegal hgs)
    rw [State.settled_of_size hgs]
    refine ⟨rfl, hop_toNat (hlegal hgs), synthLen_toNat _, rfl, fun i => ?_⟩
    cases i <;> exact ⟨hcap, rfl, rfl, rfl, fun _ => rfl⟩
  · rw [State.settled_of_reset hgs hrst]
    refine ⟨rfl, rfl, rfl, rfl, fun i => ?_⟩
    cases i <;> exact ⟨rfl, rfl, rfl, rfl, fun _ => rfl⟩
  · rw [State.settled_of_neither hgs hrst]
    exact ⟨rfl, rfl, rfl, rfl, rfl, rfl⟩

theorem State.reconfigure_cases (s : State) (size : BitVec 13) :
    s.reconfigure size = .ok (s.reconfigured size) ∨
    ∃ ib, s.reconfigure size = .error (State.raise
      { s with grainSize := size, hopSize := BitVec.ofNat 11 (size.toNat / 4), ibuf := ib } .bufIllegal) := by
  unfold State.reconfigure
  dsimp only
  rcases State.clearBoth_cases { s with grainSize := size, hopSize := BitVec.ofNat 11 (size.toNat / 4) }
    (BitVec.ofNat 16 (8 * size.toNat)) (BitVec.ofNat 16 (8 * size.toNat)) with hc | hc | hc <;> rw [hc]
  · exact .inl rfl
  · exact .inr ⟨s.ibuf, rfl⟩
  · exact .inr ⟨_, rfl⟩

theorem State.resetAction_cases (s : State) :
    s.resetAction = .ok s.resetDone ∨ ∃ ib, s.resetAction = .error (State.raise { s with ibuf := ib } .bufIllegal) := by
  unfold State.resetAction
  rcases s.clearBoth_cases s.ibuf.cap s.obuf.cap with hc | hc | hc <;> rw [hc]
  · exact .inl rfl
  · exact .inr ⟨s.ibuf, rfl⟩
  · exact .inr ⟨_, rfl⟩

/-- What the mailbox's application can do in any state: it leaves the settled state, or a CLEAR of it raises (R273). -/
theorem State.applyMailbox_cases (s : State) :
    s.applyMailbox = .ok s.settled ∨
    (s.pendGsV = true ∧ ∃ ib, s.applyMailbox = .error (State.raise
      { s with grainSize := s.pendGs, hopSize := BitVec.ofNat 11 (s.pendGs.toNat / 4), ibuf := ib } .bufIllegal)) ∨
    ∃ ib, s.applyMailbox = .error (State.raise { s with ibuf := ib } .bufIllegal) := by
  rw [State.applyMailbox, State.applySizing]
  by_cases hgs : s.pendGsV = true
  · rw [if_pos hgs, State.settled_of_size hgs]
    rcases s.reconfigure_cases s.pendGs with hc | ⟨ib, hc⟩ <;> rw [hc]
    · exact .inl rfl
    · exact .inr (.inl ⟨hgs, ib, rfl⟩)
  · rw [if_neg hgs]
    by_cases hrst : s.pendRst = true
    · rw [if_pos hrst, State.settled_of_reset (Bool.eq_false_iff.2 hgs) hrst]
      rcases s.resetAction_cases with hc | ⟨ib, hc⟩ <;> rw [hc]
      · exact .inl rfl
      · exact .inr (.inr ⟨ib, rfl⟩)
    · rw [if_neg hrst, State.settled_of_neither (Bool.eq_false_iff.2 hgs) (Bool.eq_false_iff.2 hrst)]
      exact .inl rfl

theorem State.applyMailbox_ok_eq {s t : State} (h : s.applyMailbox = .ok t) : t = s.settled := by
  rcases s.applyMailbox_cases with hc | ⟨-, ib, hc⟩ | ⟨ib, hc⟩ <;> rw [hc] at h <;> cases h
  rfl

/-! ### The two paths of a block (R261 to R264) -/

/-- What a block that completes does: the bypass path, or the active path with or without a read of OBUF. -/
theorem State.processBlock_ok_cases {s t : State} {ch0 o : List Word} (h : s.processBlock ch0 = .ok (t, o)) :
    ∃ u, s.applyMailbox = .ok u ∧
      ((u.bypass = true ∧ t = u ∧ o = ch0) ∨
       (u.bypass = false ∧ ∃ b v, u.ibuf.write ch0 = .ok b ∧ State.grainLoop u.maxGrains { u with ibuf := b } = .ok v ∧
        ((v.primed = true ∧ ∃ ob, v.obuf.read v.params.blockSize true = .ok (ob, o) ∧ t = { v with obuf := ob }) ∨
         (v.primed = false ∧ t = v ∧ o = List.replicate v.params.blockSize Word.silence)))) := by
  cases hu : s.applyMailbox with
  | error e => simp only [State.processBlock, hu] at h; cases h
  | ok u =>
    rw [State.processBlock_eq hu] at h
    refine ⟨u, rfl, ?_⟩
    split at h
    next hbypass => cases h; exact .inl ⟨hbypass, rfl, rfl⟩
    next hbypass =>
      refine .inr ⟨by simpa using hbypass, ?_⟩
      unfold State.activeInput at h
      cases hb : u.ibuf.write ch0 with
      | error c => rw [hb] at h; cases h
      | ok b =>
        rw [hb] at h
        dsimp only [State.orRaise_ok] at h
        cases hv : State.grainLoop u.maxGrains { u with ibuf := b } with
        | error e => rw [hv] at h; cases h
        | ok v =>
          rw [hv] at h
          dsimp only at h
          refine ⟨b, v, rfl, hv, ?_⟩
          rcases v.activeOutput_cases with ⟨hp, ob, o', hob, hout⟩ | ⟨-, hout⟩ | ⟨hp, hout⟩ <;>
            rw [hout] at h <;> cases h
          · exact .inl ⟨hp, ob, hob, rfl⟩
          · exact .inr ⟨hp, rfl, rfl⟩

theorem Buf.write_cap {b b' : Buf} {v : List Word} (h : b.write v = .ok b') : b'.cap = b.cap := by
  obtain ⟨-, rfl⟩ := Buf.write_eq_ok.1 h
  exact Buf.writeCells_cap _ _ _

/-- WRITE of a block to IBUF changes nothing that grain cycles keep. -/
theorem State.GrainKept.setIbuf (u : State) {b : Buf} (h : b.cap = u.ibuf.cap) : u.GrainKept { u with ibuf := b } :=
  { State.GrainKept.refl u with icap := h }

theorem exec_processBlock_of_ok {inp : List (List Word)} {s t : State} {o : List Word} (hrun : s.seq = .run)
    (hshape : s.params.blockShape inp = true) (h : s.processBlock (inp.headD []) = .ok (t, o)) :
    exec (.processBlock inp) s = .next { t with resp := .block (List.replicate s.params.channels o) } := by
  rcases execProcessBlock_run hshape hrun with ⟨t', o', hok, hexec⟩ | ⟨e, herr, -⟩
  · cases h.symm.trans hok
    exact hexec
  · cases h.symm.trans herr

/-- Settles O35: the bypass path is the mailbox's state and channel 0. -/
theorem bypassBlockReturnsChannelZero : Obligations.BypassBlockReturnsChannelZero := by
  intro inp s u hrun hshape hu hbypass
  refine exec_processBlock_of_ok hrun hshape ?_
  rw [State.processBlock_eq hu, if_pos hbypass]

/-- A block is returned only by a body that completes. -/
theorem exec_processBlock_block_ok {inp out : List (List Word)} {s t : State} (h : exec (.processBlock inp) s = .next t)
    (hout : t.resp = .block out) :
    s.params.blockShape inp = true ∧ ∃ u o, s.processBlock (inp.headD []) = .ok (u, o) ∧
      t = { u with resp := .block (List.replicate s.params.channels o) } ∧ out = List.replicate s.params.channels o := by
  have hshape : s.params.blockShape inp = true := by
    by_contra hne
    rw [show exec (.processBlock inp) s = .refused .blockShape from if_neg hne] at h
    cases h
  refine ⟨hshape, ?_⟩
  rcases execProcessBlock_next h with ⟨u, o, hu, rfl⟩ | herr
  · exact ⟨u, o, hu, rfl, (Response.block.inj hout).symm⟩
  · have hraised := s.processBlock_faultRule (inp.headD [])
    rw [herr] at hraised
    rw [hraised.resp_eq] at hout
    cases hout

/-- The samples a block returns are as many as BLOCK_SIZE: those of channel 0, or those READ took, or silence. -/
theorem State.processBlock_length {s t : State} {ch0 o : List Word} (h : s.processBlock ch0 = .ok (t, o))
    (hch0 : ch0.length = s.params.blockSize) : o.length = s.params.blockSize := by
  obtain ⟨u, hu, ⟨-, -, rfl⟩ | ⟨-, b, v, hb, hv, hout⟩⟩ := State.processBlock_ok_cases h
  · exact hch0
  · have hkept := (State.GrainKept.setIbuf u (Buf.write_cap hb)).trans (State.grainLoop_kept hv)
    have hparams : v.params = s.params := by rw [hkept.params, State.applyMailbox_ok_eq hu, State.settled_params]
    rcases hout with ⟨-, ob, hob, -⟩ | ⟨-, -, rfl⟩
    · obtain ⟨-, rfl, -⟩ := Buf.read_eq_ok.1 hob
      rw [Buf.takeCells_length, hparams]
    · rw [List.length_replicate, hparams]

/-- Settles O37: the response is the output of channel 0, once for each channel. -/
theorem everyOutputBlockHasTheInputShape : Obligations.EveryOutputBlockHasTheInputShape := by
  intro inp s t out h hout
  obtain ⟨hshape, u, o, hu, -, rfl⟩ := exec_processBlock_block_ok h hout
  obtain ⟨hchannels, hsamples⟩ := blockShape_iff.1 hshape
  refine blockShape_iff.2 ⟨List.length_replicate, fun ch hch => ?_⟩
  obtain ⟨hpos, rfl⟩ := List.mem_replicate.1 hch
  refine State.processBlock_length hu ?_
  cases inp with
  | nil => exact absurd hchannels.symm hpos
  | cons c rest => exact hsamples c (List.mem_cons_self ..)

/-- Settles O38: PRIMED 0 after the block means the silent path, and the grain loop does not move RD. -/
theorem unprimedActiveBlockIsSilent : Obligations.UnprimedActiveBlockIsSilent := by
  intro inp s u t out hu hbypass h hout hprimed
  obtain ⟨-, t', o, ht', rfl, rfl⟩ := exec_processBlock_block_ok h hout
  obtain ⟨u', hu', hpath⟩ := State.processBlock_ok_cases ht'
  obtain rfl : u = u' := Except.ok.inj (hu.symm.trans hu')
  rcases hpath with ⟨hon, -, -⟩ | ⟨-, b, v, hb, hv, hpath⟩
  · rw [hbypass] at hon
    cases hon
  · have hkept := (State.GrainKept.setIbuf u (Buf.write_cap hb)).trans (State.grainLoop_kept hv)
    have hparams : v.params = s.params := by rw [hkept.params, State.applyMailbox_ok_eq hu, State.settled_params]
    rcases hpath with ⟨hp, ob, -, rfl⟩ | ⟨-, rfl, rfl⟩
    · exact absurd (hp.symm.trans hprimed) (by decide)
    · rw [hparams]
      exact ⟨rfl, hkept.ord⟩

end Sys2Proof.Machine

/-! PROOFS. The mode registers PITCH_RATIO, GRAIN_SIZE and PRIMED (R32, R36, R37, R278): which instruction may change them, and how. -/

namespace Sys2Proof.Machine

/-- PITCH_RATIO and GRAIN_SIZE are the same, and PRIMED is not cleared. -/
structure State.ModeKept (s t : State) : Prop where
  ratio : t.pitchRatio = s.pitchRatio
  size : t.grainSize = s.grainSize
  primed : s.primed = true → t.primed = true

/-- A change of PITCH_RATIO, of GRAIN_SIZE, or to PRIMED 0 comes from the pending message that makes it. -/
structure State.ModeByMailbox (s t : State) : Prop where
  ratio : t.pitchRatio = s.pitchRatio ∨ s.pendPitchV = true ∧ t.pitchRatio = s.pendRatio
  size : t.grainSize = s.grainSize ∨ s.pendGsV = true ∧ t.grainSize = s.pendGs
  primed : s.primed = true → t.primed = true ∨ s.pendGsV = true ∨ s.pendRst = true

theorem State.ModeKept.refl (s : State) : s.ModeKept s := ⟨rfl, rfl, id⟩

theorem State.ModeKept.trans {s t u : State} (h : s.ModeKept t) (h' : t.ModeKept u) : s.ModeKept u :=
  ⟨h'.ratio.trans h.ratio, h'.size.trans h.size, h'.primed ∘ h.primed⟩

theorem State.GrainKept.modeKept {s t : State} (h : s.GrainKept t) : s.ModeKept t := ⟨h.pitchRatio, h.grainSize, h.primed⟩

theorem State.ModeKept.raise {s t : State} (h : s.ModeKept t) (c : FaultCode) : s.ModeKept (t.raise c) :=
  ⟨h.ratio, h.size, h.primed⟩

theorem State.ModeByMailbox.trans {s t u : State} (h : s.ModeByMailbox t) (h' : t.ModeKept u) : s.ModeByMailbox u where
  ratio := by rw [h'.ratio]; exact h.ratio
  size := by rw [h'.size]; exact h.size
  primed hp := (h.primed hp).imp_left h'.primed

/-- A property of the states a step leaves follows from one that implies it. -/
theorem State.Leaves.imp {α : Type} {P Q : State → Prop} {view : α → State} {r : Except State α}
    (hpq : ∀ t, P t → Q t) (h : State.Leaves P view r) : State.Leaves Q view r := by
  cases r with
  | ok a => exact hpq _ h
  | error t => exact hpq _ h

/-! ### The steps of a block -/

theorem State.grainCycle_modeKept (s : State) : State.Leaves s.ModeKept id s.grainCycle := by
  cases h : s.grainCycle with
  | ok t => exact (State.grainCycle_kept h).modeKept
  | error t =>
    obtain ⟨u, c, hu, rfl⟩ := State.grainCycle_error_kept h
    exact hu.modeKept.raise c

theorem State.activeInput_modeKept (s : State) (ch0 : List Word) : State.Leaves s.ModeKept id (s.activeInput ch0) := by
  unfold State.activeInput
  cases hb : s.ibuf.write ch0 with
  | error c => exact (State.ModeKept.refl s).raise c
  | ok b =>
    have hset := State.GrainKept.setIbuf s (Buf.write_cap hb)
    dsimp only [State.orRaise_ok]
    cases h : State.grainLoop s.maxGrains { s with ibuf := b } with
    | ok t => exact (hset.trans (State.grainLoop_kept h)).modeKept
    | error t =>
      obtain ⟨u, c, hu, rfl⟩ := State.grainLoop_error_kept h
      exact (hset.trans hu).modeKept.raise c

theorem State.activeOutput_modeKept (s : State) : State.Leaves s.ModeKept Prod.fst s.activeOutput := by
  rcases s.activeOutput_cases with ⟨-, b, o, -, h⟩ | ⟨-, h⟩ | ⟨-, h⟩ <;> rw [h]
  · exact ⟨rfl, rfl, id⟩
  · exact (State.ModeKept.refl s).raise _
  · exact .refl s

theorem State.settled_modeByMailbox (s : State) : s.ModeByMailbox s.settled := by
  have hratio : s.settled.pitchRatio = s.pitchRatio ∨ s.pendPitchV = true ∧ s.settled.pitchRatio = s.pendRatio := by
    rw [State.settled_pitchRatio]
    split
    next hv => exact .inr ⟨hv, rfl⟩
    next => exact .inl rfl
  by_cases hgs : s.pendGsV = true
  · rw [State.settled_of_size hgs] at hratio ⊢
    exact ⟨hratio, .inr ⟨hgs, rfl⟩, fun _ => .inr (.inl hgs)⟩
  · by_cases hrst : s.pendRst = true
    · rw [State.settled_of_reset (Bool.eq_false_iff.2 hgs) hrst] at hratio ⊢
      exact ⟨hratio, .inl rfl, fun _ => .inr (.inr hrst)⟩
    · rw [State.settled_of_neither (Bool.eq_false_iff.2 hgs) (Bool.eq_false_iff.2 hrst)] at hratio ⊢
      exact ⟨hratio, .inl rfl, .inl⟩

theorem State.applyMailbox_modeByMailbox (s : State) : State.Leaves s.ModeByMailbox id s.applyMailbox := by
  rcases s.applyMailbox_cases with h | ⟨hgs, ib, h⟩ | ⟨ib, h⟩ <;> rw [h]
  · exact s.settled_modeByMailbox
  · exact ⟨.inl rfl, .inr ⟨hgs, rfl⟩, .inl⟩
  · exact ⟨.inl rfl, .inl rfl, .inl⟩

theorem State.processBlock_modeByMailbox (s : State) (ch0 : List Word) :
    State.Leaves s.ModeByMailbox Prod.fst (s.processBlock ch0) := by
  have hmailbox := s.applyMailbox_modeByMailbox
  cases hu : s.applyMailbox with
  | error t =>
    rw [hu] at hmailbox
    simp only [State.processBlock, hu]
    exact hmailbox
  | ok u =>
    rw [hu] at hmailbox
    rw [State.processBlock_eq hu]
    suffices hpaths : State.Leaves u.ModeKept Prod.fst (if u.bypass then .ok (u, ch0)
        else match u.activeInput ch0 with
          | .error v => .error v
          | .ok v => v.activeOutput) from hpaths.imp fun _ => hmailbox.trans
    split
    · exact .refl u
    · have hin := u.activeInput_modeKept ch0
      cases hv : u.activeInput ch0 with
      | error v => rw [hv] at hin; exact hin
      | ok v =>
        rw [hv] at hin
        exact v.activeOutput_modeKept.imp fun _ => State.ModeKept.trans hin

/-! ### Every instruction -/

/-- The mode registers are the same. -/
def State.SameMode (s t : State) : Prop := t.pitchRatio = s.pitchRatio ∧ t.grainSize = s.grainSize ∧ t.primed = s.primed

theorem State.finishBuf_sameMode {s t : State} {i : BufId} {r : Except FaultCode Buf} (h : s.finishBuf i r = .next t) :
    s.SameMode t := by
  rcases s.finishBuf_cases i r with ⟨b, -, hb⟩ | ⟨c, -, hc⟩
  · rw [hb] at h; cases h; cases i <;> exact ⟨rfl, rfl, rfl⟩
  · rw [hc] at h; cases h; exact ⟨rfl, rfl, rfl⟩

/-- What an instruction that answers a next state does to the mode registers. -/
theorem exec_mode_cases {i : Instr} {s t : State} (h : exec i s = .next t) :
    s.SameMode t ∨ (i = .grainCycle ∧ s.ModeKept t) ∨ ((∃ inp, i = .processBlock inp) ∧ s.ModeByMailbox t) := by
  cases i with
  | nop payload => cases h; exact .inl ⟨rfl, rfl, rfl⟩
  | setPitch payload =>
    simp only [exec, execSetPitch] at h
    split at h <;> cases h <;> exact .inl ⟨rfl, rfl, rfl⟩
  | setGrainSize payload =>
    simp only [exec, execSetGrainSize] at h
    split at h <;> cases h <;> exact .inl ⟨rfl, rfl, rfl⟩
  | reset payload => cases h; exact .inl ⟨rfl, rfl, rfl⟩
  | ctlReserved47 op payload => cases h; exact .inl ⟨rfl, rfl, rfl⟩
  | ctlReserved8F op payload => cases h; exact .inl ⟨rfl, rfl, rfl⟩
  | clear b z cap off => exact .inl (State.finishBuf_sameMode h)
  | write b z off din => exact .inl (State.finishBuf_sameMode h)
  | read b z n off =>
    simp only [exec, execRead] at h
    split at h
    · cases h; cases b <;> exact .inl ⟨rfl, rfl, rfl⟩
    · cases h; exact .inl ⟨rfl, rfl, rfl⟩
  | peekWin b z off win =>
    simp only [exec, execPeekWin] at h
    split at h <;> cases h <;> exact .inl ⟨rfl, rfl, rfl⟩
  | accum b z off din => exact .inl (State.finishBuf_sameMode h)
  | advRd b z n off => exact .inl (State.finishBuf_sameMode h)
  | advWr b z n off => exact .inl (State.finishBuf_sameMode h)
  | bufReserved b z a off => cases h; exact .inl ⟨rfl, rfl, rfl⟩
  | lookup l k =>
    simp only [exec, execLookup] at h
    split at h <;> cases h <;> exact .inl ⟨rfl, rfl, rfl⟩
  | resample ratio x =>
    simp only [exec, execResample] at h
    split at h <;> cases h <;> exact .inl ⟨rfl, rfl, rfl⟩
  | grainCycle =>
    have hcycle := s.grainCycle_modeKept
    simp only [exec, execGrainCycle] at h
    refine .inr (.inl ⟨rfl, ?_⟩)
    cases hr : s.grainCycle with
    | ok u => rw [hr] at h hcycle; cases h; exact ⟨hcycle.ratio, hcycle.size, hcycle.primed⟩
    | error u => rw [hr] at h hcycle; cases h; exact hcycle
  | processBlock inp =>
    have hblock := s.processBlock_modeByMailbox (inp.headD [])
    refine .inr (.inr ⟨⟨inp, rfl⟩, ?_⟩)
    rcases execProcessBlock_next h with ⟨u, o, hu, rfl⟩ | herr
    · rw [hu] at hblock; exact ⟨hblock.ratio, hblock.size, hblock.primed⟩
    · rw [herr] at hblock; exact hblock
  | statusRead addr => cases h; exact .inl ⟨rfl, rfl, rfl⟩

/-- Settles O45: only a grain cycle and a block touch the mode registers, the one to set PRIMED, the other by its mailbox. -/
theorem modeRegistersChangeOnlyAsListed : Obligations.ModeRegistersChangeOnlyAsListed := by
  intro i s t h
  rcases exec_mode_cases h with ⟨hratio, hsize, hprimed⟩ | ⟨hi, hkept⟩ | ⟨hi, hmailbox⟩
  · refine ⟨fun hne => absurd hratio hne, fun hne => absurd hsize hne, fun hs ht => ?_, fun hs ht => ?_⟩ <;>
      rw [hprimed, hs] at ht <;> cases ht
  · refine ⟨fun hne => absurd hkept.ratio hne, fun hne => absurd hkept.size hne, fun hs ht => ?_, fun _ _ => .inl hi⟩
    rw [hkept.primed hs] at ht
    cases ht
  · refine ⟨fun hne => ⟨hi, hmailbox.ratio.resolve_left hne⟩, fun hne => ⟨hi, hmailbox.size.resolve_left hne⟩,
      fun hs ht => ⟨hi, ?_⟩, fun _ _ => .inr hi⟩
    exact (hmailbox.primed hs).resolve_left fun hp => by rw [hp] at ht; cases ht

end Sys2Proof.Machine

/-! PROOFS. SYNTH_LEN is a cache that nothing reads (R39, R184): two runs of PROCESS_BLOCK that start in states equal but for it stay equal
but for it. -/

namespace Sys2Proof.Machine

/-- The same state but for SYNTH_LEN. -/
def State.SameButSynthLen (s t : State) : Prop := ∃ n, t = { s with synthLen := n }

/-- Two results of a step whose states are the same but for SYNTH_LEN, `Q` relating the values of a completed step. -/
def SameResult {α : Type} (Q : α → α → Prop) : Except State α → Except State α → Prop
  | .ok a, .ok b => Q a b
  | .error s, .error t => s.SameButSynthLen t
  | _, _ => False

/-- A state with the samples it answers: the same but for SYNTH_LEN. -/
def SameOutput (a b : State × List Word) : Prop := a.1.SameButSynthLen b.1 ∧ a.2 = b.2

theorem State.SameButSynthLen.refl (s : State) : s.SameButSynthLen s := ⟨s.synthLen, rfl⟩

/-- Two such results both complete or both stop. -/
theorem SameResult.cases {α : Type} {Q : α → α → Prop} {x y : Except State α} (h : SameResult Q x y) :
    (∃ a b, x = .ok a ∧ y = .ok b ∧ Q a b) ∨ ∃ s t, x = .error s ∧ y = .error t ∧ s.SameButSynthLen t := by
  cases x with
  | ok a =>
    cases y with
    | ok b => exact .inl ⟨a, b, rfl, rfl, h⟩
    | error t => exact h.elim
  | error s =>
    cases y with
    | ok b => exact h.elim
    | error t => exact .inr ⟨s, t, rfl, rfl, h⟩

/-- One step after another: both run alike, so the two together do. -/
theorem SameResult.bind {α β : Type} {Q : α → α → Prop} {R : β → β → Prop} {x y : Except State α}
    {k l : α → Except State β} (h : SameResult Q x y) (hk : ∀ a b, Q a b → SameResult R (k a) (l b)) :
    SameResult R (x >>= k) (y >>= l) := by
  rcases h.cases with ⟨a, b, rfl, rfl, hab⟩ | ⟨s, t, rfl, rfl, hst⟩
  · exact hk a b hab
  · exact hst

/-- A step that reads a result which does not depend on SYNTH_LEN. -/
theorem State.orRaise_synthLen {α : Type} (s : State) (n : BitVec 15) (r : Except FaultCode α) :
    SameResult Eq (s.orRaise r) ({ s with synthLen := n }.orRaise r) := by
  cases r with
  | ok a => rfl
  | error c => exact ⟨n, rfl⟩

section Steps

variable {s t : State} (h : s.SameButSynthLen t)

include h

/-! ### The grain cycle and its loop -/

theorem State.SameButSynthLen.grainExtract : SameResult Eq s.grainExtract t.grainExtract := by
  obtain ⟨n, rfl⟩ := h
  unfold State.grainExtract
  dsimp only
  cases romWindow s.params s.grainSize.toNat with
  | error c => exact ⟨n, rfl⟩
  | ok winA => exact s.orRaise_synthLen n _

theorem State.SameButSynthLen.grainAdvanceRead :
    SameResult State.SameButSynthLen s.grainAdvanceRead t.grainAdvanceRead := by
  obtain ⟨n, rfl⟩ := h
  unfold State.grainAdvanceRead
  dsimp only
  cases s.ibuf.advRd s.hopSize.toNat <;> exact ⟨n, rfl⟩

/-- RESAMPLE writes SYNTH_LEN, so after it the two states are equal. -/
theorem State.SameButSynthLen.grainResample (g : List Word) :
    SameResult SameOutput (s.grainResample g) (t.grainResample g) := by
  obtain ⟨n, rfl⟩ := h
  unfold State.grainResample
  dsimp only
  cases resampleGrain s.params g s.pitchRatio with
  | error c => exact ⟨n, rfl⟩
  | ok y => exact ⟨.refl _, rfl⟩

theorem State.SameButSynthLen.grainSynthesis (y : List Word) :
    SameResult Eq (s.grainSynthesis y) (t.grainSynthesis y) := by
  obtain ⟨n, rfl⟩ := h
  unfold State.grainSynthesis
  dsimp only
  cases romWindow s.params y.length with
  | error c => exact ⟨n, rfl⟩
  | ok winS => rfl

theorem State.SameButSynthLen.grainOverlapAdd (sv : List Word) :
    SameResult State.SameButSynthLen (s.grainOverlapAdd sv) (t.grainOverlapAdd sv) := by
  obtain ⟨n, rfl⟩ := h
  unfold State.grainOverlapAdd
  dsimp only
  cases s.obuf.accum s.params 0 sv <;> exact ⟨n, rfl⟩

theorem State.SameButSynthLen.grainAdvanceWrite :
    SameResult State.SameButSynthLen s.grainAdvanceWrite t.grainAdvanceWrite := by
  obtain ⟨n, rfl⟩ := h
  unfold State.grainAdvanceWrite
  dsimp only
  cases s.obuf.advWr s.hopSize.toNat <;> exact ⟨n, rfl⟩

theorem State.SameButSynthLen.primeCheck : s.primeCheck.SameButSynthLen t.primeCheck := by
  obtain ⟨n, rfl⟩ := h
  exact ⟨n, rfl⟩

theorem State.SameButSynthLen.grainCycle : SameResult State.SameButSynthLen s.grainCycle t.grainCycle := by
  unfold State.grainCycle
  refine h.grainExtract.bind fun g _ hg => ?_
  subst hg
  refine h.grainAdvanceRead.bind fun s₁ t₁ h₁ => ?_
  refine (h₁.grainResample g).bind fun ⟨s₂, y⟩ ⟨t₂, _⟩ ⟨h₂, hy⟩ => ?_
  subst hy
  refine (State.SameButSynthLen.grainSynthesis h₂ y).bind fun sv _ hsv => ?_
  subst hsv
  refine (State.SameButSynthLen.grainOverlapAdd h₂ sv).bind fun s₃ t₃ h₃ => ?_
  exact h₃.grainAdvanceWrite.bind fun _ _ h₄ => h₄.primeCheck

omit h in
theorem State.SameButSynthLen.grainLoop (fuel : Nat) :
    ∀ {s t : State}, s.SameButSynthLen t → SameResult State.SameButSynthLen (State.grainLoop fuel s) (State.grainLoop fuel t) := by
  induction fuel with
  | zero => exact fun h => h
  | succ fuel ih =>
    intro s t h
    have hsize : t.grainSize = s.grainSize := by obtain ⟨n, rfl⟩ := h; rfl
    have hibuf : t.ibuf = s.ibuf := by obtain ⟨n, rfl⟩ := h; rfl
    simp only [State.grainLoop, hsize, hibuf]
    split
    · rcases h.grainCycle.cases with ⟨a, b, hs, ht, hab⟩ | ⟨a, b, hs, ht, hab⟩ <;> rw [hs, ht]
      · exact ih hab
      · exact hab
    · exact h

/-! ### PROCESS_BLOCK -/

theorem State.SameButSynthLen.clearBoth (icap ocap : BitVec 16) :
    SameResult State.SameButSynthLen (s.clearBoth icap ocap) (t.clearBoth icap ocap) := by
  obtain ⟨n, rfl⟩ := h
  unfold State.clearBoth
  cases Buf.clear icap with
  | error c => exact ⟨n, rfl⟩
  | ok ib => cases Buf.clear ocap <;> exact ⟨n, rfl⟩

theorem State.SameButSynthLen.resetAction : SameResult State.SameButSynthLen s.resetAction t.resetAction := by
  have hi : t.ibuf = s.ibuf := by obtain ⟨n, rfl⟩ := h; rfl
  have ho : t.obuf = s.obuf := by obtain ⟨n, rfl⟩ := h; rfl
  unfold State.resetAction
  rw [hi, ho]
  rcases (h.clearBoth s.ibuf.cap s.obuf.cap).cases with ⟨a, b, ha, hb, n, rfl⟩ | ⟨a, b, ha, hb, hab⟩ <;> rw [ha, hb]
  · exact ⟨n, rfl⟩
  · exact hab

theorem State.SameButSynthLen.reconfigure (size : BitVec 13) :
    SameResult State.SameButSynthLen (s.reconfigure size) (t.reconfigure size) := by
  have hresized : State.SameButSynthLen { s with grainSize := size, hopSize := BitVec.ofNat 11 (size.toNat / 4) }
      { t with grainSize := size, hopSize := BitVec.ofNat 11 (size.toNat / 4) } := by
    obtain ⟨n, rfl⟩ := h
    exact ⟨n, rfl⟩
  unfold State.reconfigure
  rcases (hresized.clearBoth (BitVec.ofNat 16 (8 * size.toNat)) (BitVec.ofNat 16 (8 * size.toNat))).cases with
    ⟨a, b, ha, hb, n, rfl⟩ | ⟨a, b, ha, hb, hab⟩ <;> dsimp only <;> rw [ha, hb]
  · exact .refl _
  · exact hab

theorem State.SameButSynthLen.applyMailbox : SameResult State.SameButSynthLen s.applyMailbox t.applyMailbox := by
  have hsizing : SameResult State.SameButSynthLen s.applySizing t.applySizing := by
    obtain ⟨hsize, hgs, hrst⟩ : t.pendGsV = s.pendGsV ∧ t.pendGs = s.pendGs ∧ t.pendRst = s.pendRst := by
      obtain ⟨n, rfl⟩ := h
      exact ⟨rfl, rfl, rfl⟩
    unfold State.applySizing
    rw [hsize, hgs, hrst]
    split
    · exact h.reconfigure _
    · split
      · exact h.resetAction
      · exact h
  unfold State.applyMailbox
  rcases hsizing.cases with ⟨a, b, ha, hb, n, rfl⟩ | ⟨a, b, ha, hb, hab⟩ <;> rw [ha, hb]
  · exact ⟨n, rfl⟩
  · exact hab

theorem State.SameButSynthLen.activeInput (ch0 : List Word) :
    SameResult State.SameButSynthLen (s.activeInput ch0) (t.activeInput ch0) := by
  obtain ⟨n, rfl⟩ := h
  unfold State.activeInput
  dsimp only
  cases s.ibuf.write ch0 with
  | error c => exact ⟨n, rfl⟩
  | ok b => exact State.SameButSynthLen.grainLoop _ ⟨n, rfl⟩

theorem State.SameButSynthLen.activeOutput : SameResult SameOutput s.activeOutput t.activeOutput := by
  obtain ⟨n, rfl⟩ := h
  unfold State.activeOutput
  dsimp only
  split
  · cases s.obuf.read s.params.blockSize true with
    | error c => exact ⟨n, rfl⟩
    | ok r => exact ⟨⟨n, rfl⟩, rfl⟩
  · exact ⟨⟨n, rfl⟩, rfl⟩

theorem State.SameButSynthLen.processBlock (ch0 : List Word) :
    SameResult SameOutput (s.processBlock ch0) (t.processBlock ch0) := by
  unfold State.processBlock
  rcases h.applyMailbox.cases with ⟨a, b, ha, hb, hab⟩ | ⟨a, b, ha, hb, hab⟩ <;> rw [ha, hb]
  · have hbypass : b.bypass = a.bypass := by obtain ⟨n, rfl⟩ := hab; rfl
    dsimp only
    rw [hbypass]
    split
    · exact ⟨hab, rfl⟩
    · rcases (State.SameButSynthLen.activeInput hab ch0).cases with ⟨c, d, hc, hd, hcd⟩ | ⟨c, d, hc, hd, hcd⟩ <;> rw [hc, hd]
      · exact State.SameButSynthLen.activeOutput hcd
      · exact hcd
  · exact hab

end Steps

/-- Settles O34: the body of the block, and its response, from the two states. -/
theorem synthLenNeverChangesASample : Obligations.SynthLenNeverChangesASample := by
  intro inp s t n ht
  have hblock := State.SameButSynthLen.processBlock ⟨n, rfl⟩ (s := s) (inp.headD [])
  simp only [exec, execProcessBlock] at ht ⊢
  split at ht
  next hshape =>
    rw [if_pos hshape]
    split at ht
    next => cases ht
    next hrun =>
      rw [if_neg hrun]
      rcases hblock.cases with ⟨⟨u, o⟩, ⟨v, _⟩, hu, hv, ⟨m, rfl⟩, rfl⟩ | ⟨u, v, hu, hv, m, rfl⟩ <;> rw [hu] at ht <;>
        rw [hv] <;> cases ht <;> exact ⟨m, rfl⟩
  next => cases ht

end Sys2Proof.Machine

/-! PROOFS. Service (R347): the counter invariant, the grain loop under it, and the blocks that never fault. -/

namespace Sys2Proof.Machine

/-! ### The counters alone (R347) -/

/-- The counters of the invariant: n samples a block, g a grain, h a hop, with i and o samples in the two buffers
(`State.inService_iff`). -/
def ServiceCounts (n g h i o : Nat) (primed : Bool) : Prop :=
  i < g ∧ min n h ∣ i ∧
  (primed = false → h ∣ o ∧ o ≤ 3 * h ∧ n ∣ i + o ∧ (o = 0 ∨ g ≤ i + h)) ∧
  (primed = true → g ≤ i + h ∧ i + o = n * ((g + 3 * h + n - 1) / n - 1))

/-- n times ceil(a / n) reaches a, and n times one less does not. -/
theorem mul_ceil_bounds {n a : Nat} (hn : 0 < n) (ha : 0 < a) :
    n * ((a + n - 1) / n - 1) < a ∧ a ≤ n * ((a + n - 1) / n) ∧
      n * ((a + n - 1) / n - 1) + n = n * ((a + n - 1) / n) := by
  have hdiv := Nat.div_add_mod (a + n - 1) n
  have hmod := Nat.mod_lt (a + n - 1) hn
  have hpos : 0 < (a + n - 1) / n := Nat.div_pos (by omega) hn
  have hsub : n * ((a + n - 1) / n - 1) + n = n * ((a + n - 1) / n) := by
    rw [← Nat.mul_succ]
    congr 1
    omega
  omega

section Counts

variable {n g h i o : Nat} {primed : Bool}

/-- Before priming and after it, the two buffers together hold less than a grain and three hops. -/
theorem ServiceCounts.total_lt (hc : ServiceCounts n g h i o primed) (hn : 0 < n) : i + o < g + 3 * h := by
  obtain ⟨hi, -, hun, hpr⟩ := hc
  cases primed with
  | false =>
    obtain ⟨-, ho, -⟩ := hun rfl
    omega
  | true =>
    obtain ⟨-, htotal⟩ := hpr rfl
    rw [htotal]
    exact (mul_ceil_bounds hn (by omega)).1

/-- The block number between two multiples of n is the ceiling. -/
theorem ceil_sub_one_eq {a c : Nat} (hlow : n * c < a) (hhigh : a ≤ n * (c + 1)) : (a + n - 1) / n - 1 = c := by
  have hn : 0 < n := by
    rcases Nat.eq_zero_or_pos n with rfl | hn
    · omega
    · exact hn
  have hceil : (a + n - 1) / n = c + 1 := by
    refine Nat.div_eq_of_lt_le ?_ ?_
    · rw [Nat.mul_comm]
      rw [Nat.mul_succ] at hhigh ⊢
      omega
    · rw [Nat.mul_comm, Nat.mul_succ]
      omega
  omega

/-- Block sizes and hops are powers of two, so the smaller divides both. -/
theorem min_dvd_both (hn : legalBlockSize n = true) (hg : legalGrainSize g = true) (hh : h * 4 = g) :
    min n h ∣ n ∧ min n h ∣ h := by
  have hncases := legalBlockSize_cases hn
  have hhcases : h = 128 ∨ h = 256 ∨ h = 512 ∨ h = 1024 := by
    have := legalGrainSize_cases hg
    omega
  rcases hncases with rfl | rfl | rfl | rfl <;> rcases hhcases with rfl | rfl | rfl | rfl <;> decide

section Block

variable {i' k : Nat} (hn : legalBlockSize n = true) (hg : legalGrainSize g = true) (hh : h * 4 = g)
  (hi : i' + k * h = i + n) (hshort : i' < g) (hlast : k = 0 ∨ g ≤ i' + h)

include hn hg hh hi

/-- The input counter after a block and k hops stays in whole blocks and hops. -/
theorem min_dvd_after_block (hdvd : min n h ∣ i) : min n h ∣ i' := by
  obtain ⟨hdvdn, hdvdh⟩ := min_dvd_both hn hg hh
  refine (Nat.dvd_add_left (hdvdh.mul_left k)).1 ?_
  rw [hi]
  exact dvd_add hdvd hdvdn

include hshort hlast

/-- Before priming: fewer than four hops are out, or the grain is full. -/
theorem ServiceCounts.block_unprimed (hc : ServiceCounts n g h i o false) (hstill : ¬ (0 < k ∧ g ≤ o + k * h)) :
    ServiceCounts n g h i' (o + k * h) false := by
  obtain ⟨-, hdvd, hun, -⟩ := hc
  obtain ⟨⟨c, rfl⟩, ho, htotal, hstart⟩ := hun rfl
  refine ⟨hshort, min_dvd_after_block hn hg hh hi hdvd, fun _ => ⟨?_, ?_, ?_, ?_⟩, fun hp => nomatch hp⟩
  · exact dvd_add (Nat.dvd_mul_right h c) (Nat.dvd_mul_left h k)
  · rcases Nat.eq_zero_or_pos k with rfl | hk
    · omega
    · have hlt : h * (c + k) < h * 4 := by
        rw [Nat.mul_add, Nat.mul_comm h k]
        omega
      have hle : h * (c + k) ≤ h * 3 := Nat.mul_le_mul_left h (Nat.le_of_lt_succ (Nat.lt_of_mul_lt_mul_left hlt))
      rw [Nat.mul_add, Nat.mul_comm h k] at hle
      omega
  · have hsum : i' + (h * c + k * h) = i + h * c + n := by omega
    rw [hsum]
    exact dvd_add htotal dvd_rfl
  · rcases hlast with rfl | hlast
    · omega
    · exact .inr hlast

/-- The block that primes: the two buffers hold whole blocks, at least a grain and three hops of them, for the first time. -/
theorem ServiceCounts.block_priming (hc : ServiceCounts n g h i o false) (hk : 0 < k) (hfull : g ≤ o + k * h) :
    n ≤ o + k * h ∧ ServiceCounts n g h i' (o + k * h - n) true := by
  have hncases := legalBlockSize_cases hn
  have hgcases := legalGrainSize_cases hg
  have htotal := hc.total_lt (by omega)
  obtain ⟨-, hdvd, hun, -⟩ := hc
  obtain ⟨-, -, ⟨c, hc⟩, -⟩ := hun rfl
  have hlast' : g ≤ i' + h := hlast.resolve_left (by omega)
  have hceil : (g + 3 * h + n - 1) / n - 1 = c := by
    refine ceil_sub_one_eq (by omega) ?_
    rw [Nat.mul_succ]
    omega
  refine ⟨by omega, hshort, min_dvd_after_block hn hg hh hi hdvd, (fun hp => nomatch hp), fun _ => ⟨hlast', ?_⟩⟩
  rw [hceil, ← hc]
  omega

/-- After priming the total stays, and what IBUF holds of it leaves a block for the output. -/
theorem ServiceCounts.block_primed (hc : ServiceCounts n g h i o true) :
    n ≤ o + k * h ∧ ServiceCounts n g h i' (o + k * h - n) true := by
  have hncases := legalBlockSize_cases hn
  have hgcases := legalGrainSize_cases hg
  obtain ⟨-, hdvd, -, hpr⟩ := hc
  obtain ⟨hstart, htotal⟩ := hpr rfl
  obtain ⟨-, hhigh, hstep⟩ := mul_ceil_bounds (n := n) (a := g + 3 * h) (by omega) (by omega)
  have hroom : i' ≤ n * ((g + 3 * h + n - 1) / n - 1) := by
    rcases Nat.lt_or_ge (3 * h) n with hbig | hsmall
    · obtain ⟨rfl, rfl⟩ : n = 512 ∧ h = 128 := by omega
      subst hh
      omega
    · omega
  have hlast' : g ≤ i' + h := hlast.elim (fun hk => by subst hk; omega) id
  refine ⟨by omega, hshort, min_dvd_after_block hn hg hh hi hdvd, (fun hp => nomatch hp), fun _ => ⟨hlast', ?_⟩⟩
  omega

/-- A block of n samples and k hops later: still unprimed, or primed with a block to give, which leaves the primed counters. -/
theorem ServiceCounts.block (hc : ServiceCounts n g h i o primed) :
    ((primed || decide (0 < k ∧ g ≤ o + k * h)) = false → ServiceCounts n g h i' (o + k * h) false) ∧
    ((primed || decide (0 < k ∧ g ≤ o + k * h)) = true → n ≤ o + k * h ∧ ServiceCounts n g h i' (o + k * h - n) true) := by
  cases primed with
  | false =>
    simp only [Bool.false_or, decide_eq_false_iff_not, decide_eq_true_eq]
    exact ⟨hc.block_unprimed hn hg hh hi hshort hlast, fun ⟨hk, hfull⟩ => hc.block_priming hn hg hh hi hshort hlast hk hfull⟩
  | true => exact ⟨(fun hp => nomatch hp), fun _ => hc.block_primed hn hg hh hi hshort hlast⟩

end Block

end Counts

end Sys2Proof.Machine

/-! PROOFS. The grain loop and the blocks of a machine in service (R261 to R266, R279, R347). -/

namespace Sys2Proof.Machine

theorem State.inService_iff {s : State} : s.InService ↔
    s.Sound ∧ s.seq = .run ∧
    s.ibuf.cap.toNat = 8 * s.grainSize.toNat ∧ s.obuf.cap.toNat = 8 * s.grainSize.toNat ∧
    ServiceCounts s.params.blockSize s.grainSize.toNat s.hopSize.toNat s.ibuf.cnt.toNat s.obuf.cnt.toNat s.primed :=
  Iff.rfl

theorem State.InService.sound {s : State} (h : s.InService) : s.Sound := (State.inService_iff.1 h).1

theorem State.InService.respond {s : State} (h : s.InService) (resp : Response) : { s with resp := resp }.InService := by
  obtain ⟨hs, hrest⟩ := State.inService_iff.1 h
  exact State.inService_iff.2 ⟨hs.respond resp, hrest⟩

/-- A machine in service has raised no fault. -/
theorem State.InService.fault_eq {s : State} (h : s.InService) : s.fault = 0#4 := by
  obtain ⟨hs, hrun, -⟩ := State.inService_iff.1 h
  obtain ⟨-, -, -, -, -, -, -, -, hf, -⟩ := hs
  by_contra hne
  rw [hf.2 hne] at hrun
  cases hrun

/-! ### Power-on, CTL and STS (R342, R347) -/

/-- Empty buffers of eight grains each, unprimed, are in service. -/
theorem serviceCounts_zero {n g h : Nat} (hg : 0 < g) : ServiceCounts n g h 0 0 false :=
  ⟨hg, dvd_zero _, fun _ => ⟨dvd_zero _, Nat.zero_le _, dvd_zero _, .inl rfl⟩, fun hp => nomatch hp⟩

theorem State.powerOn_inService {p : Params} (hp : p.legal = true) : (State.powerOn p).InService := by
  obtain ⟨-, hsize⟩ := Params.legal_iff.1 hp
  have hcases := legalGrainSize_cases hsize
  have hcap := eightGrains_toNat hsize
  exact State.inService_iff.2 ⟨State.powerOn_sound hp, rfl, hcap, hcap, serviceCounts_zero (by show 0 < p.initGrainSize.toNat; omega)⟩

theorem State.InService.post {s : State} (h : s.InService) {m : Posting} (hs : (s.post m).Sound) : (s.post m).InService := by
  obtain ⟨-, hrest⟩ := State.inService_iff.1 h
  refine State.inService_iff.2 ⟨hs, ?_⟩
  cases m <;> exact hrest

/-- Settles O43: power-on clears, a posting changes no counter, STATUS_READ only the response. -/
theorem powerOnAndControlKeepService : Obligations.PowerOnAndControlKeepService := by
  refine ⟨fun _ => State.powerOn_inService, fun w s h => ?_, fun addr s h => ⟨_, rfl, h.respond _⟩⟩
  obtain ⟨m, -, hexec⟩ := exec_decodeCtl w
  exact ⟨decodeCtl w, s.post m, rfl, hexec s, h.post (h.sound.exec (hexec s))⟩

/-! ### The mailbox keeps service -/

theorem State.InService.settled {s : State} (h : s.InService) : s.settled.InService := by
  obtain ⟨hs, hrun, hicap, hocap, hcounts⟩ := State.inService_iff.1 h
  obtain ⟨-, -, hlegal⟩ := hs.settles
  have hsettled := hs.settled
  by_cases hgs : s.pendGsV = true
  · have hcases := legalGrainSize_cases (hlegal hgs)
    have hcap := eightGrains_toNat (hlegal hgs)
    rw [State.settled_of_size hgs] at hsettled ⊢
    exact State.inService_iff.2 ⟨hsettled, hrun, hcap, hcap, serviceCounts_zero (by show 0 < s.pendGs.toNat; omega)⟩
  · by_cases hrst : s.pendRst = true
    · have hcases := legalGrainSize_cases hs.registers.grainSize
      rw [State.settled_of_reset (Bool.eq_false_iff.2 hgs) hrst] at hsettled ⊢
      exact State.inService_iff.2 ⟨hsettled, hrun, hicap, hocap, serviceCounts_zero (by show 0 < s.grainSize.toNat; omega)⟩
    · rw [State.settled_of_neither (Bool.eq_false_iff.2 hgs) (Bool.eq_false_iff.2 hrst)] at hsettled ⊢
      exact State.inService_iff.2 ⟨hsettled, hrun, hicap, hocap, hcounts⟩

/-! ### The grain loop (R263, R266) -/

/-- The grain loop of k cycles from s to t: the counters after k hops, the priming, and the same k transactions run one by one. -/
structure State.LoopRun (k : Nat) (s t : State) : Prop where
  kept : s.GrainKept t
  sound : t.Sound
  icnt : t.ibuf.cnt.toNat + k * s.hopSize.toNat = s.ibuf.cnt.toNat
  ocnt : t.obuf.cnt.toNat = s.obuf.cnt.toNat + k * s.hopSize.toNat
  short : t.ibuf.cnt.toNat < s.grainSize.toNat
  last : k = 0 ∨ s.grainSize.toNat ≤ t.ibuf.cnt.toNat + s.hopSize.toNat
  primed : t.primed = (s.primed || decide (0 < k ∧ s.grainSize.toNat ≤ t.obuf.cnt.toNat))
  runs : ∀ r, State.runAll (List.replicate k .grainCycle) { s with resp := r } =
    .next { t with resp := if k = 0 then r else .done }

/-- No step of a grain cycle reads the response that stands. -/
theorem State.grainCycle_resp {s t : State} (h : s.grainCycle = .ok t) (r : Response) :
    { s with resp := r }.grainCycle = .ok { t with resp := r } := by
  obtain ⟨hs⟩ := State.grainCycle_ok_steps h
  have hg : { s with resp := r }.grainExtract = .ok hs.g := State.grainExtract_eq_ok.2 (State.grainExtract_eq_ok.1 hs.extract)
  have hsteps : GrainSteps { s with resp := r } { t with resp := r } :=
    ⟨hs.g, hs.y, hs.sv, hs.ib, hs.ob1, hs.ob2, hg, hs.advRd, hs.resample, hs.synth, hs.accum, hs.advWr,
      congrArg (fun u : State => { u with resp := r }) hs.result⟩
  exact hsteps.grainCycle_eq

theorem State.LoopRun.zero {s : State} (hs : s.Sound) (hshort : s.ibuf.cnt.toNat < s.grainSize.toNat) : s.LoopRun 0 s where
  kept := .refl s
  sound := hs
  icnt := by omega
  ocnt := by omega
  short := hshort
  last := .inl rfl
  primed := by simp
  runs _ := rfl

theorem State.LoopRun.succ {k : Nat} {s t u : State} (hin : s.grainSize.toNat ≤ s.ibuf.cnt.toNat) (hsteps : GrainSteps s t)
    (h : t.LoopRun k u) : s.LoopRun (k + 1) u where
  kept := hsteps.kept.trans h.kept
  sound := h.sound
  icnt := by
    have hi := hsteps.icnt
    have hi' := h.icnt
    rw [hsteps.kept.hopSize] at hi'
    rw [Nat.succ_mul]
    omega
  ocnt := by
    have ho := hsteps.ocnt
    have ho' := h.ocnt
    rw [hsteps.kept.hopSize] at ho'
    rw [Nat.succ_mul]
    omega
  short := hsteps.kept.grainSize ▸ h.short
  last := by
    have hi := hsteps.icnt
    have hi' := h.icnt
    have hlast := h.last
    rw [hsteps.kept.hopSize] at hi' hlast
    rw [hsteps.kept.grainSize] at hlast
    refine .inr ?_
    rcases hlast with rfl | hlast
    · omega
    · exact hlast
  primed := by
    have ho' := h.ocnt
    rw [h.primed, hsteps.primed_eq, hsteps.kept.grainSize, Bool.or_assoc, ← Bool.decide_or]
    congr 2
    refine propext ?_
    rcases Nat.eq_zero_or_pos k with rfl | hk
    · omega
    · omega
  runs r := by
    have hc := State.grainCycle_resp hsteps.grainCycle_eq r
    rw [List.replicate_succ, State.runAll, exec_grainCycle_of_ok hc]
    dsimp only
    rw [h.runs .done, if_neg (Nat.succ_ne_zero k), ite_self]

/-- With capacity for eight grains and at most four of them held, the grain loop completes: each cycle moves a hop from one buffer
to the other, so the total never grows. -/
theorem State.grainLoop_run (fuel : Nat) : ∀ {s : State}, s.Sound → s.obuf.cap.toNat = 8 * s.grainSize.toNat →
    s.ibuf.cnt.toNat + s.obuf.cnt.toNat ≤ 4 * s.grainSize.toNat →
    s.ibuf.cnt.toNat < s.grainSize.toNat + fuel * s.hopSize.toNat →
    ∃ k t, k ≤ fuel ∧ State.grainLoop fuel s = .ok t ∧ s.LoopRun k t := by
  induction fuel with
  | zero =>
    intro s hs _ _ hfuel
    exact ⟨0, s, le_rfl, rfl, .zero hs (by omega)⟩
  | succ fuel ih =>
    intro s hs hcap htotal hfuel
    rw [Nat.succ_mul] at hfuel
    by_cases hin : s.grainSize.toNat ≤ s.ibuf.cnt.toNat
    · obtain ⟨t, ht, ⟨hsteps⟩⟩ := State.grainCycle_completes hs hin (by omega)
      have hi := hsteps.icnt
      have ho := hsteps.ocnt
      have hkept := hsteps.kept
      obtain ⟨k, u, hk, hu, hrun⟩ := ih (hs.grainCycle ht) (by rw [hkept.ocap, hkept.grainSize, hcap])
        (by rw [hkept.grainSize]; omega) (by rw [hkept.grainSize, hkept.hopSize]; omega)
      refine ⟨k + 1, u, Nat.succ_le_succ hk, ?_, .succ hin hsteps hrun⟩
      rw [State.grainLoop, if_pos hin, ht]
      exact hu
    · exact ⟨0, s, Nat.zero_le _, if_neg hin, .zero hs (by omega)⟩

/-! ### An Active block in service -/

/-- What the input side of an Active block does: it writes the block, and k grain cycles leave less than a grain. -/
structure State.ActiveRun (ch0 : List Word) (k : Nat) (s : State) (b : Buf) (v : State) : Prop where
  write : s.ibuf.write ch0 = .ok b
  fuel : k ≤ s.maxGrains
  loop : State.grainLoop s.maxGrains { s with ibuf := b } = .ok v
  run : State.LoopRun k { s with ibuf := b } v

theorem Buf.write_cnt {b b' : Buf} {v : List Word} (h : b.write v = .ok b') : b'.cnt.toNat = b.cnt.toNat + v.length := by
  obtain ⟨hroom, rfl⟩ := Buf.write_eq_ok.1 h
  exact Buf.count_toNat hroom

/-- MAX_GRAINS cycles are enough for a block (R19). -/
theorem State.blockSize_lt_maxGrains {s : State} (h : 0 < s.hopSize.toNat) :
    s.params.blockSize < s.maxGrains * s.hopSize.toNat := by
  rw [State.maxGrains, Nat.mul_comm]
  exact Nat.lt_mul_div_succ _ h

section Active

variable {s : State} (hs : s.InService) {ch0 : List Word} (hch0 : ch0.length = s.params.blockSize)

include hs hch0

theorem State.InService.activeRun : ∃ k b v, s.ActiveRun ch0 k b v := by
  obtain ⟨hsound, -, hicap, hocap, hcounts⟩ := State.inService_iff.1 hs
  have hreg := hsound.registers
  have hn := legalBlockSize_cases hreg.blockSize
  have hg := legalGrainSize_cases hreg.grainSize
  have hhop := hreg.hop
  have htotal := hcounts.total_lt (by omega)
  have hmax := State.blockSize_lt_maxGrains (s := s) (by omega)
  obtain ⟨hshort, -⟩ := hcounts
  obtain ⟨b, hb⟩ : ∃ b, s.ibuf.write ch0 = .ok b := ⟨_, Buf.write_eq_ok.2 ⟨by omega, rfl⟩⟩
  have hcnt := Buf.write_cnt hb
  have hwritten : { s with ibuf := b }.Sound :=
    hsound.update (Buf.write_sound hsound.ibuf hb) hsound.obuf hsound.synthLen _ _ _
  obtain ⟨k, v, hk, hv, hrun⟩ := State.grainLoop_run s.maxGrains hwritten hocap
    (show b.cnt.toNat + s.obuf.cnt.toNat ≤ 4 * s.grainSize.toNat by omega)
    (show b.cnt.toNat < s.grainSize.toNat + s.maxGrains * s.hopSize.toNat by omega)
  exact ⟨k, b, v, hb, hk, hv, hrun⟩

end Active

section ActiveRun

variable {s v : State} {ch0 : List Word} {k : Nat} {b : Buf} (hs : s.InService) (hch0 : ch0.length = s.params.blockSize)
  (h : s.ActiveRun ch0 k b v)

include h

theorem State.ActiveRun.kept : s.GrainKept v := (State.GrainKept.setIbuf s (Buf.write_cap h.write)).trans h.run.kept

include hs hch0

/-- After the input side: in service where PRIMED is still 0, and with a block to give where it is 1. -/
theorem State.ActiveRun.counts :
    (v.primed = false → v.InService) ∧
    (v.primed = true → s.params.blockSize ≤ v.obuf.cnt.toNat ∧
      ServiceCounts s.params.blockSize s.grainSize.toNat s.hopSize.toNat v.ibuf.cnt.toNat
        (v.obuf.cnt.toNat - s.params.blockSize) true) ∧
    v.ibuf.cnt.toNat + v.obuf.cnt.toNat = s.ibuf.cnt.toNat + s.obuf.cnt.toNat + s.params.blockSize := by
  obtain ⟨hsound, hrun, hicap, hocap, hcounts⟩ := State.inService_iff.1 hs
  have hreg := hsound.registers
  have hkept := h.kept
  have hcnt : b.cnt.toNat = s.ibuf.cnt.toNat + s.params.blockSize := hch0 ▸ Buf.write_cnt h.write
  have hicnt : v.ibuf.cnt.toNat + k * s.hopSize.toNat = s.ibuf.cnt.toNat + s.params.blockSize := h.run.icnt.trans hcnt
  have hocnt : v.obuf.cnt.toNat = s.obuf.cnt.toNat + k * s.hopSize.toNat := h.run.ocnt
  have hprimed : v.primed = (s.primed || decide (0 < k ∧ s.grainSize.toNat ≤ s.obuf.cnt.toNat + k * s.hopSize.toNat)) := by
    rw [← hocnt]
    exact h.run.primed
  obtain ⟨hun, hpr⟩ := hcounts.block hreg.blockSize hreg.grainSize hreg.hop hicnt h.run.short h.run.last
  rw [← hprimed, ← hocnt] at hun hpr
  refine ⟨fun hp => State.inService_iff.2 ⟨h.run.sound, hkept.seq.trans hrun, ?_, ?_, ?_⟩, hpr, by omega⟩
  · rw [hkept.icap, hkept.grainSize, hicap]
  · rw [hkept.ocap, hkept.grainSize, hocap]
  · rw [hkept.params, hkept.grainSize, hkept.hopSize, hp]
    exact hun hp

/-- READ of a primed block's samples leaves the machine in service. -/
theorem State.ActiveRun.read_inService (hp : v.primed = true) {ob : Buf} {o : List Word}
    (hob : v.obuf.read v.params.blockSize true = .ok (ob, o)) : { v with obuf := ob }.InService := by
  obtain ⟨hsound, hrun, hicap, hocap, -⟩ := State.inService_iff.1 hs
  obtain ⟨-, hpr, -⟩ := h.counts hs hch0
  obtain ⟨-, hcounts⟩ := hpr hp
  have hkept := h.kept
  have hvs := h.run.sound
  obtain ⟨hle, -, hob'⟩ := Buf.read_eq_ok.1 hob
  have hcap : ob.cap = v.obuf.cap := by rw [hob']; exact Buf.takeCells_cap _ _ _ _
  have hcnt : ob.cnt.toNat = v.obuf.cnt.toNat - s.params.blockSize := by
    rw [hob', ← hkept.params]
    exact Buf.count_toNat ((Nat.sub_le _ _).trans hvs.obuf.cnt_le_cap)
  refine State.inService_iff.2 ⟨hvs.update hvs.ibuf (Buf.read_sound hvs.obuf hob) hvs.synthLen _ _ _, hkept.seq.trans hrun,
    ?_, ?_, ?_⟩
  · show v.ibuf.cap.toNat = 8 * v.grainSize.toNat
    rw [hkept.icap, hkept.grainSize, hicap]
  · show ob.cap.toNat = 8 * v.grainSize.toNat
    rw [hcap, hkept.ocap, hkept.grainSize, hocap]
  · show ServiceCounts v.params.blockSize v.grainSize.toNat v.hopSize.toNat v.ibuf.cnt.toNat ob.cnt.toNat v.primed
    rw [hkept.params, hkept.grainSize, hkept.hopSize, hcnt, hp]
    exact hcounts

theorem State.ActiveRun.read_ok (hp : v.primed = true) :
    ∃ ob o, v.obuf.read v.params.blockSize true = .ok (ob, o) := by
  obtain ⟨-, hpr, -⟩ := h.counts hs hch0
  obtain ⟨hle, -⟩ := hpr hp
  exact ⟨_, _, Buf.read_eq_ok.2 ⟨h.kept.params ▸ hle, rfl, rfl⟩⟩

end ActiveRun

/-- The output of an Active block after its input side: the samples READ takes, or silence. -/
theorem State.processBlock_active {s u v : State} {ch0 : List Word} {k : Nat} {b : Buf} (hu : s.applyMailbox = .ok u)
    (hbypass : u.bypass = false) (h : u.ActiveRun ch0 k b v) : s.processBlock ch0 = v.activeOutput := by
  rw [State.processBlock_eq hu, if_neg (by rw [hbypass]; decide)]
  simp only [State.activeInput, h.write, State.orRaise_ok, h.loop]

theorem State.activeOutput_of_read {v : State} (hp : v.primed = true) {ob : Buf} {o : List Word}
    (hob : v.obuf.read v.params.blockSize true = .ok (ob, o)) : v.activeOutput = .ok ({ v with obuf := ob }, o) := by
  simp only [State.activeOutput, hp, hob, if_true, State.orRaise_ok]

theorem State.activeOutput_of_unprimed {v : State} (hp : v.primed = false) :
    v.activeOutput = .ok (v, List.replicate v.params.blockSize Word.silence) := by
  simp only [State.activeOutput, hp, Bool.false_eq_true, if_false]

/-- Channel 0 of a block of the right shape, where there is a channel at all (R13). -/
theorem length_headD_of_blockShape {p : Params} {inp : List (List Word)} (hp : p.legal = true)
    (h : p.blockShape inp = true) : (inp.headD []).length = p.blockSize := by
  obtain ⟨⟨⟨-, hchannels⟩, -⟩, -⟩ := Params.legal_iff.1 hp
  obtain ⟨hlen, hsamples⟩ := blockShape_iff.1 h
  cases inp with
  | nil => simp only [List.length_nil] at hlen; omega
  | cons c rest => exact hsamples c (List.mem_cons_self ..)

theorem State.InService.params_legal {s : State} (h : s.InService) : s.params.legal = true := by
  obtain ⟨hp, -⟩ := h.sound
  exact hp

/-- The body of a block in service completes, and keeps the machine in service. -/
theorem State.InService.processBlock {s : State} (hs : s.InService) {ch0 : List Word}
    (hch0 : ch0.length = s.params.blockSize) : ∃ t o, s.processBlock ch0 = .ok (t, o) ∧ t.InService := by
  have hu := hs.sound.applyMailbox_eq
  cases hbypass : s.settled.bypass with
  | true => exact ⟨s.settled, ch0, by rw [State.processBlock_eq hu, if_pos hbypass], hs.settled⟩
  | false =>
    have hch0' : ch0.length = s.settled.params.blockSize := by rwa [State.settled_params]
    obtain ⟨k, b, v, h⟩ := hs.settled.activeRun hch0'
    rw [State.processBlock_active hu hbypass h]
    cases hp : v.primed with
    | true =>
      obtain ⟨ob, o, hob⟩ := h.read_ok hs.settled hch0' hp
      exact ⟨_, o, State.activeOutput_of_read hp hob, h.read_inService hs.settled hch0' hp hob⟩
    | false => exact ⟨v, _, State.activeOutput_of_unprimed hp, (h.counts hs.settled hch0').1 hp⟩

/-- Settles O42: the mailbox leaves service, the counters leave room for every cycle and samples for the output. -/
theorem blockInServiceNeverFaults : Obligations.BlockInServiceNeverFaults := by
  intro inp s hs hshape
  obtain ⟨t, o, ht, hservice⟩ := hs.processBlock (length_headD_of_blockShape hs.params_legal hshape)
  obtain ⟨-, hrun, -⟩ := State.inService_iff.1 hs
  exact ⟨_, _, exec_processBlock_of_ok hrun hshape ht, rfl, hservice.fault_eq, hservice.respond _⟩

/-! ### The transactions of an Active block (R261, R263, R264) -/

theorem exec_write_of_ok {i : BufId} (z : Bool) (off : BitVec 16) {din : List Word} {s : State} {b : Buf}
    (h : (s.buf i).write din = .ok b) : exec (.write i z off din) s = .next (s.setBuf i b) :=
  State.finishBuf_of_ok h

/-- WRITE and k grain cycles run one after another give the state of the input side, but for the response they leave. -/
theorem State.ActiveRun.runAll {s v : State} {ch0 : List Word} {k : Nat} {b : Buf} (h : s.ActiveRun ch0 k b v) :
    State.runAll (.write .ibuf false 0#16 ch0 :: List.replicate k .grainCycle) s =
      .next { v with resp := if k = 0 then s.resp else .done } := by
  rw [State.runAll, exec_write_of_ok (i := .ibuf) false 0#16 h.write]
  exact h.run.runs s.resp

/-- Settles O39: the input side is WRITE and k grain cycles, the output side READ or silence; the response that stands between them
is read by nothing. -/
theorem activeBlockIsItsTransactions : Obligations.ActiveBlockIsItsTransactions := by
  intro inp s u hs hshape hu hbypass
  obtain rfl := State.applyMailbox_ok_eq hu
  have hch0 : (inp.headD []).length = s.settled.params.blockSize := by
    rw [State.settled_params]
    exact length_headD_of_blockShape hs.params_legal hshape
  obtain ⟨-, hrun, -⟩ := State.inService_iff.1 hs
  obtain ⟨k, b, v, h⟩ := hs.settled.activeRun hch0
  have hkept := h.kept
  have hparams : v.params.blockSize = s.params.blockSize := by rw [hkept.params, State.settled_params]
  have hseq : v.seq = .run := by rw [hkept.seq, State.settled_seq, hrun]
  have hshort : v.ibuf.cnt.toNat < v.grainSize.toNat := hkept.grainSize ▸ h.run.short
  have hbody := State.processBlock_active hu hbypass h
  cases hp : v.primed with
  | true =>
    obtain ⟨ob, o, hob⟩ := h.read_ok hs.settled hch0 hp
    have hblock := exec_processBlock_of_ok hrun hshape (hbody.trans (State.activeOutput_of_read hp hob))
    have hn : (BitVec.ofNat 16 s.params.blockSize).toNat = v.params.blockSize := by
      have := legalBlockSize_cases hs.sound.registers.blockSize
      rw [hparams, BitVec.toNat_ofNat, Nat.mod_eq_of_lt (by omega)]
    refine ⟨k, _, { v with obuf := ob }, o, h.fuel, h.runAll, hseq, hshort, hblock, fun _ => ?_, fun hun => ?_⟩
    · exact exec_read_of_ok (i := .obuf) 0#16 (hn.symm ▸ hob)
    · exact absurd (hp.symm.trans hun) (by decide)
  | false =>
    have hblock := exec_processBlock_of_ok hrun hshape (hbody.trans (State.activeOutput_of_unprimed hp))
    refine ⟨k, _, { v with resp := if k = 0 then s.settled.resp else .done }, _, h.fuel, h.runAll, hseq, hshort, hblock,
      fun hpr => ?_, fun _ => ⟨rfl, ?_⟩⟩
    · exact absurd (hp.symm.trans hpr) (by decide)
    · rw [hparams]

end Sys2Proof.Machine

/-! PROOFS. Priming (R279, R347 item 4): the Active blocks from cleared buffers to the first that returns OBUF data. -/

namespace Sys2Proof.Machine

/-- What priming starts from and each unprimed block keeps: in service and Active, nothing pending, unprimed. -/
structure State.Priming (s : State) : Prop where
  service : s.InService
  mailbox : s.MailboxEmpty
  active : s.bypass = false
  unprimed : s.primed = false

theorem State.InService.params_blockSize_pos {s : State} (h : s.InService) : 0 < s.params.blockSize := by
  have := legalBlockSize_cases h.sound.registers.blockSize
  omega

/-- The k0 of the statement is the ceiling that the counters use. -/
theorem State.primingBlocks_bounds {s : State} (h : s.InService) :
    s.params.blockSize * (s.primingBlocks - 1) < s.grainSize.toNat + 3 * s.hopSize.toNat ∧
    s.grainSize.toNat + 3 * s.hopSize.toNat ≤ s.params.blockSize * s.primingBlocks := by
  have hg := legalGrainSize_cases h.sound.registers.grainSize
  obtain ⟨hlow, hhigh, -⟩ := mul_ceil_bounds (a := s.grainSize.toNat + 3 * s.hopSize.toNat) h.params_blockSize_pos (by omega)
  exact ⟨hlow, hhigh⟩

/-- Blocks taken so far, j of them, all still in the two buffers: fewer than k0. -/
theorem State.Priming.lt_primingBlocks {s : State} (h : s.Priming) {j : Nat}
    (hj : s.ibuf.cnt.toNat + s.obuf.cnt.toNat = s.params.blockSize * j) : j < s.primingBlocks := by
  obtain ⟨-, -, -, -, hcounts⟩ := State.inService_iff.1 h.service
  have htotal := hcounts.total_lt h.service.params_blockSize_pos
  obtain ⟨-, hhigh⟩ := State.primingBlocks_bounds h.service
  exact Nat.lt_of_mul_lt_mul_left (hj ▸ htotal.trans_le hhigh)

/-- One block of priming: silent with one more block held, or the one that primes. -/
theorem State.Priming.block {s : State} (h : s.Priming) {inp : List (List Word)} (hshape : s.params.blockShape inp = true)
    {j : Nat} (hj : s.ibuf.cnt.toNat + s.obuf.cnt.toNat = s.params.blockSize * j) :
    ∃ t o, exec (.processBlock inp) s = .next t ∧ t.resp = .block (List.replicate s.params.channels o) ∧
      ((t.primed = true ∧ j + 1 = s.primingBlocks) ∨
       (t.Priming ∧ t.params = s.params ∧ t.primingBlocks = s.primingBlocks ∧
        o = List.replicate s.params.blockSize Word.silence ∧
        t.ibuf.cnt.toNat + t.obuf.cnt.toNat = s.params.blockSize * (j + 1))) := by
  have hs := h.service
  have hch0 := length_headD_of_blockShape hs.params_legal hshape
  obtain ⟨-, hrun, -⟩ := State.inService_iff.1 hs
  obtain ⟨k, b, v, hactive⟩ := hs.activeRun hch0
  have hkept := hactive.kept
  have hbody := State.processBlock_active (State.applyMailbox_empty h.mailbox) h.active hactive
  obtain ⟨hun, hpr, htotal⟩ := hactive.counts hs hch0
  cases hp : v.primed with
  | true =>
    obtain ⟨ob, o, hob⟩ := hactive.read_ok hs hch0 hp
    refine ⟨_, o, exec_processBlock_of_ok hrun hshape (hbody.trans (State.activeOutput_of_read hp hob)), rfl,
      .inl ⟨hp, ?_⟩⟩
    obtain ⟨hle, hcounts⟩ := hpr hp
    obtain ⟨-, -, -, hprimed⟩ := hcounts
    obtain ⟨-, htotal'⟩ := hprimed rfl
    have hlt := h.lt_primingBlocks hj
    have hsame : s.params.blockSize * j = s.params.blockSize * (s.primingBlocks - 1) := by
      rw [State.primingBlocks]
      omega
    have := Nat.eq_of_mul_eq_mul_left hs.params_blockSize_pos hsame
    omega
  | false =>
    refine ⟨_, _, exec_processBlock_of_ok hrun hshape (hbody.trans (State.activeOutput_of_unprimed hp)), rfl,
      .inr ⟨⟨(hun hp).respond _, ?_, ?_, hp⟩, hkept.params, ?_, ?_, ?_⟩⟩
    · obtain ⟨hpitch, hsize, hreset⟩ := h.mailbox
      exact ⟨hkept.pendPitchV.trans hpitch, hkept.pendGsV.trans hsize, hkept.pendRst.trans hreset⟩
    · rw [State.bypass, hkept.pitchRatio]
      exact h.active
    · simp only [State.primingBlocks, hkept.params, hkept.grainSize, hkept.hopSize]
    · rw [hkept.params]
    · rw [Nat.mul_succ, ← hj]
      exact htotal

theorem State.runBlocks_cons {inp : List (List Word)} {rest : List (List (List Word))} {s t : State}
    {out : List (List Word)} (h : exec (.processBlock inp) s = .next t) (hout : t.resp = .block out) :
    State.runBlocks (inp :: rest) s = ((State.runBlocks rest t).1, out.headD [] :: (State.runBlocks rest t).2) := by
  simp only [State.runBlocks, h, hout]

theorem headD_replicate {α : Type} {n : Nat} (hn : 1 ≤ n) (a d : α) : (List.replicate n a).headD d = a := by
  obtain ⟨m, rfl⟩ := Nat.exists_eq_add_of_le' hn
  rfl

/-- Priming with j blocks taken: the blocks that still do not reach k0 are silent, the one that does primes. -/
theorem State.Priming.runBlocks (blocks : List (List (List Word))) : ∀ {s : State} {j : Nat}, s.Priming →
    s.ibuf.cnt.toNat + s.obuf.cnt.toNat = s.params.blockSize * j → (∀ inp ∈ blocks, s.params.blockShape inp = true) →
    1 ≤ s.params.channels →
    (j + blocks.length < s.primingBlocks →
      (s.runBlocks blocks).2 = List.replicate blocks.length (List.replicate s.params.blockSize Word.silence) ∧
      (s.runBlocks blocks).1.primed = false) ∧
    (j + blocks.length = s.primingBlocks → (s.runBlocks blocks).1.primed = true) := by
  induction blocks with
  | nil =>
    intro s j h hj _ _
    exact ⟨fun _ => ⟨rfl, h.unprimed⟩, fun heq => absurd heq (h.lt_primingBlocks hj).ne⟩
  | cons inp rest ih =>
    intro s j h hj hshapes hchannels
    obtain ⟨t, o, hexec, hresp, hcases⟩ := h.block (hshapes inp (List.mem_cons_self ..)) hj
    rw [State.runBlocks_cons hexec hresp, headD_replicate hchannels, List.length_cons]
    dsimp only
    rcases hcases with ⟨hp, hlast⟩ | ⟨ht, hparams, hblocks, rfl, hj'⟩
    · refine ⟨fun hlt => by omega, fun heq => ?_⟩
      obtain rfl : rest = [] := List.eq_nil_of_length_eq_zero (by omega)
      exact hp
    · obtain ⟨hsilent, hprimes⟩ := ih ht (hparams.symm ▸ hj')
        (fun inp' hin => hparams.symm ▸ hshapes inp' (List.mem_cons_of_mem _ hin)) (hparams.symm ▸ hchannels)
      rw [hblocks, hparams] at hsilent
      rw [hblocks] at hprimes
      refine ⟨fun hlt => ?_, fun heq => hprimes (by omega)⟩
      obtain ⟨hout, hun⟩ := hsilent (by omega)
      rw [hout, List.replicate_succ]
      exact ⟨rfl, hun⟩

/-- Settles O44, by induction on the blocks, counting those held. -/
theorem primingTakesK0ActiveBlocks : Obligations.PrimingTakesK0ActiveBlocks := by
  intro blocks s hs hmailbox hactive hi ho hp hshapes hchannels
  have h := State.Priming.runBlocks blocks (j := 0) ⟨hs, hmailbox, hactive, hp⟩ (by omega) hshapes hchannels
  rwa [Nat.zero_add] at h

end Sys2Proof.Machine

/-! PROOFS. RESAMPLE at ratio 1.0 (R206): exact operations, sums that stay finite, and zeros that leave a sample as it is. -/

namespace Sys2Proof.Machine

/-! ### Exact operations (R24) -/

theorem F32.low31_eq_of_mag_eq {v w : Word} (h : F32.mag v = F32.mag w) : v.toNat % 2 ^ 31 = w.toNat % 2 ^ 31 :=
  le_antisymm (F32.mag_le_mag_iff.1 h.le) (F32.mag_le_mag_iff.1 h.ge)

theorem F32.low31_of_finite {w : Word} (h : F32.isFinite w = true) : w.toNat % 2 ^ 31 < 0x7F800000 := by
  have hlow := F32.low31 w
  have hexp := F32.expField_lt w
  have hfrac := F32.fracField_lt w
  have hne : F32.expField w ≠ 255 := by simpa [F32.isFinite] using h
  omega

/-- A value that a finite word has rounds to that word. -/
theorem F32.roundMag_exact {n k : Nat} {w : Word} (hw : F32.isFinite w = true) (h : n * 2 ^ 149 = F32.mag w * 2 ^ k) :
    F32.roundMag n k = w.toNat % 2 ^ 31 := by
  have hw' := F32.low31_of_finite hw
  have hle := F32.mag_pack_roundMag_le false hw' h.le
  have hge := F32.le_mag_pack_roundMag false (F32.lt_threshold hw' h.le) h.ge
  have hround := F32.roundMag_le n k
  rw [← F32.low31_eq_of_mag_eq (le_antisymm hle hge), F32.pack_toNat false (by omega), if_neg Bool.false_ne_true,
    Nat.mod_eq_of_lt (by omega)]

/-- A word is its sign over its magnitude bits. -/
theorem F32.pack_sign_low31 (w : Word) : F32.pack (F32.sign w) (w.toNat % 2 ^ 31) = w := by
  have hlt := w.isLt
  refine BitVec.eq_of_toNat_eq ?_
  rw [F32.pack_toNat _ (Nat.mod_lt _ (by decide))]
  by_cases hs : 2 ^ 31 ≤ w.toNat
  · rw [F32.sign, decide_eq_true hs, if_pos rfl]
    omega
  · rw [F32.sign, decide_eq_false hs, if_neg Bool.false_ne_true]
    omega

theorem F32.mag_one : F32.mag Word.one = 2 ^ 149 := by decide

theorem fmul_one {w : Word} (hw : F32.isFinite w = true) : fmul w Word.one = w := by
  obtain ⟨hmul, -⟩ := fmul_finite hw (b := Word.one) (by decide)
  have hsign : (F32.sign w != F32.sign Word.one) = F32.sign w := by
    rw [show F32.sign Word.one = false by decide, Bool.bne_false]
  rw [hmul, hsign, F32.mag_one, F32.roundMag_exact hw (by rw [Nat.mul_assoc, show 298 = 149 + 149 from rfl, Nat.pow_add]), F32.pack_sign_low31]

theorem F32.neg_low31 (w : Word) : (F32.neg w).toNat % 2 ^ 31 = w.toNat % 2 ^ 31 := by
  rw [F32.neg, BitVec.toNat_xor, Nat.xor_mod_two_pow]
  exact Nat.xor_zero _

theorem F32.sign_eq_msb (w : Word) : F32.sign w = w.msb := (BitVec.msb_eq_decide w).symm

theorem F32.sign_neg (w : Word) : F32.sign (F32.neg w) = !F32.sign w := by
  rw [F32.sign_eq_msb, F32.sign_eq_msb, F32.neg, BitVec.msb_xor, show (0x80000000#32).msb = true by decide, Bool.xor_true]

theorem F32.mag_neg (w : Word) : F32.mag (F32.neg w) = F32.mag w := F32.mag_of_low31_eq (F32.neg_low31 w)

theorem F32.isFinite_neg {w : Word} (h : F32.isFinite w = true) : F32.isFinite (F32.neg w) = true := by
  refine F32.isFinite_of_low31_lt ?_
  rw [F32.neg_low31]
  exact F32.low31_of_finite h

/-- The difference of a finite word and itself is +0.0. -/
theorem fsub_self {w : Word} (h : F32.isFinite w = true) : fsub w w = 0#32 := by
  have h' := F32.isFinite_neg h
  have hzero : F32.scaled w + F32.scaled (F32.neg w) = 0 := by
    simp only [F32.scaled_eq_signedInt, F32.sign_neg, F32.mag_neg]
    cases F32.sign w <;> simp [signedInt]
  unfold fsub F32.sum
  rw [F32.isNaN_of_isFinite h, F32.isNaN_of_isFinite h', F32.isInf_of_isFinite h, F32.isInf_of_isFinite h', hzero,
    F32.sign_neg]
  cases F32.sign w <;> rfl

/-- An integer below 2^24 is a binary32 value: the unit of its rounding divides it. -/
theorem F32.ofNat_exact {i : Nat} (hi : i < 2 ^ 24) :
    F32.isFinite (F32.ofNat i) = true ∧ F32.mag (F32.ofNat i) = i * 2 ^ 149 := by
  have hthreshold : i * 2 ^ 149 < (2 ^ 25 - 1) * 2 ^ (252 + 0) := by omega
  have hfin := (F32.isFinite_pack_roundMag i 0 false).2 hthreshold
  obtain ⟨u, q, hr, -, hmag, -⟩ := F32.pack_roundMag_finite hfin
  refine ⟨hfin, ?_⟩
  have hu : u ≤ 149 := by
    rcases hr.ge with rfl | hge
    · omega
    · by_contra hgt
      have : 2 ^ 150 ≤ 2 ^ (0 + u) := Nat.pow_le_pow_right (by decide) (by omega)
      omega
  obtain ⟨e, he⟩ := Nat.exists_eq_add_of_le hu
  have hmul : i * 2 ^ 149 = i * 2 ^ e * 2 ^ (0 + u) := by rw [he, Nat.zero_add, Nat.mul_assoc, ← Nat.pow_add, Nat.add_comm u e]
  have hbelow := hr.below
  have habove := hr.above
  rw [hmul, ← Nat.mul_assoc] at hbelow habove
  have hpos : 0 < 2 ^ (0 + u) := by positivity
  have hle : 2 * (i * 2 ^ e) ≤ 2 * q + 1 := Nat.le_of_mul_le_mul_right hbelow hpos
  have hge : 2 * q ≤ 2 * (i * 2 ^ e) + 1 := by
    refine Nat.le_of_mul_le_mul_right ?_ hpos
    rwa [Nat.add_mul, Nat.one_mul]
  have hq : q = i * 2 ^ e := by omega
  rw [hmul, ← hq, Nat.zero_add]
  exact hmag

theorem F32.floorNat_ofNat {i : Nat} (hi : i < 2 ^ 24) : F32.floorNat (F32.ofNat i) = i := by
  rw [F32.floorNat, (F32.ofNat_exact hi).2]
  exact Nat.mul_div_cancel i (by positivity)

/-! ### Zeros -/

/-- The word of +0.0 or of -0.0. -/
def F32.IsZeroWord (w : Word) : Prop := w.toNat % 2 ^ 31 = 0

theorem F32.IsZeroWord.finite {w : Word} (h : F32.IsZeroWord w) : F32.isFinite w = true :=
  F32.isFinite_of_low31_lt (h.trans_lt (by decide))

theorem F32.IsZeroWord.mag_eq {w : Word} (h : F32.IsZeroWord w) : F32.mag w = 0 :=
  (F32.mag_of_low31_eq (w := 0#32) h).trans F32.mag_zero

theorem F32.IsZeroWord.pack (neg : Bool) : F32.IsZeroWord (F32.pack neg 0) := by cases neg <;> rfl

theorem F32.IsZeroWord.eq_or {w : Word} (h : F32.IsZeroWord w) : w = 0#32 ∨ w = 0x80000000#32 := by
  have heta := F32.pack_sign_low31 w
  rw [h] at heta
  rw [← heta]
  cases F32.sign w
  · exact .inl rfl
  · exact .inr rfl

theorem F32.isZeroWord_of_mag {w : Word} (h : F32.mag w = 0) : F32.IsZeroWord w :=
  F32.low31_eq_of_mag_eq (w := 0#32) h

theorem fmul_isZeroWord {a z : Word} (ha : F32.isFinite a = true) (hz : F32.IsZeroWord z) : F32.IsZeroWord (fmul a z) := by
  obtain ⟨hmul, -⟩ := fmul_finite ha hz.finite
  rw [hmul, hz.mag_eq, Nat.mul_zero]
  exact F32.IsZeroWord.pack _

theorem F32.IsZeroWord.scaled_eq {w : Word} (h : F32.IsZeroWord w) : F32.scaled w = 0 := by
  rw [F32.scaled_eq_signedInt, h.mag_eq, signedInt_zero]

theorem fadd_isZeroWord {z w : Word} (hz : F32.IsZeroWord z) (hw : F32.IsZeroWord w) : F32.IsZeroWord (fadd z w) := by
  obtain ⟨neg, hsum, -⟩ := F32.sum_finite (F32.nan .add z w) hz.finite hw.finite
  rw [fadd, hsum, hz.scaled_eq, hw.scaled_eq]
  exact F32.IsZeroWord.pack neg

/-- A zero added to a finite word that is not zero leaves it. -/
theorem fadd_zero_left {z y : Word} (hz : F32.IsZeroWord z) (hy : F32.isFinite y = true) (hne : ¬ F32.IsZeroWord y) :
    fadd z y = y := by
  obtain ⟨neg, hsum, hv⟩ := F32.sum_finite (F32.nan .add z y) hz.finite hy
  rw [hz.scaled_eq, Int.zero_add, F32.scaled_natAbs] at hsum hv
  have hmag : F32.mag y ≠ 0 := fun h => hne (F32.isZeroWord_of_mag h)
  have hneg : neg = F32.sign y := by
    rw [F32.scaled_eq_signedInt] at hv
    revert hv
    cases neg <;> cases F32.sign y <;> simp [signedInt] <;> omega
  rw [fadd, hsum, hneg, F32.roundMag_exact hy rfl, F32.pack_sign_low31]

/-- A zero added to +0.0 is +0.0, whatever the sign of the one before it. -/
theorem fadd_posZero {z : Word} (hz : F32.IsZeroWord z) : fadd z 0#32 = 0#32 := by
  rcases hz.eq_or with rfl | rfl <;> decide

/-- A zero added to a finite word leaves it, but for the sign of -0.0. -/
theorem fadd_zero_left_cases {z y : Word} (hz : F32.IsZeroWord z) (hy : F32.isFinite y = true) :
    fadd z y = y ∨ (y = 0x80000000#32 ∧ fadd z y = 0x00000000#32) := by
  by_cases hzero : F32.IsZeroWord y
  · rcases hzero.eq_or with rfl | rfl
    · exact .inl (fadd_posZero hz)
    · exact (fadd_isZeroWord hz hzero).eq_or.symm.imp_right fun h => ⟨rfl, h⟩
  · exact .inl (fadd_zero_left hz hy hzero)

/-! ### Sums that stay finite -/

/-- The magnitude of a finite word is at most c times 2^124. -/
def F32.AtMost (c : Nat) (w : Word) : Prop := F32.isFinite w = true ∧ F32.mag w ≤ c * 2 ^ 273

/-- The small multiples of 2^124 are binary32 values. -/
theorem F32.exists_word_of_multiple : ∀ c ≤ 12, ∃ w : Word, F32.isFinite w = true ∧ F32.mag w = c * 2 ^ 273 := by
  have htable : ∀ c < 13, F32.isFinite (F32.pack false (F32.roundMag (c * 2 ^ 273) 149)) = true ∧
      F32.mag (F32.pack false (F32.roundMag (c * 2 ^ 273) 149)) = c * 2 ^ 273 := by decide +kernel
  exact fun c hc => ⟨_, htable c (Nat.lt_succ_of_le hc)⟩

/-- A value of at most a small multiple of 2^124 rounds to at most that. -/
theorem F32.atMost_pack {n k c : Nat} (neg : Bool) (hc : c ≤ 12) (h : n * 2 ^ 149 ≤ c * 2 ^ 273 * 2 ^ k) :
    F32.AtMost c (F32.pack neg (F32.roundMag n k)) := by
  obtain ⟨w, hw, hmag⟩ := F32.exists_word_of_multiple c hc
  rw [← hmag] at h
  have hw' := F32.low31_of_finite hw
  exact ⟨(F32.isFinite_pack_roundMag n k neg).2 (F32.lt_threshold hw' h), hmag ▸ F32.mag_pack_roundMag_le neg hw' h⟩

theorem F32.AtMost.neg {c : Nat} {w : Word} (h : F32.AtMost c w) : F32.AtMost c (F32.neg w) :=
  ⟨F32.isFinite_neg h.1, (F32.mag_neg w).trans_le h.2⟩

theorem F32.AtMost.sum {c d : Nat} {a b : Word} (ha : F32.AtMost c a) (hb : F32.AtMost d b) (nan : Word) (h : c + d ≤ 12) :
    F32.AtMost (c + d) (F32.sum nan a b) := by
  obtain ⟨neg, hsum, -⟩ := F32.sum_finite nan ha.1 hb.1
  rw [hsum]
  refine F32.atMost_pack neg h (Nat.mul_le_mul_right _ ?_)
  calc (F32.scaled a + F32.scaled b).natAbs ≤ F32.mag a + F32.mag b := by
        rw [← F32.scaled_natAbs a, ← F32.scaled_natAbs b]
        exact Int.natAbs_add_le _ _
    _ ≤ c * 2 ^ 273 + d * 2 ^ 273 := Nat.add_le_add ha.2 hb.2
    _ = (c + d) * 2 ^ 273 := (Nat.add_mul ..).symm

theorem F32.AtMost.fadd {c d : Nat} {a b : Word} (ha : F32.AtMost c a) (hb : F32.AtMost d b) (h : c + d ≤ 12) :
    F32.AtMost (c + d) (fadd a b) := ha.sum hb _ h

theorem F32.AtMost.fsub {c d : Nat} {a b : Word} (ha : F32.AtMost c a) (hb : F32.AtMost d b) (h : c + d ≤ 12) :
    F32.AtMost (c + d) (fsub a b) := ha.sum hb.neg _ h

/-- A sample of up to 2^125 times a constant of the Catmull-Rom rule, which is p halves. -/
theorem F32.AtMost.fmul {p : Nat} {m y : Word} (hm : F32.isFinite m = true) (hmag : F32.mag m = p * 2 ^ 148)
    (hy : F32.AtMost 2 y) (hp : p ≤ 12) : F32.AtMost p (fmul m y) := by
  obtain ⟨hmul, -⟩ := fmul_finite hm hy.1
  rw [hmul]
  refine F32.atMost_pack _ hp ?_
  have hpow : (2 : Nat) ^ 298 = 2 ^ 149 * 2 ^ 149 := by rw [show 298 = 149 + 149 from rfl, Nat.pow_add]
  calc F32.mag m * F32.mag y * 2 ^ 149 ≤ p * 2 ^ 148 * (2 * 2 ^ 273) * 2 ^ 149 := by
        rw [hmag]
        exact Nat.mul_le_mul_right _ (Nat.mul_le_mul_left _ hy.2)
    _ = p * 2 ^ 273 * 2 ^ 298 := by
        rw [hpow]
        generalize (2 : Nat) ^ 273 = a
        have h149 : (2 : Nat) ^ 149 = 2 * 2 ^ 148 := Nat.pow_succ'
        rw [h149]
        generalize (2 : Nat) ^ 148 = b
        ring

/-! ### The Catmull-Rom rule at t = 0 (R200, R204) -/

/-- With samples up to 2^125 the three coefficients are finite, so at t = 0 only y1 is left. -/
theorem catmullRom_zero {y0 y1 y2 y3 t : Word} (ht : F32.IsZeroWord t) (h0 : F32.AtMost 2 y0) (h1 : F32.AtMost 2 y1)
    (h2 : F32.AtMost 2 y2) (h3 : F32.AtMost 2 y3) :
    catmullRom y0 y1 y2 y3 t = y1 ∨ (y1 = 0x80000000#32 ∧ catmullRom y0 y1 y2 y3 t = 0x00000000#32) := by
  have hhalf : ∀ {y}, F32.AtMost 2 y → F32.AtMost 1 (fmul 0x3F000000#32 y) := fun h => h.fmul (by decide) (by decide) (by decide)
  have hnegHalf : ∀ {y}, F32.AtMost 2 y → F32.AtMost 1 (fmul 0xBF000000#32 y) := fun h =>
    h.fmul (by decide) (by decide) (by decide)
  have hthreeHalves : ∀ {y}, F32.AtMost 2 y → F32.AtMost 3 (fmul 0x3FC00000#32 y) := fun h =>
    h.fmul (by decide) (by decide) (by decide)
  have hfiveHalves : F32.AtMost 5 (fmul 0x40200000#32 y1) := h1.fmul (by decide) (by decide) (by decide)
  have htwo : F32.AtMost 4 (fmul 0x40000000#32 y2) := h2.fmul (by decide) (by decide) (by decide)
  have ha := ((((hnegHalf h0).fadd (hthreeHalves h1) (by decide)).fsub (hthreeHalves h2) (by decide)).fadd (hhalf h3)
    (by decide)).1
  have hb := (((h0.fsub hfiveHalves (by decide)).fadd htwo (by decide)).fsub (hhalf h3) (by decide)).1
  have hc := ((hnegHalf h0).fadd (hhalf h2) (by decide)).1
  have ht2 := fmul_isZeroWord ht.finite ht
  have ht3 := fmul_isZeroWord ht2.finite ht
  exact fadd_zero_left_cases
    (fadd_isZeroWord (fadd_isZeroWord (fmul_isZeroWord ha ht3) (fmul_isZeroWord hb ht2)) (fmul_isZeroWord hc ht)) h1.1

/-! ### The identity (R206) -/

theorem outLen_one (n : Nat) : outLen n Word.one = n := by
  rw [outLen, F32.mag_one]
  exact Nat.mul_div_cancel n (by positivity)

/-- The bound of the statement is 2^125. -/
theorem F32.atMost_of_low31_le {w : Word} (h : w.toNat % 2 ^ 31 ≤ 0x7E000000) : F32.AtMost 2 w := by
  refine ⟨F32.isFinite_of_low31_lt (by omega), ?_⟩
  have hbound : F32.mag 0x7E000000#32 = 2 * 2 ^ 273 := by
    rw [show 273 = 149 + 124 from rfl, Nat.pow_add]
    decide
  rw [← hbound]
  exact F32.mag_le_mag_iff.2 h

theorem neighbour_mem {x : List Word} (hx : x ≠ []) (srcIndex d : Nat) : neighbour x srcIndex d ∈ x :=
  List.mem_of_getElem? (getElem?_eq_some_neighbour hx srcIndex d)

/-- At ratio 1.0 output i lies exactly on sample i. -/
theorem resampledStandard_one {x : List Word} {i : Nat} (hi : i < 2 ^ 24) :
    resampledStandard x Word.one i =
      catmullRom (neighbour x i 0) (neighbour x i 1) (neighbour x i 2) (neighbour x i 3) 0#32 := by
  have hfin := (F32.ofNat_exact hi).1
  simp only [resampledStandard, fmul_one hfin, F32.floorNat_ofNat hi, fsub_self hfin]

/-- Settles O30: at ratio 1.0 every output lies on its sample, at distance +0.0 from it. -/
theorem resampleAtRatioOneIsIdentity : Obligations.ResampleAtRatioOneIsIdentity := by
  intro p x hnum hpos hmax hbound
  have hx : x ≠ [] := List.ne_nil_of_length_pos hpos
  have hone : Word.one.toNat = 0x3F800000 := by decide
  have hdomain : resampleDomain x.length Word.one = true :=
    resampleDomain_iff.2 ⟨by omega, hmax, by omega, by omega, by rw [F32.mag_one]; omega⟩
  refine ⟨_, resampleGrain_eq_ok.2 ⟨hdomain, rfl⟩, by simp [outLen_one], fun i hi hi' => ?_⟩
  have hat : ∀ d, F32.AtMost 2 (neighbour x i d) := fun d => F32.atMost_of_low31_le (hbound _ (neighbour_mem hx i d))
  have hsample : neighbour x i 1 = x[i] := by
    rw [neighbour, show min (i + 1 - 1) (x.length - 1) = i by omega, List.getD_eq_getElem _ _ hi']
  have hcases := catmullRom_zero (t := 0#32) rfl (hat 0) (hat 1) (hat 2) (hat 3)
  simp only [List.getElem_map, List.getElem_range, resampledSample, hnum]
  rwa [resampledStandard_one (by omega), ← hsample]

end Sys2Proof.Machine

/-! PROOFS. The fixed-point series of the default HANN_ROM and PITCH_EXP2 against the real functions (R21). -/

namespace Sys2Proof.Machine

/-! ### The error of one rounding (R24) -/

theorem two_mul_natAbs_sub_le {a v d : Nat} (below : 2 * v ≤ 2 * a + d) (above : 2 * a ≤ 2 * v + d) :
    2 * ((a : Int) - v).natAbs ≤ d := by omega

/-- Up to the representable value 2^(24 + c) units, rounding is off by at most half of 2^c units. -/
theorem F32.roundMag_error {n k c : Nat} {w : Word} (hw : w.toNat % 2 ^ 31 < 0x7F800000) (hmag : F32.mag w = 2 ^ (24 + c))
    (h : n * 2 ^ 149 ≤ F32.mag w * 2 ^ k) :
    2 * ((F32.mag (F32.pack false (F32.roundMag n k)) * 2 ^ k : Nat) - ((n * 2 ^ 149 : Nat) : Int)).natAbs ≤ 2 ^ (k + c) := by
  have hthreshold := F32.lt_threshold hw h
  rcases h.lt_or_eq with hlt | heq
  · obtain ⟨u, q, hr, -, hround, -⟩ := F32.pack_roundMag_finite ((F32.isFinite_pack_roundMag n k false).2 hthreshold)
    have hu : u ≤ c := by
      rcases hr.ge with rfl | hge
      · exact Nat.zero_le c
      · have hpow : 2 ^ (23 + (k + u)) < 2 ^ (24 + c + k) := by
          rw [Nat.pow_add, Nat.pow_add 2 (24 + c), ← hmag]
          exact hge.trans_lt hlt
        have := (Nat.pow_lt_pow_iff_right (by decide)).1 hpow
        omega
    have hunit : 2 ^ (k + u) ≤ 2 ^ (k + c) := Nat.pow_le_pow_right (by decide) (by omega)
    have hbelow := hr.below
    have habove := hr.above
    rw [Nat.add_mul, Nat.one_mul, Nat.mul_assoc 2 q] at hbelow
    rw [Nat.mul_assoc 2 q] at habove
    rw [hround, Nat.mul_assoc, ← Nat.pow_add, Nat.add_comm u k]
    exact (two_mul_natAbs_sub_le hbelow habove).trans hunit
  · have hnear := F32.mag_pack_roundMag_nearest (neg := false) hthreshold w
    rw [heq, sub_self, Int.natAbs_zero, Nat.le_zero] at hnear
    rw [heq, hnear]
    exact Nat.zero_le _

theorem F32.scaled_pack_roundMag (n k : Nat) :
    F32.scaled (F32.pack false (F32.roundMag n k)) = F32.mag (F32.pack false (F32.roundMag n k)) := by
  rw [F32.scaled_eq_signedInt, F32.sign_pack false ((F32.roundMag_le n k).trans_lt (by decide))]
  rfl

theorem abs_div_sub_div_le {m n A K C : ℝ} (hA : 0 < A) (hK : 0 < K) (h : 2 * |m * K - n * A| ≤ K * C) :
    |m / A - n / K| ≤ C / (2 * A) := by
  have hsplit : m / A - n / K = (m * K - n * A) / (A * K) := by field_simp
  rw [hsplit, abs_div, abs_of_pos (mul_pos hA hK), div_le_div_iff₀ (by positivity) (by positivity)]
  calc |m * K - n * A| * (2 * A) = 2 * |m * K - n * A| * A := by ring
    _ ≤ K * C * A := by gcongr
    _ = C * (A * K) := by ring

/-- The same error in the reals, as a value. -/
theorem F32.abs_roundMag_sub_le {n k c : Nat} {w : Word} (hw : w.toNat % 2 ^ 31 < 0x7F800000) (hmag : F32.mag w = 2 ^ (24 + c))
    (h : n * 2 ^ 149 ≤ F32.mag w * 2 ^ k) :
    |(F32.scaled (F32.pack false (F32.roundMag n k)) : ℝ) / 2 ^ 149 - n / 2 ^ k| ≤ 2 ^ c / (2 * 2 ^ 149) := by
  have herr : ((2 * ((F32.mag (F32.pack false (F32.roundMag n k)) * 2 ^ k : Nat) - ((n * 2 ^ 149 : Nat) : Int)).natAbs : Nat) : ℝ) ≤
      ((2 ^ (k + c) : Nat) : ℝ) := Nat.cast_le.2 (F32.roundMag_error hw hmag h)
  rw [Nat.cast_mul, Nat.cast_natAbs, Int.cast_abs, Int.cast_sub, Int.cast_natCast, Int.cast_natCast, Nat.cast_mul, Nat.cast_mul,
    Nat.cast_pow, Nat.cast_pow, Nat.cast_pow, Nat.cast_ofNat, pow_add] at herr
  rw [F32.scaled_pack_roundMag, Int.cast_natCast]
  exact abs_div_sub_div_le (by positivity) (by positivity) herr

/-- Whole division is off by at most 1. -/
theorem abs_natDiv_sub_le (a b : Nat) : |((a / b : Nat) : ℝ) - a / b| ≤ 1 := by
  have hlt := Nat.lt_floor_add_one ((a : ℝ) / b)
  rw [Nat.floor_div_eq_div] at hlt
  have hle : ((a / b : Nat) : ℝ) ≤ a / b := Nat.cast_div_le
  rw [abs_le]
  constructor <;> linarith

/-! ### The power of e in fixed point -/

/-- `expSeries` without its roundings. -/
noncomputable def realExpSeries (x : ℝ) : Nat → Nat → ℝ
  | 0, _ => 1
  | terms + 1, n => 1 + x / n * realExpSeries x terms (n + 1)

/-- One division that is off by at most 1 adds that to the error of its dividend, which a ratio up to 1 does not enlarge. -/
theorem abs_expStep_sub_le {F x n a r d t : ℝ} (hF : 0 < F) (hx : 0 ≤ x) (hxF : x ≤ F) (hn : 1 ≤ n) (ha : |a - F * r| ≤ t)
    (hd : |d - x * a / (F * n)| ≤ 1) : |F + d - F * (1 + x / F / n * r)| ≤ t + 1 := by
  have hn0 : 0 < n := by linarith
  have hratio : x / (F * n) ≤ 1 := by
    rw [div_le_one (by positivity)]
    exact hxF.trans (le_mul_of_one_le_right hF.le hn)
  have hscaled : |x / (F * n) * (a - F * r)| ≤ t := by
    rw [abs_mul, abs_of_nonneg (by positivity)]
    exact (mul_le_of_le_one_left (abs_nonneg _) hratio).trans ha
  have hsum : F + d - F * (1 + x / F / n * r) = d - x * a / (F * n) + x / (F * n) * (a - F * r) := by
    field_simp
    ring
  rw [hsum, add_comm t]
  exact (abs_add_le _ _).trans (add_le_add hd hscaled)

theorem abs_expSeries_sub_le {x : Nat} (hx : x ≤ 2 ^ 128) (terms : Nat) : ∀ n, 0 < n →
    |(expSeries x terms n : ℝ) - (2 : ℝ) ^ 128 * realExpSeries (x / 2 ^ 128) terms n| ≤ (terms : ℝ) := by
  induction terms with
  | zero =>
    intro n _
    rw [expSeries, realExpSeries, Nat.cast_pow, Nat.cast_ofNat, mul_one, sub_self, abs_zero, Nat.cast_zero]
  | succ terms ih =>
    intro n hn
    have hdiv := abs_natDiv_sub_le (x * expSeries x terms (n + 1)) (2 ^ 128 * n)
    rw [Nat.cast_mul, Nat.cast_mul, Nat.cast_pow, Nat.cast_ofNat] at hdiv
    rw [expSeries, realExpSeries, Nat.cast_add, Nat.cast_add, Nat.cast_pow, Nat.cast_ofNat, Nat.cast_one]
    exact abs_expStep_sub_le (by positivity) (Nat.cast_nonneg x) (by exact_mod_cast hx) (by exact_mod_cast hn)
      (ih (n + 1) n.succ_pos) hdiv

/-- Horner's rule: what the first n terms of the exponential leave. -/
theorem sum_add_realExpSeries (x : ℝ) (terms : Nat) :
    ∀ n, ∑ i ∈ Finset.range n, x ^ i / i.factorial + x ^ n / n.factorial * realExpSeries x terms (n + 1) =
      ∑ i ∈ Finset.range (n + terms + 1), x ^ i / i.factorial := by
  induction terms with
  | zero => intro n; rw [realExpSeries, mul_one, Nat.add_zero, Finset.sum_range_succ]
  | succ terms ih =>
    intro n
    rw [show n + (terms + 1) + 1 = n + 1 + terms + 1 by omega, ← ih (n + 1), Finset.sum_range_succ, realExpSeries,
      Nat.factorial_succ]
    push_cast
    field_simp
    ring

theorem realExpSeries_one (x : ℝ) (terms : Nat) :
    realExpSeries x terms 1 = ∑ i ∈ Finset.range (terms + 1), x ^ i / i.factorial := by
  have h := sum_add_realExpSeries x terms 0
  simpa using h

end Sys2Proof.Machine

/-! PROOFS. The default PITCH_EXP2 against the real power of two (R21). -/

namespace Sys2Proof.Machine

/-- A bound above the exact value only helps. -/
theorem abs_min_sub_le {a b c ε : ℝ} (h : |a - c| ≤ ε) (hc : c ≤ b) : |min a b - c| ≤ ε := by
  rcases min_cases a b with ⟨hmin, -⟩ | ⟨hmin, hlt⟩
  · rwa [hmin]
  · rw [hmin, abs_of_nonneg (by linarith)]
    rw [abs_of_pos (by linarith)] at h
    linarith

theorem abs_exp_sub_exp_le {x y : ℝ} (hx : x ≤ 1) (hy : y ≤ 1) : |Real.exp x - Real.exp y| ≤ 3 * |x - y| := by
  wlog hle : y ≤ x generalizing x y
  · rw [abs_sub_comm, abs_sub_comm x]
    exact this hy hx (le_of_not_ge hle)
  have hmono : Real.exp y ≤ Real.exp x := Real.exp_le_exp.2 hle
  have hthree : Real.exp x ≤ 3 := (Real.exp_le_exp.2 hx).trans Real.exp_one_lt_three.le
  rw [abs_of_nonneg (sub_nonneg.2 hmono), abs_of_nonneg (sub_nonneg.2 hle)]
  have hfactor : Real.exp y = Real.exp x * Real.exp (y - x) := by rw [← Real.exp_add]; ring_nf
  calc Real.exp x - Real.exp y = Real.exp x * (1 - Real.exp (y - x)) := by rw [hfactor]; ring
    _ ≤ Real.exp x * (x - y) := by
        have := Real.add_one_le_exp (y - x)
        exact mul_le_mul_of_nonneg_left (by linarith) (Real.exp_pos x).le
    _ ≤ 3 * (x - y) := mul_le_mul_of_nonneg_right hthree (sub_nonneg.2 hle)

theorem fixLn2_le : fixLn2 ≤ 2 ^ 128 := by decide

theorem abs_fixLn2_sub_log_two_le : |(fixLn2 : ℝ) / 2 ^ 128 - Real.log 2| ≤ 1 / 2 ^ 30 := by
  have hlow := Real.log_two_gt_d9
  have hhigh := Real.log_two_lt_d9
  have hfix : (0.6931471803 : ℝ) ≤ (fixLn2 : ℝ) / 2 ^ 128 ∧ (fixLn2 : ℝ) / 2 ^ 128 ≤ 0.6931471808 := by
    unfold fixLn2
    norm_num
  rw [abs_le]
  constructor <;> linarith

/-- A fixed-point product with a constant c / F, for a fraction f / U up to 1: the constant's error, and one floor. -/
theorem abs_floor_mul_sub_le {f c U : Nat} {F γ ε : ℝ} (hF : 0 < F) (hU : 0 < U) (hf : f ≤ U) (hc : |(c : ℝ) / F - γ| ≤ ε) :
    |((f * c / U : Nat) : ℝ) / F - γ * (f / U)| ≤ 1 / F + ε := by
  have hdiv := abs_natDiv_sub_le (f * c) U
  have hU' : (0 : ℝ) < U := Nat.cast_pos.2 hU
  have hratio : (f : ℝ) / U ≤ 1 := (div_le_one hU').2 (Nat.cast_le.2 hf)
  have hfloor : |((f * c / U : Nat) : ℝ) / F - (f * c : Nat) / U / F| ≤ 1 / F := by
    rw [← sub_div, abs_div, abs_of_pos hF]
    gcongr
  have hconst : |((f * c : Nat) : ℝ) / U / F - γ * (f / U)| ≤ ε := by
    have hsplit : ((f * c : Nat) : ℝ) / U / F - γ * (f / U) = f / U * (c / F - γ) := by
      rw [Nat.cast_mul]
      ring
    rw [hsplit, abs_mul, abs_of_nonneg (by positivity)]
    exact (mul_le_of_le_one_left (abs_nonneg _) hratio).trans hc
  exact (abs_sub_le _ _ _).trans (add_le_add hfloor hconst)

/-- The fixed-point exponential, to 2^-60: the floors of the series, and its rest. -/
theorem abs_expSeries_sub_exp_le {x : Nat} (hx : x ≤ 2 ^ 128) :
    |(expSeries x 48 1 : ℝ) / 2 ^ 128 - Real.exp (x / 2 ^ 128)| ≤ 1 / 2 ^ 60 := by
  have hfix := abs_expSeries_sub_le hx 48 1 Nat.one_pos
  have hx0 : (0 : ℝ) ≤ x / 2 ^ 128 := by positivity
  have hx1 : (x : ℝ) / 2 ^ 128 ≤ 1 := (div_le_one (by positivity)).2 (by exact_mod_cast hx)
  have htail := Real.exp_bound (abs_le.2 ⟨by linarith, hx1⟩) (n := 49) (by decide)
  rw [← realExpSeries_one, abs_sub_comm] at htail
  generalize (x : ℝ) / 2 ^ 128 = y at hfix hx0 hx1 htail
  have hpow : |y| ^ 49 * ((Nat.succ 49 : Nat) / ((Nat.factorial 49 : Nat) * (49 : Nat)) : ℝ) ≤ 1 / 2 ^ 61 := by
    refine (mul_le_of_le_one_left (by positivity) (pow_le_one₀ (abs_nonneg _) (abs_le.2 ⟨by linarith, hx1⟩))).trans ?_
    norm_num [Nat.factorial]
  have hseries : |(expSeries x 48 1 : ℝ) / 2 ^ 128 - realExpSeries y 48 1| ≤ 1 / 2 ^ 61 := by
    have hscale : (expSeries x 48 1 : ℝ) / 2 ^ 128 - realExpSeries y 48 1 =
        ((expSeries x 48 1 : ℝ) - 2 ^ 128 * realExpSeries y 48 1) / 2 ^ 128 := by
      rw [sub_div, mul_div_cancel_left₀ _ (by positivity)]
    rw [hscale, abs_div, abs_of_pos (by positivity : (0 : ℝ) < 2 ^ 128)]
    exact (div_le_div_of_nonneg_right hfix (by positivity)).trans (by norm_num)
  calc _ ≤ _ := abs_sub_le _ (realExpSeries y 48 1) _
    _ ≤ 1 / 2 ^ 61 + 1 / 2 ^ 61 := add_le_add hseries (htail.trans hpow)
    _ = 1 / 2 ^ 60 := by norm_num

/-- The fixed-point power of a fraction, to 2^-26: the exponential's error, and that of its argument. -/
theorem abs_fixExp2_sub_le {f : Nat} (hf : f ≤ 12 * 2 ^ 149) :
    |(fixExp2 f : ℝ) / 2 ^ 128 - (2 : ℝ) ^ ((f : ℝ) / (12 * 2 ^ 149 : Nat))| ≤ 1 / 2 ^ 26 := by
  have hU : 0 < 12 * 2 ^ 149 := by decide
  generalize hUdef : 12 * 2 ^ 149 = U at hf hU ⊢
  have hratio : (f : ℝ) / U ≤ 1 := (div_le_one (Nat.cast_pos.2 hU)).2 (Nat.cast_le.2 hf)
  have hlog : Real.log 2 * (f / U) ≤ 1 := by
    have hone : Real.log 2 ≤ 1 := by linarith [Real.log_two_lt_d9]
    exact mul_le_one₀ hone (by positivity) hratio
  have hx : f * fixLn2 / U ≤ 2 ^ 128 :=
    (Nat.div_le_of_le_mul (Nat.mul_le_mul_right _ hf)).trans fixLn2_le
  have hx1 : ((f * fixLn2 / U : Nat) : ℝ) / 2 ^ 128 ≤ 1 := (div_le_one (by positivity)).2 (by exact_mod_cast hx)
  have harg := abs_floor_mul_sub_le (F := 2 ^ 128) (by positivity) hU hf abs_fixLn2_sub_log_two_le
  have hlip := abs_exp_sub_exp_le hx1 hlog
  have hseries := abs_expSeries_sub_exp_le hx
  have htwo : (2 : ℝ) ^ ((f : ℝ) / U) ≤ 2 := by
    calc (2 : ℝ) ^ ((f : ℝ) / U) ≤ 2 ^ (1 : ℝ) := Real.rpow_le_rpow_of_exponent_le (by norm_num) hratio
      _ = 2 := Real.rpow_one 2
  have hmin : (fixExp2 f : ℝ) / 2 ^ 128 = min ((expSeries (f * fixLn2 / U) 48 1 : ℝ) / 2 ^ 128) 2 := by
    have htop : ((2 ^ 129 : Nat) : ℝ) / 2 ^ 128 = 2 := by norm_num
    rw [fixExp2, hUdef, Nat.cast_min, ← min_div_div_right (by positivity), htop]
  rw [hmin]
  refine abs_min_sub_le ?_ htwo
  rw [Real.rpow_def_of_pos (by norm_num)]
  refine ((abs_sub_le _ _ _).trans (add_le_add hseries hlip)).trans ?_
  linarith

/-- A quotient in whole units and a fraction. -/
theorem intCast_div_eq (z : Int) {U : Nat} (hU : 0 < U) :
    (z : ℝ) / U = (z / (U : Int) : Int) + ((z % (U : Int)).toNat : ℝ) / U := by
  have hU' : (U : ℝ) ≠ 0 := Nat.cast_ne_zero.2 hU.ne'
  have hnonneg : 0 ≤ z % (U : Int) := Int.emod_nonneg _ (by omega)
  have hfrac : (((z % (U : Int)).toNat : Nat) : ℝ) = ((z % (U : Int) : Int) : ℝ) := by
    rw [← Int.cast_natCast, Int.toNat_of_nonneg hnonneg]
  have hsplit : (z : ℝ) = U * (z / (U : Int) : Int) + (z % (U : Int) : Int) := by
    exact_mod_cast (Int.mul_ediv_add_emod z U).symm
  rw [hfrac]
  field_simp
  exact hsplit

/-- Before its rounding the default PITCH_EXP2 is the power of two to 2^-24: the whole octaves scale the fraction's error. -/
theorem abs_fixExp2_octave_sub_le {whole : Int} {f : Nat} (hf : f ≤ 12 * 2 ^ 149) (hhigh : whole ≤ 2) :
    |(fixExp2 f : ℝ) / 2 ^ (128 - whole).toNat - (2 : ℝ) ^ ((whole : ℝ) + f / (12 * 2 ^ 149 : Nat))| ≤ 1 / 2 ^ 24 := by
  have hexp : (2 : ℝ) ^ (128 - whole).toNat = 2 ^ (128 : Nat) / (2 : ℝ) ^ whole := by
    rw [← zpow_natCast, Int.toNat_of_nonneg (by omega), zpow_sub₀ (by norm_num)]
    norm_cast
  have hpow : (2 : ℝ) ^ whole ≤ 4 := by
    calc (2 : ℝ) ^ whole ≤ 2 ^ (2 : Int) := zpow_le_zpow_right₀ (by norm_num) hhigh
      _ = 4 := by norm_num
  rw [hexp, Real.rpow_add (by norm_num), Real.rpow_intCast]
  have hfixed := abs_fixExp2_sub_le hf
  generalize (2 : ℝ) ^ ((f : ℝ) / (12 * 2 ^ 149 : Nat)) = r at hfixed ⊢
  have hfactor : (fixExp2 f : ℝ) / (2 ^ 128 / (2 : ℝ) ^ whole) - (2 : ℝ) ^ whole * r =
      (2 : ℝ) ^ whole * ((fixExp2 f : ℝ) / 2 ^ 128 - r) := by
    rw [div_div_eq_mul_div, mul_sub]
    ring
  rw [hfactor, abs_mul, abs_of_pos (by positivity)]
  calc (2 : ℝ) ^ whole * |(fixExp2 f : ℝ) / 2 ^ 128 - r| ≤ 4 * (1 / 2 ^ 26) :=
        mul_le_mul hpow hfixed (abs_nonneg _) (by norm_num)
    _ = 1 / 2 ^ 24 := by norm_num

/-- Settles O25: the fixed-point power is the real one to 2^-24, and its rounding adds at most 2^-23. -/
theorem defaultPitchApproximatesItsFormula : Obligations.DefaultPitchApproximatesItsFormula := by
  intro s h
  obtain ⟨-, hhigh⟩ := octaves_of_legalSemitones h
  have hsplit := intCast_div_eq (F32.scaled s) (U := 12 * 2 ^ 149) (by decide)
  have hexponent : (F32.scaled s : ℝ) / 2 ^ 149 / 12 = (F32.scaled s : ℝ) / (12 * 2 ^ 149 : Nat) := by
    rw [Nat.cast_mul, Nat.cast_pow, Nat.cast_ofNat, Nat.cast_ofNat, div_div, mul_comm (12 : ℝ)]
  have hunit : ((12 * 2 ^ 149 : Nat) : Int) = 12 * 2 ^ 149 := rfl
  have hf : (F32.scaled s % (12 * 2 ^ 149)).toNat ≤ 12 * 2 ^ 149 := by omega
  rw [hexponent, hsplit, hunit, pitchExp2Standard_eq]
  have hround := F32.abs_roundMag_sub_le (c := 127) (by decide) F32.mag_four (fixExp2_le_four hhigh)
  have hfixed := abs_fixExp2_octave_sub_le (whole := F32.scaled s / (12 * 2 ^ 149)) hf (by omega)
  calc _ ≤ _ := abs_sub_le _ _ _
    _ ≤ 2 ^ 127 / (2 * 2 ^ 149) + 1 / 2 ^ 24 := add_le_add hround hfixed
    _ ≤ 1 / 2 ^ 22 := by norm_num

end Sys2Proof.Machine

/-! PROOFS. The default HANN_ROM against the real Hann formula (R21, R180). -/

namespace Sys2Proof.Machine

/-! ### The sine in fixed point -/

/-- `sincSeries` without its roundings. -/
noncomputable def realSincSeries (y : ℝ) : Nat → Nat → ℝ
  | 0, _ => 1
  | terms + 1, n => 1 - y / ((2 * n) * (2 * n + 1)) * realSincSeries y terms (n + 1)

theorem six_le_sincDivisor {n : Nat} (hn : 0 < n) : 6 ≤ 2 * n * (2 * n + 1) :=
  Nat.mul_le_mul (show 2 ≤ 2 * n by omega) (show 3 ≤ 2 * n + 1 by omega)

theorem sincSeries_le (y terms n : Nat) : sincSeries y terms n ≤ fixOne := by
  cases terms with
  | zero => exact le_rfl
  | succ terms => exact Nat.sub_le _ _

/-- The subtraction of a term never truncates. -/
theorem sincStep_le {y : Nat} (hy : y ≤ 4 * fixOne) (terms : Nat) {n : Nat} (hn : 0 < n) :
    y * sincSeries y terms (n + 1) / (fixOne * (2 * n * (2 * n + 1))) ≤ fixOne := by
  refine Nat.div_le_of_le_mul ?_
  have hdivisor : 4 ≤ 2 * n * (2 * n + 1) := by linarith [six_le_sincDivisor hn]
  calc y * sincSeries y terms (n + 1) ≤ 4 * fixOne * fixOne := Nat.mul_le_mul hy (sincSeries_le _ _ _)
    _ = fixOne * 4 * fixOne := by rw [Nat.mul_comm 4]
    _ ≤ fixOne * (2 * n * (2 * n + 1)) * fixOne := Nat.mul_le_mul_right _ (Nat.mul_le_mul_left _ hdivisor)

/-- One term adds at most 2 to the error: its division, and that the argument is off by at most 1. -/
theorem abs_sincStep_sub_le {F Y y m a r d t : ℝ} (hF : 0 < F) (hy : 0 ≤ y) (hy4 : y ≤ 4) (hm : 6 ≤ m) (hY : |Y - F * y| ≤ 1)
    (ha0 : 0 ≤ a) (haF : a ≤ F) (ha : |a - F * r| ≤ t) (hd : |d - Y * a / (F * m)| ≤ 1) :
    |F - d - F * (1 - y / m * r)| ≤ t + 2 := by
  have hm0 : 0 < m := by linarith
  have hratio : y / m ≤ 1 := (div_le_one hm0).2 (by linarith)
  have hprev : |y / m * (a - F * r)| ≤ t := by
    rw [abs_mul, abs_of_nonneg (by positivity)]
    exact (mul_le_of_le_one_left (abs_nonneg _) hratio).trans ha
  have hweight : a / (F * m) ≤ 1 := by
    rw [div_le_one (by positivity)]
    exact haF.trans (le_mul_of_one_le_right hF.le (by linarith))
  have harg : |a / (F * m) * (Y - F * y)| ≤ 1 := by
    rw [abs_mul, abs_of_nonneg (by positivity)]
    exact (mul_le_of_le_one_left (abs_nonneg _) hweight).trans hY
  have hsum : F - d - F * (1 - y / m * r) =
      -(d - Y * a / (F * m)) + -(a / (F * m) * (Y - F * y)) + -(y / m * (a - F * r)) := by
    field_simp
    ring
  rw [hsum]
  calc _ ≤ |d - Y * a / (F * m)| + |a / (F * m) * (Y - F * y)| + |y / m * (a - F * r)| := by
        simpa only [abs_neg] using abs_add_three (-(d - Y * a / (F * m))) (-(a / (F * m) * (Y - F * y))) (-(y / m * (a - F * r)))
    _ ≤ t + 2 := by linarith

theorem abs_sincSeries_sub_le {Y : Nat} {y : ℝ} (hYmax : Y ≤ 4 * fixOne) (hy : 0 ≤ y) (hy4 : y ≤ 4)
    (hY : |(Y : ℝ) - fixOne * y| ≤ 1) (terms : Nat) : ∀ n, 0 < n →
    |(sincSeries Y terms n : ℝ) - fixOne * realSincSeries y terms n| ≤ 2 * (terms : ℝ) := by
  induction terms with
  | zero =>
    intro n _
    rw [sincSeries, realSincSeries, mul_one, sub_self, abs_zero, Nat.cast_zero, mul_zero]
  | succ terms ih =>
    intro n hn
    have hone : (0 : ℝ) < fixOne := Nat.cast_pos.2 (by decide)
    have hdivisor : (6 : ℝ) ≤ (2 * n * (2 * n + 1)) := by exact_mod_cast six_le_sincDivisor hn
    have hdiv := abs_natDiv_sub_le (Y * sincSeries Y terms (n + 1)) (fixOne * (2 * n * (2 * n + 1)))
    push_cast at hdiv
    rw [sincSeries, realSincSeries, Nat.cast_sub (sincStep_le hYmax terms hn)]
    refine (abs_sincStep_sub_le hone hy hy4 hdivisor hY (Nat.cast_nonneg _) (Nat.cast_le.2 (sincSeries_le _ _ _))
      (ih (n + 1) n.succ_pos) hdiv).trans ?_
    push_cast
    linarith

/-- The magnitude of term i of the sine series. -/
noncomputable def sinTerm (x : ℝ) (i : Nat) : ℝ := x ^ (2 * i + 1) / (2 * i + 1).factorial

theorem sinTerm_succ (x : ℝ) (i : Nat) :
    sinTerm x (i + 1) = sinTerm x i * (x ^ 2 / (2 * (i + 1 : Nat) * (2 * (i + 1 : Nat) + 1))) := by
  rw [sinTerm, sinTerm, show 2 * (i + 1) + 1 = 2 * i + 1 + 1 + 1 by ring, Nat.factorial_succ, Nat.factorial_succ]
  push_cast
  field_simp
  ring

theorem antitone_sinTerm {x : ℝ} (hx : 0 ≤ x) (hx2 : x ≤ 2) : Antitone (sinTerm x) := by
  refine antitone_nat_of_succ_le fun i => ?_
  rw [sinTerm_succ]
  have hdivisor : (6 : ℝ) ≤ 2 * (i + 1 : Nat) * (2 * (i + 1 : Nat) + 1) := by exact_mod_cast six_le_sincDivisor i.succ_pos
  refine mul_le_of_le_one_right (by unfold sinTerm; positivity) ((div_le_one (by positivity)).2 ?_)
  nlinarith

/-- Horner's rule: what the first n terms of the sine leave. -/
theorem sum_add_realSincSeries (x : ℝ) (terms : Nat) :
    ∀ n, ∑ i ∈ Finset.range n, (-1) ^ i * sinTerm x i + (-1) ^ n * sinTerm x n * realSincSeries (x ^ 2) terms (n + 1) =
      ∑ i ∈ Finset.range (n + terms + 1), (-1) ^ i * sinTerm x i := by
  induction terms with
  | zero => intro n; rw [realSincSeries, mul_one, Nat.add_zero, Finset.sum_range_succ]
  | succ terms ih =>
    intro n
    rw [show n + (terms + 1) + 1 = n + 1 + terms + 1 by omega, ← ih (n + 1), Finset.sum_range_succ, realSincSeries, sinTerm_succ,
      pow_succ]
    ring

theorem mul_realSincSeries_one (x : ℝ) (terms : Nat) :
    x * realSincSeries (x ^ 2) terms 1 = ∑ i ∈ Finset.range (terms + 1), (-1) ^ i * sinTerm x i := by
  have h := sum_add_realSincSeries x terms 0
  simpa [sinTerm] using h

/-- The series alternates and its terms fall, so the first term left out bounds what is left out. -/
theorem abs_sum_sinTerm_sub_sin_le {x : ℝ} (hx : 0 ≤ x) (hx2 : x ≤ 2) (n : Nat) :
    |∑ i ∈ Finset.range n, (-1) ^ i * sinTerm x i - Real.sin x| ≤ sinTerm x n := by
  have hterm : ∀ i, (-1 : ℝ) ^ i * x ^ (2 * i + 1) / (2 * i + 1).factorial = (-1) ^ i * sinTerm x i := fun i => mul_div_assoc ..
  have hsum := Real.hasSum_sin x
  simp only [hterm] at hsum
  have hsummable : Summable (sinTerm x) := by
    refine (Real.summable_pow_div_factorial x).comp_injective (i := fun i => 2 * i + 1) fun a b h => ?_
    simpa using h
  rw [abs_sub_comm, ← hsum.tsum_eq]
  exact alternating_series_error_bound (sinTerm x) (antitone_sinTerm hx hx2) hsummable n

theorem sinTerm_rest_le {x : ℝ} (hx : 0 ≤ x) (hx2 : x ≤ 2) : sinTerm x 25 ≤ 1 / 2 ^ 40 := by
  calc sinTerm x 25 ≤ 2 ^ (2 * 25 + 1) / (2 * 25 + 1).factorial := by unfold sinTerm; gcongr
    _ ≤ 1 / 2 ^ 40 := by norm_num [Nat.factorial]

theorem fixOne_pos : (0 : ℝ) < fixOne := Nat.cast_pos.2 (by decide)

/-- The product of the argument and the series, before the clamp: the error of the series, and one floor. -/
theorem abs_fixProduct_sub_le {X N : Nat} {F S t : ℝ} (hF : 0 < F) (hX : (X : ℝ) / F ≤ 2) (hN : |(N : ℝ) - F * S| ≤ t)
    {p : ℝ} (hp : |p - X * N / F| ≤ 1) : |p / F - X / F * S| ≤ (2 * t + 1) / F := by
  have hX0 : 0 ≤ (X : ℝ) / F := by positivity
  have hsplit : p / F - X / F * S = (p - X * N / F + X / F * (N - F * S)) / F := by
    field_simp
    ring
  have hscaled : |(X : ℝ) / F * (N - F * S)| ≤ 2 * t := by
    rw [abs_mul, abs_of_nonneg hX0]
    exact mul_le_mul hX hN (abs_nonneg _) (by norm_num)
  rw [hsplit, abs_div, abs_of_pos hF]
  gcongr
  exact (abs_add_le _ _).trans (by linarith)

/-- The fixed-point sine up to 2, which is past pi/2. -/
theorem abs_fixSin_sub_le {X : Nat} (hX : X ≤ 2 * fixOne) :
    |(fixSin X : ℝ) / fixOne - Real.sin (X / fixOne)| ≤ 1 / 2 ^ 39 := by
  have hF := fixOne_pos
  have hx0 : (0 : ℝ) ≤ X / fixOne := by positivity
  have hx2 : (X : ℝ) / fixOne ≤ 2 := by
    rw [div_le_iff₀ hF]
    exact_mod_cast hX
  have hsquare : |((X * X / fixOne : Nat) : ℝ) - fixOne * ((X : ℝ) / fixOne) ^ 2| ≤ 1 := by
    have hdiv := abs_natDiv_sub_le (X * X) fixOne
    have heq : ((X * X : Nat) : ℝ) / fixOne = fixOne * ((X : ℝ) / fixOne) ^ 2 := by
      push_cast
      field_simp
    rwa [heq] at hdiv
  have hmax : X * X / fixOne ≤ 4 * fixOne := by
    refine Nat.div_le_of_le_mul ?_
    calc X * X ≤ 2 * fixOne * (2 * fixOne) := Nat.mul_le_mul hX hX
      _ = fixOne * (4 * fixOne) := by ring
  have hseries := abs_sincSeries_sub_le hmax (sq_nonneg _) (by nlinarith) hsquare 24 1 Nat.one_pos
  have hdiv := abs_natDiv_sub_le (X * sincSeries (X * X / fixOne) 24 1) fixOne
  rw [Nat.cast_mul] at hdiv
  have hproduct := abs_fixProduct_sub_le hF hx2 hseries hdiv
  have htail := (abs_sum_sinTerm_sub_sin_le hx0 hx2 25).trans (sinTerm_rest_le hx0 hx2)
  rw [← mul_realSincSeries_one] at htail
  have hfloors : (2 * (2 * ((24 : Nat) : ℝ)) + 1) / fixOne ≤ 1 / 2 ^ 40 := by
    unfold fixOne
    norm_num
  rw [fixSin, Nat.cast_min, ← min_div_div_right hF.le, div_self hF.ne']
  refine abs_min_sub_le ?_ (Real.sin_le_one _)
  calc _ ≤ _ := abs_sub_le _ _ _
    _ ≤ 1 / 2 ^ 40 + 1 / 2 ^ 40 := add_le_add (hproduct.trans hfloors) htail
    _ = 1 / 2 ^ 39 := by norm_num

/-! ### The angle, and the coefficient -/

theorem abs_fixPi_sub_pi_le : |(fixPi : ℝ) / fixOne - Real.pi| ≤ 1 / 2 ^ 40 := by
  have hlow := Real.pi_gt_d20
  have hhigh := Real.pi_lt_d20
  have hfix : (3.14159265358979323846 : ℝ) ≤ (fixPi : ℝ) / fixOne ∧ (fixPi : ℝ) / fixOne ≤ 3.14159265358979323847 := by
    unfold fixPi fixOne
    norm_num
  rw [abs_le]
  constructor <;> linarith

theorem fixPi_le : fixPi ≤ 4 * fixOne := by decide

/-- The sine of the fixed-point angle of the fraction j / m of pi, up to one half. -/
theorem abs_fixSin_angle_sub_le {j m : Nat} (hm : 0 < m) (hj : 2 * j ≤ m) :
    |(fixSin (fixPi * j / m) : ℝ) / fixOne - Real.sin (Real.pi * (j / m))| ≤ 1 / 2 ^ 26 := by
  have hangle : fixPi * j / m ≤ 2 * fixOne := by
    refine Nat.div_le_of_le_mul ?_
    calc fixPi * j ≤ 4 * fixOne * j := Nat.mul_le_mul_right _ fixPi_le
      _ = 2 * j * (2 * fixOne) := by ring
      _ ≤ m * (2 * fixOne) := Nat.mul_le_mul_right _ hj
  have hsin := abs_fixSin_sub_le hangle
  have harg := abs_floor_mul_sub_le fixOne_pos hm (show j ≤ m by omega) abs_fixPi_sub_pi_le
  rw [Nat.mul_comm j] at harg
  have hfloor : 1 / (fixOne : ℝ) ≤ 1 / 2 ^ 40 := by
    unfold fixOne
    norm_num
  calc _ ≤ _ := abs_sub_le _ _ _
    _ ≤ 1 / 2 ^ 39 + (1 / 2 ^ 40 + 1 / 2 ^ 40) :=
        add_le_add hsin ((Real.abs_sin_sub_sin_le _ _).trans (harg.trans (add_le_add_left hfloor _)))
    _ ≤ 1 / 2 ^ 26 := by norm_num

theorem abs_sq_sub_sq_le {a b ε : ℝ} (ha : |a| ≤ 1) (hb : |b| ≤ 1) (h : |a - b| ≤ ε) : |a ^ 2 - b ^ 2| ≤ 2 * ε := by
  rw [sq_sub_sq, abs_mul]
  exact mul_le_mul ((abs_add_le a b).trans (by linarith)) h (abs_nonneg _) (by norm_num)

/-- Rounding the square of the fixed-point sine is off by at most 2^-25. -/
theorem abs_sinSquared_sub_le (x : Nat) :
    |(F32.scaled (sinSquared x) : ℝ) / 2 ^ 149 - ((fixSin x : ℝ) / fixOne) ^ 2| ≤ 1 / 2 ^ 25 := by
  have hle : fixSin x * fixSin x * 2 ^ 149 ≤ F32.mag Word.one * 2 ^ 256 :=
    calc fixSin x * fixSin x * 2 ^ 149 ≤ fixOne * fixOne * 2 ^ 149 :=
          Nat.mul_le_mul_right _ (Nat.mul_le_mul (fixSin_le_one x) (fixSin_le_one x))
      _ = F32.mag Word.one * 2 ^ 256 := by decide
  have hround := F32.abs_roundMag_sub_le (c := 125) (by decide) F32.mag_one hle
  have hsquare : ((fixSin x * fixSin x : Nat) : ℝ) / 2 ^ 256 = ((fixSin x : ℝ) / fixOne) ^ 2 := by
    rw [Nat.cast_mul, div_pow, ← sq, fixOne, Nat.cast_pow, Nat.cast_ofNat, ← pow_mul]
  rw [hsquare] at hround
  exact hround.trans (by norm_num)

/-- The formula of R21 is the square of a sine, the same for the mirrored index. -/
theorem hannFormula_eq {l i : Nat} (hl : 2 ≤ l) (hi : i < l) :
    (1 / 2) * (1 - Real.cos (2 * Real.pi * (i : ℝ) / ((l : ℝ) - 1))) =
      Real.sin (Real.pi * ((min i (l - 1 - i) : Nat) / (l - 1 : Nat))) ^ 2 := by
  have hcast : ((l - 1 : Nat) : ℝ) = (l : ℝ) - 1 := by rw [Nat.cast_sub (by omega), Nat.cast_one]
  have hm : ((l - 1 : Nat) : ℝ) ≠ 0 := Nat.cast_ne_zero.2 (by omega)
  have hhalf : 2 * Real.pi * (i : ℝ) / ((l : ℝ) - 1) = 2 * (Real.pi * (i / (l - 1 : Nat))) := by
    rw [← hcast]
    ring
  have hmirror : Real.sin (Real.pi * ((l - 1 - i : Nat) / (l - 1 : Nat))) = Real.sin (Real.pi * (i / (l - 1 : Nat))) := by
    rw [← Real.sin_pi_sub, Nat.cast_sub (show i ≤ l - 1 by omega)]
    congr 1
    field_simp
    ring
  have hmin : Real.sin (Real.pi * ((min i (l - 1 - i) : Nat) / (l - 1 : Nat))) = Real.sin (Real.pi * (i / (l - 1 : Nat))) := by
    rcases min_choice i (l - 1 - i) with h | h
    · rw [h]
    · rw [h, hmirror]
  rw [hmin, hhalf, Real.sin_sq_eq_half_sub]
  ring

/-- Settles O24: the fixed-point sine is the real one to 2^-26, its square to 2^-25, and the rounding adds at most 2^-25. -/
theorem defaultHannApproximatesItsFormula : Obligations.DefaultHannApproximatesItsFormula := by
  intro l i hl _ hi
  rw [hannFormula_eq hl hi, hannStandard_eq_sinSquared]
  have hsin := abs_fixSin_angle_sub_le (j := min i (l - 1 - i)) (m := l - 1) (by omega) (by omega)
  have hfix : |(fixSin (fixPi * min i (l - 1 - i) / (l - 1)) : ℝ) / fixOne| ≤ 1 := by
    rw [abs_of_nonneg (by positivity), div_le_one fixOne_pos]
    exact Nat.cast_le.2 (fixSin_le_one _)
  calc _ ≤ _ := abs_sub_le _ _ _
    _ ≤ 1 / 2 ^ 25 + 2 * (1 / 2 ^ 26) :=
        add_le_add (abs_sinSquared_sub_le _) (abs_sq_sub_sq_le hfix (Real.abs_sin_le_one _) hsin)
    _ = 1 / 2 ^ 24 := by norm_num

end Sys2Proof.Machine
